-- ==== Sys2Proof/Word.lean ====
section
/-! DEFINITION. The machine's bytes, words and byte strings (00_scope R10, R11). -/
namespace Sys2Proof

/-- A byte: 8 bits (R10). -/
abbrev Byte := BitVec 8

/-- A word: 32 bits, the width of every host register (R9, R10). -/
abbrev Word := BitVec 32

/-- A byte string `b[0] .. b[len(b)-1]` (R11). -/
abbrev Bytes := List Byte

end Sys2Proof
end

