-- ==== Sys2Proof/Machine/Bytes.lean ====
section
/-! DEFINITION. Byte strings, integer conversions and bit orders (00_scope R10 to R12, R15, R16). -/
namespace Sys2Proof.Machine

/-- `zeros(n)` (R11). -/
def zeros (n : Nat) : Bytes := List.replicate n 0

/-- `b[i..j)` (R11). -/
def slice (b : Bytes) (i j : Nat) : Bytes := (b.drop i).take (j - i)

/-- `xor(a, b)` for `len(a) <= len(b)`: as long as `a`, `b` truncated (R11). -/
def xorBytes (a b : Bytes) : Bytes := List.zipWith (· ^^^ ·) a b

/-- `chunks_k(b)` with at most `fuel` pieces. -/
def chunksUpTo : Nat → Nat → Bytes → List Bytes
  | 0, _, _ => []
  | fuel + 1, k, b => if b.isEmpty then [] else b.take k :: chunksUpTo fuel k (b.drop k)

/-- `chunks_k(b)`: consecutive `k`-byte pieces, the last possibly shorter, none of the empty string (R11). -/
def chunks (k : Nat) (b : Bytes) : List Bytes := chunksUpTo b.length k b

/-- `pad16(b)` (R11). -/
def pad16 (b : Bytes) : Bytes := b ++ zeros ((16 - b.length % 16) % 16)

/-- `BE(b)`: `b[0]` is the most significant byte (R12). -/
def be (b : Bytes) : Nat := b.foldl (fun v x => 256 * v + x.toNat) 0

/-- `LE(b)`: `b[0]` is the least significant byte (R12). -/
def le : Bytes → Nat
  | [] => 0
  | x :: rest => x.toNat + 256 * le rest

/-- `toLE_n(v)` (R12). -/
def toLE : Nat → Nat → Bytes
  | 0, _ => []
  | n + 1, v => BitVec.ofNat 8 v :: toLE n (v / 256)

/-- `toBE_n(v)` (R12). -/
def toBE (n v : Nat) : Bytes := (toLE n v).reverse

/-- The OR of the bytes. -/
def orFold (b : Bytes) : Byte := b.foldl (· ||| ·) 0

/-- The XOR of the bytes. -/
def xorFold (b : Bytes) : Byte := b.foldl (· ^^^ ·) 0

/-- Input bit `t` of an `n`-bit value, numbered from 1 at the most significant bit (R16). -/
def desBit {n : Nat} (x : BitVec n) (t : Nat) : Nat := (x.toNat >>> (n - t)) % 2

/-- `perm(x, T, n)`, an `m`-entry table's output read most significant bit first (R16). -/
def perm {n : Nat} (m : Nat) (T : List Nat) (x : BitVec n) : BitVec m :=
  BitVec.ofNat m (T.foldl (fun y t => 2 * y + desBit x t) 0)

end Sys2Proof.Machine
end

