-- ==== Sys2Proof/Syntax.lean ====
section
/-! DEFINITION. The commands of the core: one constructor per row of the opcode map (30_encoding R113). -/
namespace Sys2Proof

/-- A decoded command. `nrf` is the number of AES rounds the word asks for and `alg` the algorithm code, each an
unsigned 4-bit number (R111); a code the command rule rejects is still an instruction (R115, third class).
All data operands are implicit (R112). -/
inductive Instr where
  | nop
  | aesExpand (nrf : Nat)
  | aesEncBlock (nrf : Nat)
  | gcmEnc (nrf : Nat)
  | gcmDec (nrf : Nat)
  | chacha20Block
  | chacha20Xor
  | poly1305Mac
  | c20pEnc
  | c20pDec
  | desEnc
  | desDec
  | tdesEnc
  | tdesDec
  | tdesCbcEnc
  | tdesCbcDec
  | pkcs5Pad
  | pkcs5Unpad
  | genKey (alg : Nat)
  | genNonce (alg : Nat)
  deriving DecidableEq, Repr

end Sys2Proof
end

