-- ==== Sys2Proof/WellFormed.lean ====
section
/-! DEFINITION. When an instruction has an encoding: its NRF and ALG operands fit their 4-bit fields (30_encoding R110, R111). -/
namespace Sys2Proof

/-- A value of a 4-bit field, 0 to 15 (R111). -/
def fits4 (n : Nat) : Bool := decide (n < 16)

/-- `i` is an instruction some command word encodes. -/
def Instr.wf (i : Instr) : Bool :=
  match i with
  | .nop => true
  | .aesExpand nrf => fits4 nrf
  | .aesEncBlock nrf => fits4 nrf
  | .gcmEnc nrf => fits4 nrf
  | .gcmDec nrf => fits4 nrf
  | .chacha20Block => true
  | .chacha20Xor => true
  | .poly1305Mac => true
  | .c20pEnc => true
  | .c20pDec => true
  | .desEnc => true
  | .desDec => true
  | .tdesEnc => true
  | .tdesDec => true
  | .tdesCbcEnc => true
  | .tdesCbcDec => true
  | .pkcs5Pad => true
  | .pkcs5Unpad => true
  | .genKey alg => fits4 alg
  | .genNonce alg => fits4 alg

end Sys2Proof
end

