-- ==== Sys2Proof/Decode.lean ====
section
/-! DEFINITION. The command word: fields (30_encoding R110, R111), the decoder with its two rejections (R113, R114),
and the encoder (R118). -/
namespace Sys2Proof

/-! ## Fields (R110) -/

/-- `OPC = v[7:0]`. -/
def opcField (v : Word) : Nat := (v.extractLsb' 0 8).toNat
/-- `DIR = v[8]`. -/
def dirField (v : Word) : Nat := (v.extractLsb' 8 1).toNat
/-- `RSV0 = v[11:9]`. -/
def rsv0Field (v : Word) : Nat := (v.extractLsb' 9 3).toNat
/-- `NRF = v[15:12]`, zero-extended (R111). -/
def nrfField (v : Word) : Nat := (v.extractLsb' 12 4).toNat
/-- `ALG = v[19:16]`, zero-extended (R111). -/
def algField (v : Word) : Nat := (v.extractLsb' 16 4).toNat
/-- `RSV1 = v[31:20]`. -/
def rsv1Field (v : Word) : Nat := (v.extractLsb' 20 12).toNat

/-- The opcodes that use DIR (R114). -/
def usesDir (opc : Nat) : Bool := opc == 0x0A || opc == 0x0B
/-- The opcodes that use NRF (R114). -/
def usesNrf (opc : Nat) : Bool := opc == 0x01 || opc == 0x02 || opc == 0x03 || opc == 0x04
/-- The opcodes that use ALG (R114). -/
def usesAlg (opc : Nat) : Bool := opc == 0x10 || opc == 0x11

/-! ## Decoding (R113, R114) -/

/-- Why a word is no command of the map (R114, R115). -/
inductive Reject where
  | opcode  -- a reserved opcode, 0x12 to 0xFF: Unsupported(OPCODE)
  | field   -- a nonzero reserved or unused field: Precondition(FIELD)
  deriving DecidableEq, Repr

/-- The row of R113 that `(opc, dir)` selects, with the fields it uses. -/
def selectCommand (opc dir nrf alg : Nat) : Option Instr :=
  match opc, dir with
  | 0x00, _ => some .nop
  | 0x01, _ => some (.aesExpand nrf)
  | 0x02, _ => some (.aesEncBlock nrf)
  | 0x03, _ => some (.gcmEnc nrf)
  | 0x04, _ => some (.gcmDec nrf)
  | 0x05, _ => some .chacha20Block
  | 0x06, _ => some .chacha20Xor
  | 0x07, _ => some .poly1305Mac
  | 0x08, _ => some .c20pEnc
  | 0x09, _ => some .c20pDec
  | 0x0A, 0 => some .desEnc
  | 0x0A, _ => some .desDec
  | 0x0B, 0 => some .tdesEnc
  | 0x0B, _ => some .tdesDec
  | 0x0C, _ => some .tdesCbcEnc
  | 0x0D, _ => some .tdesCbcDec
  | 0x0E, _ => some .pkcs5Pad
  | 0x0F, _ => some .pkcs5Unpad
  | 0x10, _ => some (.genKey alg)
  | 0x11, _ => some (.genNonce alg)
  | _, _ => none

/-- The FIELD check of R114: a reserved field, or a field the opcode does not use, is nonzero. -/
def fieldError (v : Word) : Bool :=
  rsv1Field v != 0 || rsv0Field v != 0
    || (!usesDir (opcField v) && dirField v != 0)
    || (!usesNrf (opcField v) && nrfField v != 0)
    || (!usesAlg (opcField v) && algField v != 0)

/-- Decoding a command word, in the order of R114: the opcode first, then the fields, then the row. -/
def decode (v : Word) : Except Reject Instr :=
  if 0x11 < opcField v then .error .opcode
  else if fieldError v then .error .field
  else
    match selectCommand (opcField v) (dirField v) (nrfField v) (algField v) with
    | some i => .ok i
    | none => .error .opcode

/-! ## Encoding (R113, R118) -/

/-- The opcode of R113. -/
def opcodeOf : Instr → Nat
  | .nop => 0x00
  | .aesExpand _ => 0x01
  | .aesEncBlock _ => 0x02
  | .gcmEnc _ => 0x03
  | .gcmDec _ => 0x04
  | .chacha20Block => 0x05
  | .chacha20Xor => 0x06
  | .poly1305Mac => 0x07
  | .c20pEnc => 0x08
  | .c20pDec => 0x09
  | .desEnc => 0x0A
  | .desDec => 0x0A
  | .tdesEnc => 0x0B
  | .tdesDec => 0x0B
  | .tdesCbcEnc => 0x0C
  | .tdesCbcDec => 0x0D
  | .pkcs5Pad => 0x0E
  | .pkcs5Unpad => 0x0F
  | .genKey _ => 0x10
  | .genNonce _ => 0x11

/-- The DIR bit of R113: 1 for the two decrypt directions. -/
def dirOf : Instr → Nat
  | .desDec => 1
  | .tdesDec => 1
  | _ => 0

/-- The NRF operand, 0 where the command has none. -/
def nrfOf : Instr → Nat
  | .aesExpand nrf => nrf
  | .aesEncBlock nrf => nrf
  | .gcmEnc nrf => nrf
  | .gcmDec nrf => nrf
  | _ => 0

/-- The ALG operand, 0 where the command has none. -/
def algOf : Instr → Nat
  | .genKey alg => alg
  | .genNonce alg => alg
  | _ => 0

/-- A command word from its fields, the reserved ones zero (R110, most significant field first). -/
def assemble (opc dir nrf alg : Nat) : Word :=
  0#12 ++ (BitVec.ofNat 4 alg ++ (BitVec.ofNat 4 nrf ++ (0#3 ++ (BitVec.ofNat 1 dir ++ BitVec.ofNat 8 opc))))

/-- The command word of an instruction (R118). -/
def encode (i : Instr) : Word := assemble (opcodeOf i) (dirOf i) (nrfOf i) (algOf i)

/-- The instruction the decoder reads from a word whose bits are numbered as spec/opcode_table.json numbers them.
The port has no byte lanes (20_memory R85): the word is the value written to CMD, every bit above `nbits` zero. -/
def decodeTableWord (nbits w : Nat) : Option Instr :=
  match decode (BitVec.ofNat 32 (w % 2 ^ nbits)) with
  | .ok i => some i
  | .error _ => none

end Sys2Proof
end

