-- ==== Sys2Proof/Config.lean ====
section
/-! DEFINITION. What an instance fixes (00_scope R7) and the free values the spec leaves open. -/
namespace Sys2Proof

/-- The GCM tag comparison of R258 (90_conflicts C4, 92 D39). -/
inductive TagCompare where
  | exact    -- OR accumulation: exact equality, the default
  | xorFold  -- XOR accumulation: the literal reading
  deriving DecidableEq, Repr

/-- The named parameters of R7, arguments of the model. The fourth, the entropy stream, is the state's
(`State.entropy`, log entry 2). -/
structure Params where
  /-- `DATA_MAX`: the largest message an encrypting command accepts. -/
  dataMax : Nat
  /-- `AAD_MAX`: the largest associated data. -/
  aadMax : Nat
  tagCompare : TagCompare
  deriving DecidableEq, Repr

/-- The ranges R7 gives: `64 <= DATA_MAX <= 2^32 - 1` and `0 <= AAD_MAX <= 2^32 - 1`. -/
abbrev Params.legal (p : Params) : Prop :=
  64 ≤ p.dataMax ∧ p.dataMax ≤ 2 ^ 32 - 1 ∧ p.aadMax ≤ 2 ^ 32 - 1

/-- The instance 95_test_vectors section 0 uses. DESIGN CHOICE (log entry 1): the state after reset carries it;
no statement about a step rests on it. -/
def Params.vectors : Params := ⟨256, 64, .exact⟩

/-- FREE VALUE (93 I16, R500; log entry 2): byte `k` of what the entropy source yields once the bytes given in
`State.entropy` are used up. -/
opaque Config.entropyByte : Nat → Byte

/-- FREE VALUE (log entry 3): what the 32-bit register DOUTLEN holds after `finish(n, p)` with `2^32 <= n`, a
length the spec lets a command reach when `DATA_MAX > 2^32 - 17` and for which it states no register value. -/
opaque Config.doutlenBeyond : Nat → Word

end Sys2Proof
end

