-- ==== Sys2Proof/Machine/State.lean ====
section
/-! DEFINITION. The state of one core instance (10_state R30), the host's events and what its reads return, the reasons a
step stops, and the state after reset (10_state R50). -/
namespace Sys2Proof.Machine

/-! ## Names -/

/-- The error class in STATUS.ERR (60_exceptions R531). Codes 4 to 15 are never produced, so none is representable. -/
inductive ErrClass where
  | ok
  | precondition
  | unsupported
  | auth
  deriving DecidableEq, Repr

/-- The reason of a failed command, ERRINFO[27:24] (60_exceptions R532; code 0, NONE, is a success). -/
inductive Reason where
  | opcode
  | alg
  | field
  | keylen
  | ivlen
  | rounds
  | rkinvalid
  | aadlen
  | datalen
  | tag
  deriving DecidableEq, Repr

/-- The ten host registers (10_state R31). -/
inductive Reg where
  | cmd
  | status
  | errinfo
  | klen
  | ivlen
  | aadlen
  | dinlen
  | doutlen
  | ctr
  | nr
  deriving DecidableEq, Repr

/-- The six byte buffers (10_state R40). -/
inductive BufId where
  | key
  | iv
  | aad
  | din
  | dout
  | rk
  deriving DecidableEq, Repr

/-! ## The outside world -/

/-- What the outside does to the core, one event a step (20_memory R80, R81, R91; 70_reset R580, R592). `width` is the
access's width in bits: the port admits 32 for a register and 8 for a buffer and refuses the rest (R80, R87). -/
inductive HostEvent where
  | regWrite (width off : Nat) (v : Word)
  | regRead (width off : Nat)
  | bufWrite (width id off : Nat) (v : Byte)
  | bufRead (width id off : Nat)
  | reset
  deriving DecidableEq, Repr

/-- The value a host read returned: all a run shows (70_reset R592). -/
inductive Observation where
  | word (v : Word)
  | byte (v : Byte)
  deriving DecidableEq, Repr

/-! ## State -/

/-- The cells of one buffer that hold a value, as (offset, value) in rising order; a cell not listed holds no value
(10_state R41). -/
abbrev Memory := List Host.Cell

/-- The canonical form: offsets strictly rising. (An unlisted cell has no value, so no entry can equal one.) -/
abbrev Memory.wf (m : Memory) : Prop := m.Pairwise (fun a b => a.1 < b.1)

/-- The machine (10_state R30), and below it the model's own fields: parameters, entropy, the host's events and what it
has observed. -/
structure State where
  /-- CMD, the last command word written (R32). -/
  cmd : Word
  /-- STATUS.ERR (R33). -/
  err : ErrClass
  /-- STATUS.PADOK (R33). -/
  padok : Bool
  /-- The round-key-valid flag, mirrored as STATUS.RKV (R44). -/
  rkv : Bool
  /-- ERRINFO (R34). -/
  errinfo : Word
  /-- KLEN (R35). -/
  klen : Word
  /-- IVLEN (R36). -/
  ivlen : Word
  /-- AADLEN (R37). -/
  aadlen : Word
  /-- DINLEN (R38). -/
  dinlen : Word
  /-- DOUTLEN (R39). -/
  doutlen : Word
  /-- CTR (R42). -/
  ctr : Word
  /-- NR (R43). -/
  nr : Word
  /-- Buffer KEY (R40). -/
  key : Memory
  /-- Buffer IV (R40). -/
  iv : Memory
  /-- Buffer AAD (R40). -/
  aad : Memory
  /-- Buffer DIN (R40). -/
  din : Memory
  /-- Buffer DOUT (R40). -/
  dout : Memory
  /-- Buffer RK, the round-key store (R40, R44). -/
  rk : Memory
  /-- The instance's parameters (00_scope R7; log entry 1). No event changes them (70_reset R582). -/
  params : Params
  /-- The bytes the entropy source is known to yield next (47_control R500; log entry 2). -/
  entropy : Bytes
  /-- How many bytes were drawn beyond `entropy` (log entry 2). -/
  drawn : Nat
  /-- The host events to come, first one first (log entry 4). -/
  pending : List HostEvent
  /-- What host reads have returned, first one first (log entry 4). -/
  observed : List Observation
  deriving DecidableEq, Repr

/-! ## Why a step stops -/

/-- A model fault: the run has no meaning past this point (60_exceptions R539). -/
inductive Fault where
  /-- Raised by a core read (00_scope R13) or a host read (20_memory R84) of cell `i` of buffer `b`, which holds no
  value (10_state R41). Safe: the spec gives the run no further meaning. -/
  | unwrittenRead (b : BufId) (i : Nat)
  deriving DecidableEq, Repr

/-- The model has no step (20_memory R80, R83). -/
inductive Refusal where
  /-- Raised by an arm of `exec` whose instruction has no meaning yet. Safe. (No arm raises it in this model.) -/
  | notModelled (mnemonic : String)
  /-- Raised by the port for a register access of another width than 32 bits, at an offset that is not a multiple of 4
  or not one of the ten (R80). Safe: the spec refuses it. -/
  | registerAccess (width off : Nat)
  /-- Raised by the port for a buffer access of another width than 8 bits (R87, 92 D2), to an id above 5 or at an
  offset at or beyond the capacity (R83). Safe: the spec refuses it. -/
  | bufferAccess (width id off : Nat)
  deriving DecidableEq, Repr

/-! ## Reset -/

/-- The state after power-up (10_state R50). The last five fields are the model's own: DESIGN CHOICE, log entries 1, 2
and 4. -/
def State.reset : State where
  cmd := 0
  err := .ok
  padok := false
  rkv := false
  errinfo := 0
  klen := 0
  ivlen := 0
  aadlen := 0
  dinlen := 0
  doutlen := 0
  ctr := 0
  nr := 0
  key := []
  iv := []
  aad := []
  din := []
  dout := []
  rk := []
  params := .vectors
  entropy := []
  drawn := 0
  pending := []
  observed := []

end Sys2Proof.Machine
end

