-- ==== Sys2Proof/Machine/Flags.lean ====
section
/-! DEFINITION. The computed parts of STATUS, ERRINFO and DOUTLEN (10_state R33, R34, R49; 60_exceptions R531 to R534). -/
namespace Sys2Proof.Machine

/-- The ERR code of a class (R531). -/
def ErrClass.code : ErrClass → Nat
  | .ok => 0
  | .precondition => 1
  | .unsupported => 2
  | .auth => 3

/-- The REASON code (R532). -/
def Reason.code : Reason → Nat
  | .opcode => 1
  | .alg => 2
  | .field => 3
  | .keylen => 4
  | .ivlen => 5
  | .rounds => 6
  | .rkinvalid => 7
  | .aadlen => 8
  | .datalen => 9
  | .tag => 10

/-- "The REASON value fixes the ERR value" (R532). -/
def Reason.errClass : Reason → ErrClass
  | .opcode => .unsupported
  | .alg => .unsupported
  | .field => .precondition
  | .keylen => .precondition
  | .ivlen => .precondition
  | .rounds => .precondition
  | .rkinvalid => .precondition
  | .aadlen => .precondition
  | .datalen => .precondition
  | .tag => .auth

/-- What a read of STATUS returns: `zext_32(ERR) | (PADOK << 4) | (RKV << 5)` (R49). -/
def statusWord (err : ErrClass) (padok rkv : Bool) : Word :=
  BitVec.ofNat 32 err.code ||| (BitVec.ofNat 32 padok.toNat <<< 4) ||| (BitVec.ofNat 32 rkv.toNat <<< 5)

/-- ERRINFO after command word `v` failed: `zext_32(v[19:0]) | (reason << 24)` (R534). -/
def errInfoWord (v : Word) (r : Reason) : Word :=
  (v.extractLsb' 0 20).zeroExtend 32 ||| (BitVec.ofNat 32 r.code <<< 24)

/-- DOUTLEN after `n` output bytes (R533); a length the 32-bit register cannot hold leaves a free value (log entry 3). -/
def doutlenWord (n : Nat) : Word := if n < 2 ^ 32 then BitVec.ofNat 32 n else Config.doutlenBeyond n

end Sys2Proof.Machine
end

