-- ==== Sys2Proof/Machine/Ops.lean ====
section
/-! DEFINITION. The named operations: buffer cells, registers, the success and failure writes, the draw, reset, and the
frame every command runs in (checks first, then its effect). -/
namespace Sys2Proof.Machine

/-! ## Buffer cells (10_state R41) -/

/-- The value of cell `i`, if it holds one. -/
def Memory.read (m : Memory) (i : Nat) : Option Byte := (m.find? (fun c => c.1 == i)).map (·.2)

/-- The cells `off, off + 1, …` holding the bytes of `s`. -/
def cellsAt : Nat → Bytes → Memory
  | _, [] => []
  | off, b :: rest => (off, b) :: cellsAt (off + 1) rest

/-- Writing `s` to cells `off .. off+len(s)-1`; the other cells keep their value or their want of one (00_scope R13). -/
def Memory.write (m : Memory) (off : Nat) (s : Bytes) : Memory :=
  m.filter (fun c => decide (c.1 < off)) ++ cellsAt off s ++ m.filter (fun c => decide (off + s.length ≤ c.1))

/-- Bytes `off .. off+n-1`, or the first of these cells that holds no value (00_scope R13; log entry 5). -/
def Memory.readBytes (m : Memory) : Nat → Nat → Except Nat Bytes
  | _, 0 => .ok []
  | off, n + 1 =>
    match m.read off with
    | none => .error off
    | some b =>
      match m.readBytes (off + 1) n with
      | .error i => .error i
      | .ok rest => .ok (b :: rest)

/-! ## Buffers (10_state R40) -/

/-- The buffer with an id (R40). -/
def BufId.ofId : Nat → Option BufId
  | 0 => some .key
  | 1 => some .iv
  | 2 => some .aad
  | 3 => some .din
  | 4 => some .dout
  | 5 => some .rk
  | _ => none

/-- The buffer's id (R40). -/
def BufId.id : BufId → Nat
  | .key => 0
  | .iv => 1
  | .aad => 2
  | .din => 3
  | .dout => 4
  | .rk => 5

/-- The buffer's capacity in bytes (R40). -/
def BufId.capacity (p : Params) : BufId → Nat
  | .key => 32
  | .iv => 16
  | .aad => p.aadMax
  | .din => p.dataMax + 16
  | .dout => p.dataMax + 16
  | .rk => 240

/-- The cells of a buffer. -/
def State.buf (s : State) : BufId → Memory
  | .key => s.key
  | .iv => s.iv
  | .aad => s.aad
  | .din => s.din
  | .dout => s.dout
  | .rk => s.rk

/-- The state with other cells in a buffer. -/
def State.setBuf (s : State) (b : BufId) (m : Memory) : State :=
  match b with
  | .key => { s with key := m }
  | .iv => { s with iv := m }
  | .aad => { s with aad := m }
  | .din => { s with din := m }
  | .dout => { s with dout := m }
  | .rk => { s with rk := m }

/-- `BufRead(B, off, n)` (00_scope R13). -/
def State.bufRead (s : State) (b : BufId) (off n : Nat) : Except Fault Bytes :=
  match (s.buf b).readBytes off n with
  | .ok bytes => .ok bytes
  | .error i => .error (.unwrittenRead b i)

/-- `BufWrite(B, off, s)` (00_scope R13). -/
def State.bufWrite (s : State) (b : BufId) (off : Nat) (bytes : Bytes) : State :=
  s.setBuf b ((s.buf b).write off bytes)

/-! ## Registers (10_state R31, R48, R49) -/

/-- The register's offset (R31). -/
def Reg.offset : Reg → Nat
  | .cmd => 0x00
  | .status => 0x04
  | .errinfo => 0x08
  | .klen => 0x0C
  | .ivlen => 0x10
  | .aadlen => 0x14
  | .dinlen => 0x18
  | .doutlen => 0x1C
  | .ctr => 0x20
  | .nr => 0x24

/-- The register at an offset, if it is one of the ten (20_memory R80). -/
def Reg.ofOffset : Nat → Option Reg
  | 0x00 => some .cmd
  | 0x04 => some .status
  | 0x08 => some .errinfo
  | 0x0C => some .klen
  | 0x10 => some .ivlen
  | 0x14 => some .aadlen
  | 0x18 => some .dinlen
  | 0x1C => some .doutlen
  | 0x20 => some .ctr
  | 0x24 => some .nr
  | _ => none

/-- What a host read of a register returns (R49). -/
def State.readReg (s : State) : Reg → Word
  | .cmd => s.cmd
  | .status => statusWord s.err s.padok s.rkv
  | .errinfo => s.errinfo
  | .klen => s.klen
  | .ivlen => s.ivlen
  | .aadlen => s.aadlen
  | .dinlen => s.dinlen
  | .doutlen => s.doutlen
  | .ctr => s.ctr
  | .nr => s.nr

/-- What a host write stores: the value in a writable register (R32, R35 to R38, R42), nothing in a read-only one
(R48). Running the command that a write to CMD starts is `executeWord`'s. -/
def State.writeReg (s : State) (r : Reg) (v : Word) : State :=
  match r with
  | .cmd => { s with cmd := v }
  | .status => s
  | .errinfo => s
  | .klen => { s with klen := v }
  | .ivlen => { s with ivlen := v }
  | .aadlen => { s with aadlen := v }
  | .dinlen => { s with dinlen := v }
  | .doutlen => s
  | .ctr => { s with ctr := v }
  | .nr => s

/-! ## Ending a command (60_exceptions R533, R534) -/

/-- The success write `finish(n, p)` (R533). -/
def finish (n : Nat) (p : Bool) (s : State) : State :=
  { s with err := .ok, padok := p, errinfo := 0, doutlen := doutlenWord n }

/-- The failure write of `raise E(reason)` for command word `v`: these four fields and nothing else (R534). It is the
core's whole "exception entry": no control transfer, no saved state (R530, R540), and so no return (R541). -/
def raise (v : Word) (r : Reason) (s : State) : State :=
  { s with err := r.errClass, padok := false, errinfo := errInfoWord v r, doutlen := 0 }

/-! ## The frame of a command (60_exceptions R535) -/

/-- The reason of the first check that fails; checks are in the order of R535. -/
def firstFailing : List (Bool × Reason) → Option Reason
  | [] => none
  | (fails, r) :: rest => if fails then some r else firstFailing rest

/-- A command: its checks in order, the first that fails reported, then its effect (R114, R535). The word reported is
the instruction's own, which CMD holds when the core runs it (R32; log entry 7). -/
def runCommand (i : Instr) (checks : List (Bool × Reason)) (effect : Host.Outcome State Fault Refusal) (s : State) :
    Host.Outcome State Fault Refusal :=
  match firstFailing checks with
  | some r => .next (raise (encode i) r s)
  | none => effect

/-- Going on with what was read, or the model fault of the read (R539). -/
def reading {α : Type} (r : Except Fault α) (k : α → Host.Outcome State Fault Refusal) :
    Host.Outcome State Fault Refusal :=
  match r with
  | .error f => .fault f
  | .ok a => k a

/-- `BufWrite(DOUT, 0, out)` and `finish(len(out), p)`: how a command with output ends. -/
def finishWith (out : Bytes) (p : Bool) (s : State) : State := finish out.length p (s.bufWrite .dout 0 out)

/-! ## Entropy (47_control R500) -/

/-- `draw(n)`: the bytes given, in order, then free values (log entry 2). Always `n` bytes; never fails or stalls. -/
def State.drawBytes (s : State) (n : Nat) : Bytes :=
  s.entropy.take n ++ (List.range (n - s.entropy.length)).map (fun k => Config.entropyByte (s.drawn + k))

/-- The source after `draw(n)`. -/
def State.afterDraw (s : State) (n : Nat) : State :=
  { s with entropy := s.entropy.drop n, drawn := s.drawn + (n - s.entropy.length) }

/-! ## Reset (70_reset R580) -/

/-- The reset event: every register, RKV and every cell to its value of 10_state R50. It does not touch the entropy
source; parameters, coming events and past observations are no state of the core (log entry 4). -/
def State.resetCore (s : State) : State :=
  { State.reset with
    params := s.params, entropy := s.entropy, drawn := s.drawn, pending := s.pending, observed := s.observed }

end Sys2Proof.Machine
end

