-- ==== Sys2Proof/Machine/Operands.lean ====
section
/-! DEFINITION. The implicit operands (30_encoding R112) and the checks on the registers that name their lengths
(60_exceptions R535, R536). Lengths are compared as numbers, so `DATA_MAX + 16` does not wrap (log entry 8). -/
namespace Sys2Proof.Machine

/-! ## Operands (R112) -/

/-- `KEY[0..KLEN)`. -/
def State.keyOperand (s : State) : Except Fault Bytes := s.bufRead .key 0 s.klen.toNat
/-- `IV[0..IVLEN)`. -/
def State.ivOperand (s : State) : Except Fault Bytes := s.bufRead .iv 0 s.ivlen.toNat
/-- `AAD[0..AADLEN)`. -/
def State.aadOperand (s : State) : Except Fault Bytes := s.bufRead .aad 0 s.aadlen.toNat
/-- `DIN[0..DINLEN)`. -/
def State.dinOperand (s : State) : Except Fault Bytes := s.bufRead .din 0 s.dinlen.toNat

/-- Round keys `j .. j+count-1` of the store, 16 bytes each (10_state R44). -/
def State.roundKeysFrom (s : State) : Nat → Nat → Except Fault (List Bytes)
  | _, 0 => .ok []
  | j, count + 1 =>
    match s.bufRead .rk (16 * j) 16 with
    | .error f => .error f
    | .ok k =>
      match s.roundKeysFrom (j + 1) count with
      | .error f => .error f
      | .ok ks => .ok (k :: ks)

/-- `[BufRead(RK, 16j, 16) for j in 0..nrf]`. -/
def State.roundKeysOperand (s : State) (nrf : Nat) : Except Fault (List Bytes) := s.roundKeysFrom 0 (nrf + 1)

/-! ## Checks (R535, R536): the condition under which each fails, and its reason -/

/-- KEYLEN: KLEN is none of the lengths allowed. -/
def keylenCheck (allowed : List Nat) (s : State) : Bool × Reason := (!allowed.contains s.klen.toNat, .keylen)
/-- ROUNDS, first form: NRF is not 10, 12 or 14. -/
def roundsLegalCheck (nrf : Nat) : Bool × Reason := (!([10, 12, 14] : List Nat).contains nrf, .rounds)
/-- RKINVALID: no key schedule is loaded. -/
def rkvCheck (s : State) : Bool × Reason := (!s.rkv, .rkinvalid)
/-- ROUNDS, second form: NRF does not equal NR. -/
def roundsMatchCheck (nrf : Nat) (s : State) : Bool × Reason := (nrf != s.nr.toNat, .rounds)
/-- IVLEN: IVLEN is not the length needed. -/
def ivlenCheck (n : Nat) (s : State) : Bool × Reason := (s.ivlen.toNat != n, .ivlen)
/-- AADLEN: AADLEN > AAD_MAX. -/
def aadlenCheck (s : State) : Bool × Reason := (decide (s.params.aadMax < s.aadlen.toNat), .aadlen)
/-- DATALEN: DINLEN is not exactly `n`. -/
def dinlenExactCheck (n : Nat) (s : State) : Bool × Reason := (s.dinlen.toNat != n, .datalen)
/-- DATALEN: DINLEN > DATA_MAX + extra. -/
def dinlenMaxCheck (extra : Nat) (s : State) : Bool × Reason :=
  (decide (s.params.dataMax + extra < s.dinlen.toNat), .datalen)
/-- DATALEN of a ciphertext with its tag: DINLEN < 16 or DINLEN > DATA_MAX + 16. -/
def dinlenTaggedCheck (s : State) : Bool × Reason :=
  (decide (s.dinlen.toNat < 16) || decide (s.params.dataMax + 16 < s.dinlen.toNat), .datalen)
/-- DATALEN of a CBC ciphertext: DINLEN > DATA_MAX + 8 or DINLEN mod 8 ≠ 0. -/
def dinlenBlocksCheck (s : State) : Bool × Reason :=
  (decide (s.params.dataMax + 8 < s.dinlen.toNat) || s.dinlen.toNat % 8 != 0, .datalen)

end Sys2Proof.Machine
end

