-- ==== Sys2Proof/Machine/Tdes.lean ====
section
/-! DEFINITION. DES and Triple DES: tables, key scheduler, Feistel network, E-D-E and the block commands
(45_tdes R400 to R413). Bits are numbered as in 00_scope R16. -/
namespace Sys2Proof.Machine

/-! ## Tables (R400) -/

/-- The initial permutation, 64 to 64. -/
def desIP : List Nat :=
  [58, 50, 42, 34, 26, 18, 10, 2,
   60, 52, 44, 36, 28, 20, 12, 4,
   62, 54, 46, 38, 30, 22, 14, 6,
   64, 56, 48, 40, 32, 24, 16, 8,
   57, 49, 41, 33, 25, 17, 9, 1,
   59, 51, 43, 35, 27, 19, 11, 3,
   61, 53, 45, 37, 29, 21, 13, 5,
   63, 55, 47, 39, 31, 23, 15, 7]

/-- The final permutation, 64 to 64. -/
def desFP : List Nat :=
  [40, 8, 48, 16, 56, 24, 64, 32,
   39, 7, 47, 15, 55, 23, 63, 31,
   38, 6, 46, 14, 54, 22, 62, 30,
   37, 5, 45, 13, 53, 21, 61, 29,
   36, 4, 44, 12, 52, 20, 60, 28,
   35, 3, 43, 11, 51, 19, 59, 27,
   34, 2, 42, 10, 50, 18, 58, 26,
   33, 1, 41, 9, 49, 17, 57, 25]

/-- The expansion, 32 to 48. -/
def desE : List Nat :=
  [32, 1, 2, 3, 4, 5,
   4, 5, 6, 7, 8, 9,
   8, 9, 10, 11, 12, 13,
   12, 13, 14, 15, 16, 17,
   16, 17, 18, 19, 20, 21,
   20, 21, 22, 23, 24, 25,
   24, 25, 26, 27, 28, 29,
   28, 29, 30, 31, 32, 1]

/-- The P-box, 32 to 32. -/
def desP : List Nat :=
  [16, 7, 20, 21, 29, 12, 28, 17,
   1, 15, 23, 26, 5, 18, 31, 10,
   2, 8, 24, 14, 32, 27, 3, 9,
   19, 13, 30, 6, 22, 11, 4, 25]

/-- Permuted choice 1, 64 to 56. -/
def desPC1 : List Nat :=
  [57, 49, 41, 33, 25, 17, 9,
   1, 58, 50, 42, 34, 26, 18,
   10, 2, 59, 51, 43, 35, 27,
   19, 11, 3, 60, 52, 44, 36,
   63, 55, 47, 39, 31, 23, 15,
   7, 62, 54, 46, 38, 30, 22,
   14, 6, 61, 53, 45, 37, 29,
   21, 13, 5, 28, 20, 12, 4]

/-- Permuted choice 2, 56 to 48. -/
def desPC2 : List Nat :=
  [14, 17, 11, 24, 1, 5,
   3, 28, 15, 6, 21, 10,
   23, 19, 12, 4, 26, 8,
   16, 7, 27, 20, 13, 2,
   41, 52, 31, 37, 47, 55,
   30, 40, 51, 45, 33, 48,
   44, 49, 39, 56, 34, 53,
   46, 42, 50, 36, 29, 32]

/-- The left-rotation amounts of rounds 1 to 16. -/
def desShifts : List Nat := [1, 1, 2, 2, 2, 2, 2, 2, 1, 2, 2, 2, 2, 2, 2, 1]

/-- S1 (R400). -/
def desS1 : List (List Nat) :=
  [[14, 4, 13, 1, 2, 15, 11, 8, 3, 10, 6, 12, 5, 9, 0, 7],
   [0, 15, 7, 4, 14, 2, 13, 1, 10, 6, 12, 11, 9, 5, 3, 8],
   [4, 1, 14, 8, 13, 6, 2, 11, 15, 12, 9, 7, 3, 10, 5, 0],
   [15, 12, 8, 2, 4, 9, 1, 7, 5, 11, 3, 14, 10, 0, 6, 13]]

/-- S2 (R400). -/
def desS2 : List (List Nat) :=
  [[15, 1, 8, 14, 6, 11, 3, 4, 9, 7, 2, 13, 12, 0, 5, 10],
   [3, 13, 4, 7, 15, 2, 8, 14, 12, 0, 1, 10, 6, 9, 11, 5],
   [0, 14, 7, 11, 10, 4, 13, 1, 5, 8, 12, 6, 9, 3, 2, 15],
   [13, 8, 10, 1, 3, 15, 4, 2, 11, 6, 7, 12, 0, 5, 14, 9]]

/-- S3 (R400). -/
def desS3 : List (List Nat) :=
  [[10, 0, 9, 14, 6, 3, 15, 5, 1, 13, 12, 7, 11, 4, 2, 8],
   [13, 7, 0, 9, 3, 4, 6, 10, 2, 8, 5, 14, 12, 11, 15, 1],
   [13, 6, 4, 9, 8, 15, 3, 0, 11, 1, 2, 12, 5, 10, 14, 7],
   [1, 10, 13, 0, 6, 9, 8, 7, 4, 15, 14, 3, 11, 5, 2, 12]]

/-- S4 (R400). -/
def desS4 : List (List Nat) :=
  [[7, 13, 14, 3, 0, 6, 9, 10, 1, 2, 8, 5, 11, 12, 4, 15],
   [13, 8, 11, 5, 6, 15, 0, 3, 4, 7, 2, 12, 1, 10, 14, 9],
   [10, 6, 9, 0, 12, 11, 7, 13, 15, 1, 3, 14, 5, 2, 8, 4],
   [3, 15, 0, 6, 10, 1, 13, 8, 9, 4, 5, 11, 12, 7, 2, 14]]

/-- S5 (R400). -/
def desS5 : List (List Nat) :=
  [[2, 12, 4, 1, 7, 10, 11, 6, 8, 5, 3, 15, 13, 0, 14, 9],
   [14, 11, 2, 12, 4, 7, 13, 1, 5, 0, 15, 10, 3, 9, 8, 6],
   [4, 2, 1, 11, 10, 13, 7, 8, 15, 9, 12, 5, 6, 3, 0, 14],
   [11, 8, 12, 7, 1, 14, 2, 13, 6, 15, 0, 9, 10, 4, 5, 3]]

/-- S6 (R400). -/
def desS6 : List (List Nat) :=
  [[12, 1, 10, 15, 9, 2, 6, 8, 0, 13, 3, 4, 14, 7, 5, 11],
   [10, 15, 4, 2, 7, 12, 9, 5, 6, 1, 13, 14, 0, 11, 3, 8],
   [9, 14, 15, 5, 2, 8, 12, 3, 7, 0, 4, 10, 1, 13, 11, 6],
   [4, 3, 2, 12, 9, 5, 15, 10, 11, 14, 1, 7, 6, 0, 8, 13]]

/-- S7 (R400). -/
def desS7 : List (List Nat) :=
  [[4, 11, 2, 14, 15, 0, 8, 13, 3, 12, 9, 7, 5, 10, 6, 1],
   [13, 0, 11, 7, 4, 9, 1, 10, 14, 3, 5, 12, 2, 15, 8, 6],
   [1, 4, 11, 13, 12, 3, 7, 14, 10, 15, 6, 8, 0, 5, 9, 2],
   [6, 11, 13, 8, 1, 4, 10, 7, 9, 5, 0, 15, 14, 2, 3, 12]]

/-- S8 (R400). -/
def desS8 : List (List Nat) :=
  [[13, 2, 8, 4, 6, 15, 11, 1, 10, 9, 3, 14, 5, 0, 12, 7],
   [1, 15, 13, 8, 10, 3, 7, 4, 12, 5, 6, 11, 0, 14, 9, 2],
   [7, 11, 4, 1, 9, 12, 14, 2, 0, 6, 10, 13, 15, 3, 5, 8],
   [2, 1, 14, 7, 4, 10, 8, 13, 15, 12, 9, 0, 3, 5, 6, 11]]

/-- S1 to S8, in order. -/
def desS : List (List (List Nat)) := [desS1, desS2, desS3, desS4, desS5, desS6, desS7, desS8]

/-! ## Key scheduler (R401) -/

/-- The subkeys of the rounds whose rotation amounts are listed, from the halves `C`, `D` before them. -/
def desSchedule (c d : BitVec 28) : List Nat → List (BitVec 48)
  | [] => []
  | n :: rest =>
    perm 48 desPC2 (c.rotateLeft n ++ d.rotateLeft n) :: desSchedule (c.rotateLeft n) (d.rotateLeft n) rest

/-- `desSubkeys(k)` (R401). -/
def desSubkeys (k : Bytes) : List (BitVec 48) :=
  let cd := perm 56 desPC1 (BitVec.ofNat 64 (be k))
  desSchedule (cd.extractLsb' 28 28) (cd.extractLsb' 0 28) desShifts

/-! ## Feistel network (R403, R404) -/

/-- `Si[row][col]` for a 6-bit group: row the outer bits, column the inner four (R403). -/
def desSbox (box : List (List Nat)) (b : BitVec 6) : Nat :=
  let row := ((b.toNat >>> 4) &&& 2) ||| (b.toNat &&& 1)
  let col := (b.toNat >>> 1) &&& 0xf
  (box.getD row []).getD col 0

/-- The S-box layer: group 1 is the most significant (R403). -/
def desSubstitute (x : BitVec 48) : BitVec 32 :=
  BitVec.ofNat 32
    ((List.range 8).foldl
      (fun y i => 16 * y + desSbox (desS.getD i []) (x.extractLsb' (48 - 6 * (i + 1)) 6)) 0)

/-- The round function `f(R, K)` (R403). -/
def desF (r : BitVec 32) (k : BitVec 48) : BitVec 32 :=
  perm 32 desP (desSubstitute (perm 48 desE r ^^^ k))

/-- One Feistel round per subkey: `(L, R) <- (R, L ^ f(R, K))` (R404). -/
def desRounds : List (BitVec 48) → BitVec 32 × BitVec 32 → BitVec 32 × BitVec 32
  | [], lr => lr
  | k :: ks, (l, r) => desRounds ks (r, l ^^^ desF r k)

/-- The block under a list of subkeys, the halves swapped before FP (R404). -/
def desBlock (ks : List (BitVec 48)) (x : BitVec 64) : BitVec 64 :=
  let y := perm 64 desIP x
  let lr := desRounds ks (y.extractLsb' 32 32, y.extractLsb' 0 32)
  perm 64 desFP (lr.2 ++ lr.1)

/-- `des(k, blk, decrypt)` (R404). -/
def des (k blk : Bytes) (decrypt : Bool) : Bytes :=
  let ks := desSubkeys k
  toBE 8 (desBlock (if decrypt then ks.reverse else ks) (BitVec.ofNat 64 (be blk))).toNat

/-! ## Triple DES (R405, R406) -/

/-- `K1` (R405). -/
def tdesK1 (key : Bytes) : Bytes := slice key 0 8
/-- `K2` (R405). -/
def tdesK2 (key : Bytes) : Bytes := slice key 8 16
/-- `K3`: `K1` again for a two-key key (R405). -/
def tdesK3 (key : Bytes) : Bytes := if key.length = 16 then tdesK1 key else slice key 16 24

/-- `tdesEnc(key, b)` (R406). -/
def tdesEncrypt (key b : Bytes) : Bytes :=
  des (tdesK3 key) (des (tdesK2 key) (des (tdesK1 key) b false) true) false

/-- `tdesDec(key, b)` (R406). -/
def tdesDecrypt (key b : Bytes) : Bytes :=
  des (tdesK1 key) (des (tdesK2 key) (des (tdesK3 key) b true) false) true

/-! ## Commands -/

/-- A one-block command with a key of one of the lengths `klens` (R410 to R413). -/
def runBlockCipher (i : Instr) (klens : List Nat) (cipher : Bytes → Bytes → Bytes) (s : State) :
    Host.Outcome State Fault Refusal :=
  runCommand i [keylenCheck klens s, dinlenExactCheck 8 s]
    (reading s.keyOperand fun key => reading s.dinOperand fun blk => .next (finishWith (cipher key blk) false s))
    s

/-- DES_ENC (R410). -/
def execDesEnc (s : State) : Host.Outcome State Fault Refusal :=
  runBlockCipher .desEnc [8] (fun key blk => des key blk false) s

/-- DES_DEC (R411). -/
def execDesDec (s : State) : Host.Outcome State Fault Refusal :=
  runBlockCipher .desDec [8] (fun key blk => des key blk true) s

/-- TDES_ENC (R412). -/
def execTdesEnc (s : State) : Host.Outcome State Fault Refusal :=
  runBlockCipher .tdesEnc [16, 24] tdesEncrypt s

/-- TDES_DEC (R413). -/
def execTdesDec (s : State) : Host.Outcome State Fault Refusal :=
  runBlockCipher .tdesDec [16, 24] tdesDecrypt s

end Sys2Proof.Machine
end

