-- ==== Sys2Proof/Machine/Cbc.lean ====
section
/-! DEFINITION. PKCS#5 padding and its validator, CBC over Triple DES, and their commands (46_cbc_padding R450 to R459). -/
namespace Sys2Proof.Machine

/-- `pkcs5Pad(d)` (R450). -/
def padPkcs5 (d : Bytes) : Bytes :=
  let n := 8 - d.length % 8
  d ++ List.replicate n (BitVec.ofNat 8 n)

/-- `padValid(d)` (R451); the empty string has no last byte and is invalid. -/
def padValid (d : Bytes) : Bool :=
  match d.getLast? with
  | none => false
  | some b =>
    decide (1 ≤ b.toNat) && decide (b.toNat ≤ 8) && decide (b.toNat ≤ d.length)
      && (d.drop (d.length - b.toNat)).all (· == b)

/-- `pkcs5Unpad(d)`: the stripped bytes and 1, or the data unmodified and 0 (R452). -/
def unpadPkcs5 (d : Bytes) : Bytes × Bool :=
  if padValid d then (d.take (d.length - (d.getLast?.getD 0).toNat), true) else (d, false)

/-- The loop of R453: `prev` is the previous ciphertext block or the IV. -/
def cbcEncLoop (key : Bytes) : Bytes → List Bytes → Bytes
  | _, [] => []
  | prev, p :: rest =>
    let c := tdesEncrypt key (xorBytes p prev)
    c ++ cbcEncLoop key c rest

/-- `cbcEnc(key, iv, P)` (R453). -/
def cbcEncrypt (key iv p : Bytes) : Bytes := cbcEncLoop key iv (chunks 8 p)

/-- The loop of R454: `prev` is the previous ciphertext block or the IV. -/
def cbcDecLoop (key : Bytes) : Bytes → List Bytes → Bytes
  | _, [] => []
  | prev, c :: rest => xorBytes (tdesDecrypt key c) prev ++ cbcDecLoop key c rest

/-- `cbcDec(key, iv, C)` (R454). -/
def cbcDecrypt (key iv c : Bytes) : Bytes := cbcDecLoop key iv (chunks 8 c)

/-! ## Commands -/

/-- TDES_CBC_ENC (R456). -/
def execTdesCbcEnc (s : State) : Host.Outcome State Fault Refusal :=
  runCommand .tdesCbcEnc [keylenCheck [16, 24] s, ivlenCheck 8 s, dinlenMaxCheck 0 s]
    (reading s.keyOperand fun key =>
      reading s.ivOperand fun iv =>
        reading s.dinOperand fun d => .next (finishWith (cbcEncrypt key iv (padPkcs5 d)) false s))
    s

/-- TDES_CBC_DEC (R457). A padding failure is no error (R455). -/
def execTdesCbcDec (s : State) : Host.Outcome State Fault Refusal :=
  runCommand .tdesCbcDec [keylenCheck [16, 24] s, ivlenCheck 8 s, dinlenBlocksCheck s]
    (reading s.keyOperand fun key =>
      reading s.ivOperand fun iv =>
        reading s.dinOperand fun c =>
          let u := unpadPkcs5 (cbcDecrypt key iv c)
          .next (finishWith u.1 u.2 s))
    s

/-- PKCS5_PAD (R458). -/
def execPkcs5Pad (s : State) : Host.Outcome State Fault Refusal :=
  runCommand .pkcs5Pad [dinlenMaxCheck 0 s]
    (reading s.dinOperand fun d => .next (finishWith (padPkcs5 d) false s))
    s

/-- PKCS5_UNPAD (R459). -/
def execPkcs5Unpad (s : State) : Host.Outcome State Fault Refusal :=
  runCommand .pkcs5Unpad [dinlenMaxCheck 16 s]
    (reading s.dinOperand fun d =>
      let u := unpadPkcs5 d
      .next (finishWith u.1 u.2 s))
    s

end Sys2Proof.Machine
end

