-- ==== Sys2Proof/Machine/Control.lean ====
section
/-! DEFINITION. Algorithm codes and the control commands NOP, GEN_KEY, GEN_NONCE (47_control R500 to R504). -/
namespace Sys2Proof.Machine

/-- Key bytes of an algorithm code; codes 0 and 7 to 15 are not assigned (R501). -/
def keyBytes : Nat → Option Nat
  | 1 => some 16
  | 2 => some 24
  | 3 => some 32
  | 4 => some 32
  | 5 => some 16
  | 6 => some 24
  | _ => none

/-- Nonce or IV bytes of an algorithm code (R501). -/
def nonceBytes : Nat → Option Nat
  | 1 => some 12
  | 2 => some 12
  | 3 => some 12
  | 4 => some 12
  | 5 => some 8
  | 6 => some 8
  | _ => none

/-- NOP (R502). -/
def execNop (s : State) : Host.Outcome State Fault Refusal := runCommand .nop [] (.next (finish 0 false s)) s

/-- GEN_KEY ALG=a (R503). -/
def execGenKey (alg : Nat) (s : State) : Host.Outcome State Fault Refusal :=
  match keyBytes alg with
  | none => .next (raise (encode (.genKey alg)) .alg s)
  | some n =>
    .next (finish 0 false { (s.afterDraw n).bufWrite .key 0 (s.drawBytes n) with klen := BitVec.ofNat 32 n })

/-- GEN_NONCE ALG=a (R504). -/
def execGenNonce (alg : Nat) (s : State) : Host.Outcome State Fault Refusal :=
  match nonceBytes alg with
  | none => .next (raise (encode (.genNonce alg)) .alg s)
  | some n =>
    .next (finish 0 false { (s.afterDraw n).bufWrite .iv 0 (s.drawBytes n) with ivlen := BitVec.ofNat 32 n })

end Sys2Proof.Machine
end

