-- ==== Sys2Proof/Machine/Aes.lean ====
section
/-! DEFINITION. AES: GF(2^8), the S-box, the key scheduler (40_aes_key_schedule R150 to R161) and the block cipher
(41_aes_block R200 to R206). -/
namespace Sys2Proof.Machine

/-! ## GF(2^8) (R150 to R152) -/

/-- *xtime*: multiplication by `x` (R151). -/
def xtime (a : Byte) : Byte :=
  let t : BitVec 9 := a.zeroExtend 9 <<< 1
  if t.getLsbD 8 then (t ^^^ 0x11B#9).truncate 8 else t.truncate 8

/-- The loop of R152 with `k` rounds left: `p` is the product so far. -/
def gmulLoop : Nat → Byte → Byte → Byte → Byte
  | 0, _, _, p => p
  | k + 1, a, b, p => gmulLoop k (xtime a) (b >>> 1) (if b.getLsbD 0 then p ^^^ a else p)

/-- Multiplication in GF(2^8) modulo 0x11B (R152). -/
def gmul (a b : Byte) : Byte := gmulLoop 8 a b 0

/-! ## The S-box (R153, R154) -/

/-- The table of R154, one row per high nibble. -/
def sboxTable : List Bytes :=
  [[0x63, 0x7c, 0x77, 0x7b, 0xf2, 0x6b, 0x6f, 0xc5, 0x30, 0x01, 0x67, 0x2b, 0xfe, 0xd7, 0xab, 0x76],
   [0xca, 0x82, 0xc9, 0x7d, 0xfa, 0x59, 0x47, 0xf0, 0xad, 0xd4, 0xa2, 0xaf, 0x9c, 0xa4, 0x72, 0xc0],
   [0xb7, 0xfd, 0x93, 0x26, 0x36, 0x3f, 0xf7, 0xcc, 0x34, 0xa5, 0xe5, 0xf1, 0x71, 0xd8, 0x31, 0x15],
   [0x04, 0xc7, 0x23, 0xc3, 0x18, 0x96, 0x05, 0x9a, 0x07, 0x12, 0x80, 0xe2, 0xeb, 0x27, 0xb2, 0x75]] ++
  [[0x09, 0x83, 0x2c, 0x1a, 0x1b, 0x6e, 0x5a, 0xa0, 0x52, 0x3b, 0xd6, 0xb3, 0x29, 0xe3, 0x2f, 0x84],
   [0x53, 0xd1, 0x00, 0xed, 0x20, 0xfc, 0xb1, 0x5b, 0x6a, 0xcb, 0xbe, 0x39, 0x4a, 0x4c, 0x58, 0xcf],
   [0xd0, 0xef, 0xaa, 0xfb, 0x43, 0x4d, 0x33, 0x85, 0x45, 0xf9, 0x02, 0x7f, 0x50, 0x3c, 0x9f, 0xa8],
   [0x51, 0xa3, 0x40, 0x8f, 0x92, 0x9d, 0x38, 0xf5, 0xbc, 0xb6, 0xda, 0x21, 0x10, 0xff, 0xf3, 0xd2]] ++
  [[0xcd, 0x0c, 0x13, 0xec, 0x5f, 0x97, 0x44, 0x17, 0xc4, 0xa7, 0x7e, 0x3d, 0x64, 0x5d, 0x19, 0x73],
   [0x60, 0x81, 0x4f, 0xdc, 0x22, 0x2a, 0x90, 0x88, 0x46, 0xee, 0xb8, 0x14, 0xde, 0x5e, 0x0b, 0xdb],
   [0xe0, 0x32, 0x3a, 0x0a, 0x49, 0x06, 0x24, 0x5c, 0xc2, 0xd3, 0xac, 0x62, 0x91, 0x95, 0xe4, 0x79],
   [0xe7, 0xc8, 0x37, 0x6d, 0x8d, 0xd5, 0x4e, 0xa9, 0x6c, 0x56, 0xf4, 0xea, 0x65, 0x7a, 0xae, 0x08]] ++
  [[0xba, 0x78, 0x25, 0x2e, 0x1c, 0xa6, 0xb4, 0xc6, 0xe8, 0xdd, 0x74, 0x1f, 0x4b, 0xbd, 0x8b, 0x8a],
   [0x70, 0x3e, 0xb5, 0x66, 0x48, 0x03, 0xf6, 0x0e, 0x61, 0x35, 0x57, 0xb9, 0x86, 0xc1, 0x1d, 0x9e],
   [0xe1, 0xf8, 0x98, 0x11, 0x69, 0xd9, 0x8e, 0x94, 0x9b, 0x1e, 0x87, 0xe9, 0xce, 0x55, 0x28, 0xdf],
   [0x8c, 0xa1, 0x89, 0x0d, 0xbf, 0xe6, 0x42, 0x68, 0x41, 0x99, 0x2d, 0x0f, 0xb0, 0x54, 0xbb, 0x16]]

/-- `S(a)`: row the high nibble of `a`, column the low nibble (R154). -/
def sbox (a : Byte) : Byte := (sboxTable.getD (a.toNat / 16) []).getD (a.toNat % 16) 0

/-- The affine map of R153, step 2. -/
def sboxAffine (b : Byte) : Byte :=
  b ^^^ b.rotateLeft 1 ^^^ b.rotateLeft 2 ^^^ b.rotateLeft 3 ^^^ b.rotateLeft 4 ^^^ 0x63

/-! ## Key expansion (R155 to R160) -/

/-- The round constants of R155. -/
def rconTable : Bytes := [0x00, 0x01, 0x02, 0x04, 0x08, 0x10, 0x20, 0x40, 0x80, 0x1B, 0x36]

/-- `Rcon[j]`; only `j = 1 .. 10` is read (R160). -/
def rcon (j : Nat) : Byte := rconTable.getD j 0

/-- `rounds`, undefined for every other key length (R156). -/
def rounds : Nat → Option Nat
  | 16 => some 10
  | 24 => some 12
  | 32 => some 14
  | _ => none

/-- RotWord (R157). -/
def rotWord (w : Bytes) : Bytes := w.drop 1 ++ w.take 1

/-- SubWord (R157). -/
def subWord (w : Bytes) : Bytes := w.map sbox

/-- One word of the expansion: `w[i]` from `w[0 .. i-1]` (R158). -/
def expandWord (nk i : Nat) (w : List Bytes) : Bytes :=
  let t := w.getD (i - 1) []
  let t :=
    if i % nk = 0 then xorBytes (subWord (rotWord t)) [rcon (i / nk), 0, 0, 0]
    else if nk = 8 ∧ i % nk = 4 then subWord t
    else t
  xorBytes (w.getD (i - nk) []) t

/-- The words `w[0 .. n-1]` extended by `count` more (R158). -/
def expandWords (nk : Nat) : Nat → List Bytes → List Bytes
  | 0, w => w
  | count + 1, w => expandWords nk count (w ++ [expandWord nk w.length w])

/-- `expandKey(key)`: the `4*(Nr+1)` words (R158); nothing for a length `rounds` is undefined at. -/
def expandKey (key : Bytes) : List Bytes :=
  match rounds key.length with
  | none => []
  | some nr => expandWords (key.length / 4) (4 * (nr + 1) - key.length / 4) (chunks 4 key)

/-- Four words at a time, joined: round key `j` is `w[4j] ‖ w[4j+1] ‖ w[4j+2] ‖ w[4j+3]` (R159). -/
def joinFours : List Bytes → List Bytes
  | a :: b :: c :: d :: rest => (a ++ b ++ c ++ d) :: joinFours rest
  | _ => []

/-- `roundKeys(key)` (R159). -/
def roundKeys (key : Bytes) : List Bytes := joinFours (expandKey key)

/-! ## The cipher (R200 to R205): the state is the 16-byte string `st` with `st[r + 4c] = s[r][c]` -/

/-- SubBytes (R201). -/
def subBytes (st : Bytes) : Bytes := st.map sbox

/-- ShiftRows: `ShiftRows(st)[r + 4c] = st[r + 4((c + r) mod 4)]` (R202). -/
def shiftRows (st : Bytes) : Bytes :=
  (List.range 16).map (fun k => st.getD (k % 4 + 4 * ((k / 4 + k % 4) % 4)) 0)

/-- MixColumns of one column (R203). -/
def mixColumn (a0 a1 a2 a3 : Byte) : Bytes :=
  [gmul 2 a0 ^^^ gmul 3 a1 ^^^ a2 ^^^ a3,
   a0 ^^^ gmul 2 a1 ^^^ gmul 3 a2 ^^^ a3,
   a0 ^^^ a1 ^^^ gmul 2 a2 ^^^ gmul 3 a3,
   gmul 3 a0 ^^^ a1 ^^^ a2 ^^^ gmul 2 a3]

/-- MixColumns: column by column (R203). -/
def mixColumns : Bytes → Bytes
  | a0 :: a1 :: a2 :: a3 :: rest => mixColumn a0 a1 a2 a3 ++ mixColumns rest
  | _ => []

/-- AddRoundKey (R204). -/
def addRoundKey (st k : Bytes) : Bytes := xorBytes st k

/-- Rounds `r .. r+count-1` of the cipher's main loop (R205). -/
def cipherRounds (rk : List Bytes) : Nat → Nat → Bytes → Bytes
  | _, 0, st => st
  | r, count + 1, st =>
    cipherRounds rk (r + 1) count (addRoundKey (mixColumns (shiftRows (subBytes st))) (rk.getD r []))

/-- `encryptBlock(blk, rk, Nr)` (R205). Every command that calls it has checked `Nr` and read `Nr + 1` round keys. -/
def encryptBlock (blk : Bytes) (rk : List Bytes) (nr : Nat) : Bytes :=
  addRoundKey (shiftRows (subBytes (cipherRounds rk 1 (nr - 1) (addRoundKey blk (rk.getD 0 []))))) (rk.getD nr [])

/-! ## Commands -/

/-- AES_EXPAND NR=n (R161). -/
def execAesExpand (nrf : Nat) (s : State) : Host.Outcome State Fault Refusal :=
  runCommand (.aesExpand nrf)
    [keylenCheck [16, 24, 32] s, (rounds s.klen.toNat != some nrf, .rounds)]
    (reading s.keyOperand fun key =>
      .next (finish 0 false
        { s.bufWrite .rk 0 (roundKeys key).flatten with nr := BitVec.ofNat 32 nrf, rkv := true }))
    s

/-- AES_ENC_BLOCK NR=n (R206). -/
def execAesEncBlock (nrf : Nat) (s : State) : Host.Outcome State Fault Refusal :=
  runCommand (.aesEncBlock nrf)
    [roundsLegalCheck nrf, rkvCheck s, roundsMatchCheck nrf s, dinlenExactCheck 16 s]
    (reading (s.roundKeysOperand nrf) fun keys =>
      reading s.dinOperand fun blk => .next (finishWith (encryptBlock blk keys nrf) false s))
    s

end Sys2Proof.Machine
end

