-- ==== Sys2Proof/Machine/Gcm.lean ====
section
/-! DEFINITION. GF(2^128), GHASH, the GCM counter and tag, GCM_ENC and GCM_DEC (42_gcm R250 to R260). -/
namespace Sys2Proof.Machine

/-- A 16-byte block as a field element: its big-endian number (00_scope R15, R250). -/
def blockNum (b : Bytes) : BitVec 128 := BitVec.ofNat 128 (be b)

/-- The loop of R251 with the block bits `128 - c .. 127` left: block bit `i` is bit `127 - i` of `x`. -/
def gf128Loop (x : BitVec 128) : Nat → BitVec 128 → BitVec 128 → BitVec 128
  | 0, z, _ => z
  | c + 1, z, v =>
    gf128Loop x c (if x.getLsbD c then z ^^^ v else z)
      (if v.getLsbD 0 then (v >>> 1) ^^^ (0xE1#128 <<< 120) else v >>> 1)

/-- Multiplication in GF(2^128) (R251). -/
def gf128mul (x y : BitVec 128) : BitVec 128 := gf128Loop x 128 0 y

/-- `GHASH(H, S)` (R252). -/
def ghash (h s : Bytes) : Bytes :=
  toBE 16 ((chunks 16 s).foldl (fun y b => gf128mul (y ^^^ blockNum b) (blockNum h)) 0).toNat

/-- `H` (R253). -/
def gcmH (rk : List Bytes) (nr : Nat) : Bytes := encryptBlock (zeros 16) rk nr

/-- `J0 = IV ‖ 00 00 00 01` (R253). -/
def gcmJ0 (iv : Bytes) : Bytes := iv ++ [0, 0, 0, 1]

/-- `inc32`: the last four bytes, big-endian, mod 2^32 (R254). -/
def inc32 (cb : Bytes) : Bytes := slice cb 0 12 ++ toBE 4 ((be (slice cb 12 16) + 1) % 2 ^ 32)

/-- The loop of R255: `cb` is the counter block before the next piece's increment. -/
def gctrLoop (rk : List Bytes) (nr : Nat) : Bytes → List Bytes → Bytes
  | _, [] => []
  | cb, d :: rest => xorBytes d (encryptBlock (inc32 cb) rk nr) ++ gctrLoop rk nr (inc32 cb) rest

/-- `gctr(rk, Nr, J0, D)` (R255). -/
def gctr (rk : List Bytes) (nr : Nat) (j0 d : Bytes) : Bytes := gctrLoop rk nr j0 (chunks 16 d)

/-- The authenticated string `S` (R256): lengths in bits, 64-bit big-endian. -/
def gcmString (a c : Bytes) : Bytes :=
  pad16 a ++ pad16 c ++ toBE 8 (8 * a.length) ++ toBE 8 (8 * c.length)

/-- `gcmTag` (R257). -/
def gcmTag (rk : List Bytes) (nr : Nat) (iv a c : Bytes) : Bytes :=
  xorBytes (ghash (gcmH rk nr) (gcmString a c)) (encryptBlock (gcmJ0 iv) rk nr)

/-- `gcmSeal` (R257): ciphertext and tag. -/
def gcmSeal (rk : List Bytes) (nr : Nat) (iv a p : Bytes) : Bytes × Bytes :=
  let c := gctr rk nr (gcmJ0 iv) p
  (c, gcmTag rk nr iv a c)

/-- `tagEqual(a, b)` under the parameter TAG_COMPARE (R258). -/
def tagEqual (mode : TagCompare) (a b : Bytes) : Bool :=
  match mode with
  | .exact => orFold (xorBytes a b) == 0
  | .xorFold => xorFold (xorBytes a b) == 0

/-- `gcmOpen` (R257): the plaintext, or none on AuthFailure; the tag is compared before anything is decrypted. -/
def gcmOpen (mode : TagCompare) (rk : List Bytes) (nr : Nat) (iv a c t : Bytes) : Option Bytes :=
  if tagEqual mode (gcmTag rk nr iv a c) t then some (gctr rk nr (gcmJ0 iv) c) else none

/-! ## Commands -/

/-- The checks both GCM commands make before DATALEN, in order (R259, R260). -/
def gcmChecks (nrf : Nat) (s : State) : List (Bool × Reason) :=
  [roundsLegalCheck nrf, rkvCheck s, roundsMatchCheck nrf s, ivlenCheck 12 s, aadlenCheck s]

/-- GCM_ENC NR=n (R259). -/
def execGcmEnc (nrf : Nat) (s : State) : Host.Outcome State Fault Refusal :=
  runCommand (.gcmEnc nrf) (gcmChecks nrf s ++ [dinlenMaxCheck 0 s])
    (reading (s.roundKeysOperand nrf) fun keys =>
      reading s.ivOperand fun iv =>
        reading s.aadOperand fun a =>
          reading s.dinOperand fun p =>
            let ct := gcmSeal keys nrf iv a p
            .next (finishWith (ct.1 ++ ct.2) false s))
    s

/-- GCM_DEC NR=n (R260). -/
def execGcmDec (nrf : Nat) (s : State) : Host.Outcome State Fault Refusal :=
  runCommand (.gcmDec nrf) (gcmChecks nrf s ++ [dinlenTaggedCheck s])
    (reading (s.roundKeysOperand nrf) fun keys =>
      reading s.ivOperand fun iv =>
        reading s.aadOperand fun a =>
          reading s.dinOperand fun d =>
            match gcmOpen s.params.tagCompare keys nrf iv a (d.take (d.length - 16)) (d.drop (d.length - 16)) with
            | none => .next (raise (encode (.gcmDec nrf)) .tag s)
            | some p => .next (finishWith p false s))
    s

end Sys2Proof.Machine
end

