-- ==== Sys2Proof/Machine/Chacha20.lean ====
section
/-! DEFINITION. ChaCha20: quarter round, block function, keystream, CHACHA20_BLOCK and CHACHA20_XOR
(43_chacha20 R300 to R307). -/
namespace Sys2Proof.Machine

/-- The quarter round (R301). -/
def quarterRound (a b c d : Word) : Word × Word × Word × Word :=
  let a := a + b
  let d := (d ^^^ a).rotateLeft 16
  let c := c + d
  let b := (b ^^^ c).rotateLeft 12
  let a := a + b
  let d := (d ^^^ a).rotateLeft 8
  let c := c + d
  let b := (b ^^^ c).rotateLeft 7
  (a, b, c, d)

/-- "QR on (x[i], x[j], x[k], x[l])" (R303). -/
def qrOn (i j k l : Nat) (x : List Word) : List Word :=
  match quarterRound (x.getD i 0) (x.getD j 0) (x.getD k 0) (x.getD l 0) with
  | (a, b, c, d) => (((x.set i a).set j b).set k c).set l d

/-- A column round followed by a diagonal round (R303). -/
def doubleRound (x : List Word) : List Word :=
  let x := qrOn 0 4 8 12 x
  let x := qrOn 1 5 9 13 x
  let x := qrOn 2 6 10 14 x
  let x := qrOn 3 7 11 15 x
  let x := qrOn 0 5 10 15 x
  let x := qrOn 1 6 11 12 x
  let x := qrOn 2 7 8 13 x
  qrOn 3 4 9 14 x

/-- `doubleRound`, `n` times. -/
def doubleRounds : Nat → List Word → List Word
  | 0, x => x
  | n + 1, x => doubleRounds n (doubleRound x)

/-- "expand 32-byte k" as four little-endian words (R302, 90_conflicts C2). -/
def chachaConstants : List Word := [0x61707865, 0x3320646e, 0x79622d32, 0x6b206574]

/-- The words of a byte string, each four bytes little-endian (R302). -/
def leWords (b : Bytes) : List Word := (chunks 4 b).map (fun w => BitVec.ofNat 32 (le w))

/-- The initial state: constants, key, counter, nonce (R302). -/
def chachaInit (k : Bytes) (n : Word) (nonce : Bytes) : List Word :=
  chachaConstants ++ leWords k ++ [n] ++ leWords nonce

/-- `chachaBlock(K, n, N)` (R304). -/
def chachaBlock (k : Bytes) (n : Word) (nonce : Bytes) : Bytes :=
  let x0 := chachaInit k n nonce
  (List.zipWith (· + ·) (doubleRounds 10 x0) x0).flatMap (fun w => toLE 4 w.toNat)

/-- The loop of R305: `n` is the counter of the next piece, mod 2^32. -/
def chachaXorLoop (k nonce : Bytes) : Word → List Bytes → Bytes
  | _, [] => []
  | n, d :: rest => xorBytes d (chachaBlock k n nonce) ++ chachaXorLoop k nonce (n + 1) rest

/-- `chachaXor(K, n0, N, D)` (R305). -/
def chachaXor (k : Bytes) (n0 : Word) (nonce d : Bytes) : Bytes := chachaXorLoop k nonce n0 (chunks 64 d)

/-! ## Commands -/

/-- CHACHA20_BLOCK (R306). -/
def execChacha20Block (s : State) : Host.Outcome State Fault Refusal :=
  runCommand .chacha20Block [keylenCheck [32] s, ivlenCheck 12 s]
    (reading s.keyOperand fun k =>
      reading s.ivOperand fun n => .next (finishWith (chachaBlock k s.ctr n) false s))
    s

/-- CHACHA20_XOR (R307). -/
def execChacha20Xor (s : State) : Host.Outcome State Fault Refusal :=
  runCommand .chacha20Xor [keylenCheck [32] s, ivlenCheck 12 s, dinlenMaxCheck 0 s]
    (reading s.keyOperand fun k =>
      reading s.ivOperand fun n =>
        reading s.dinOperand fun d => .next (finishWith (chachaXor k s.ctr n d) false s))
    s

end Sys2Proof.Machine
end

