-- ==== Sys2Proof/Machine/Poly1305.lean ====
section
/-! DEFINITION. Poly1305 and the ChaCha20-Poly1305 AEAD: POLY1305_MAC, C20P_ENC, C20P_DEC (44_poly1305_aead R350 to R358). -/
namespace Sys2Proof.Machine

/-- `r`, clamped (R350). -/
def polyR (otk : Bytes) : Nat := le (slice otk 0 16) &&& 0x0ffffffc0ffffffc0ffffffc0fffffff

/-- `s` (R350). -/
def polyS (otk : Bytes) : Nat := le (slice otk 16 32)

/-- `p = 2^130 - 5` (R352). -/
def polyP : Nat := 2 ^ 130 - 5

/-- The number of a message piece, its marker byte above it (R351). -/
def polyBlock (m : Bytes) : Nat := le (m ++ [1])

/-- `poly1305(OTK, M)` (R352). -/
def poly1305 (otk m : Bytes) : Bytes :=
  let acc := (chunks 16 m).foldl (fun acc piece => (acc + polyBlock piece) * polyR otk % polyP) 0
  toLE 16 ((acc + polyS otk) % 2 ^ 128)

/-- `OTK(K, N)` (R353). -/
def oneTimeKey (k nonce : Bytes) : Bytes := slice (chachaBlock k 0 nonce) 0 32

/-- `aeadMacData(A, C)`: lengths in bytes, 64-bit little-endian (R354). -/
def aeadMacData (a c : Bytes) : Bytes := pad16 a ++ pad16 c ++ toLE 8 a.length ++ toLE 8 c.length

/-- The AEAD's tag (R354, R355). -/
def aeadTag (k nonce a c : Bytes) : Bytes := poly1305 (oneTimeKey k nonce) (aeadMacData a c)

/-- `aeadSeal` (R354). -/
def aeadSeal (k nonce a p : Bytes) : Bytes × Bytes :=
  let c := chachaXor k 1 nonce p
  (c, aeadTag k nonce a c)

/-- `aeadOpen` (R355): exact comparison, whatever TAG_COMPARE is. -/
def aeadOpen (k nonce a c t : Bytes) : Option Bytes :=
  if orFold (xorBytes (aeadTag k nonce a c) t) = 0 then some (chachaXor k 1 nonce c) else none

/-! ## Commands -/

/-- POLY1305_MAC (R356). -/
def execPoly1305Mac (s : State) : Host.Outcome State Fault Refusal :=
  runCommand .poly1305Mac [keylenCheck [32] s, dinlenMaxCheck 0 s]
    (reading s.keyOperand fun otk =>
      reading s.dinOperand fun m => .next (finishWith (poly1305 otk m) false s))
    s

/-- The checks both AEAD commands make before DATALEN, in order (R357, R358). -/
def aeadChecks (s : State) : List (Bool × Reason) := [keylenCheck [32] s, ivlenCheck 12 s, aadlenCheck s]

/-- C20P_ENC (R357). -/
def execC20pEnc (s : State) : Host.Outcome State Fault Refusal :=
  runCommand .c20pEnc (aeadChecks s ++ [dinlenMaxCheck 0 s])
    (reading s.keyOperand fun k =>
      reading s.ivOperand fun n =>
        reading s.aadOperand fun a =>
          reading s.dinOperand fun p =>
            let ct := aeadSeal k n a p
            .next (finishWith (ct.1 ++ ct.2) false s))
    s

/-- C20P_DEC (R358). The pseudocode reads DIN first. -/
def execC20pDec (s : State) : Host.Outcome State Fault Refusal :=
  runCommand .c20pDec (aeadChecks s ++ [dinlenTaggedCheck s])
    (reading s.dinOperand fun d =>
      reading s.keyOperand fun k =>
        reading s.ivOperand fun n =>
          reading s.aadOperand fun a =>
            match aeadOpen k n a (d.take (d.length - 16)) (d.drop (d.length - 16)) with
            | none => .next (raise (encode .c20pDec) .tag s)
            | some p => .next (finishWith p false s))
    s

end Sys2Proof.Machine
end

