-- ==== Sys2Proof/Machine/Dispatch.lean ====
section
/-! DEFINITION. One arm per command (30_encoding R113, R114). -/
namespace Sys2Proof.Machine

/-- The effect of command `i`, CMD already written (30_encoding R114). -/
def exec (i : Instr) (s : State) : Host.Outcome State Fault Refusal :=
  match i with
  | .nop => Sys2Proof.Machine.execNop s
  | .aesExpand nrf => Sys2Proof.Machine.execAesExpand nrf s
  | .aesEncBlock nrf => Sys2Proof.Machine.execAesEncBlock nrf s
  | .gcmEnc nrf => Sys2Proof.Machine.execGcmEnc nrf s
  | .gcmDec nrf => Sys2Proof.Machine.execGcmDec nrf s
  | .chacha20Block => Sys2Proof.Machine.execChacha20Block s
  | .chacha20Xor => Sys2Proof.Machine.execChacha20Xor s
  | .poly1305Mac => Sys2Proof.Machine.execPoly1305Mac s
  | .c20pEnc => Sys2Proof.Machine.execC20pEnc s
  | .c20pDec => Sys2Proof.Machine.execC20pDec s
  | .desEnc => Sys2Proof.Machine.execDesEnc s
  | .desDec => Sys2Proof.Machine.execDesDec s
  | .tdesEnc => Sys2Proof.Machine.execTdesEnc s
  | .tdesDec => Sys2Proof.Machine.execTdesDec s
  | .tdesCbcEnc => Sys2Proof.Machine.execTdesCbcEnc s
  | .tdesCbcDec => Sys2Proof.Machine.execTdesCbcDec s
  | .pkcs5Pad => Sys2Proof.Machine.execPkcs5Pad s
  | .pkcs5Unpad => Sys2Proof.Machine.execPkcs5Unpad s
  | .genKey alg => Sys2Proof.Machine.execGenKey alg s
  | .genNonce alg => Sys2Proof.Machine.execGenNonce alg s

end Sys2Proof.Machine
end

