-- ==== Sys2Proof/Machine/Port.lean ====
section
/-! DEFINITION. The host port: what each host event does (20_memory R80 to R88; 10_state R32, R48; 70_reset R580), and running
the command word written to CMD (30_encoding R114). -/
namespace Sys2Proof.Machine

/-- `execute(v)` (R114): the two decoding errors, or the command. CMD holds `v` already. -/
def executeWord (v : Word) (s : State) : Host.Outcome State Fault Refusal :=
  match decode v with
  | .error .opcode => .next (raise v .opcode s)
  | .error .field => .next (raise v .field s)
  | .ok i => exec i s

/-- The register a `width`-bit access at `off` reaches: 32 bits, one of the ten offsets (all multiples of 4, R88); else
the access is refused (R80). -/
def registerAt (width off : Nat) : Option Reg := if width = 32 then Reg.ofOffset off else none

/-- The buffer a `width`-bit access to `(id, off)` reaches: one byte, an id of 0 to 5, an offset below the capacity; else
the access is refused (R83, R87). -/
def bufferAt (p : Params) (width id off : Nat) : Option BufId :=
  match BufId.ofId id with
  | none => none
  | some b => if width = 8 ∧ off < b.capacity p then some b else none

/-- `RegWrite(off, v)` (R80, R86): the store, and for CMD the whole command, in one step. -/
def regWrite (width off : Nat) (v : Word) (s : State) : Host.Outcome State Fault Refusal :=
  match registerAt width off with
  | none => .refused (.registerAccess width off)
  | some .cmd => executeWord v (s.writeReg .cmd v)
  | some r => .next (s.writeReg r v)

/-- `RegRead(off)` (R80, R49). -/
def regRead (width off : Nat) (s : State) : Host.Outcome State Fault Refusal :=
  match registerAt width off with
  | none => .refused (.registerAccess width off)
  | some r => .next { s with observed := s.observed ++ [.word (s.readReg r)] }

/-- `BufHostWrite(B, i, v)`: no effect on RK (R82). -/
def bufHostWrite (width id off : Nat) (v : Byte) (s : State) : Host.Outcome State Fault Refusal :=
  match bufferAt s.params width id off with
  | none => .refused (.bufferAccess width id off)
  | some .rk => .next s
  | some b => .next (s.bufWrite b off [v])

/-- `BufHostRead(B, i)` (R84). -/
def bufHostRead (width id off : Nat) (s : State) : Host.Outcome State Fault Refusal :=
  match bufferAt s.params width id off with
  | none => .refused (.bufferAccess width id off)
  | some b =>
    match (s.buf b).read off with
    | none => .fault (.unwrittenRead b off)
    | some v => .next { s with observed := s.observed ++ [.byte v] }

/-- What one host event does (R91). -/
def perform (e : HostEvent) (s : State) : Host.Outcome State Fault Refusal :=
  match e with
  | .regWrite width off v => regWrite width off v s
  | .regRead width off => regRead width off s
  | .bufWrite width id off v => bufHostWrite width id off v s
  | .bufRead width id off => bufHostRead width id off s
  | .reset => .next s.resetCore

/-- The next event, if there is one; the core starts nothing by itself and holds its state (10_state R45, 60_exceptions
R549; log entry 4). -/
def nextEvent (s : State) : Host.Outcome State Fault Refusal :=
  match s.pending with
  | [] => .next s
  | e :: rest => perform e { s with pending := rest }

end Sys2Proof.Machine
end

