-- ==== Sys2Proof/Machine/Step.lean ====
section
/-! DEFINITION. One step of the machine: one host event (20_memory R86, R91). -/
namespace Sys2Proof.Machine

/-- One step: the next host event, a command wholly inside its CMD write (R86). -/
def step (s : State) : Host.Outcome State Fault Refusal := nextEvent s

/-- The state in which the very next event is the host's write of the word `w` to CMD (10_state R32; log entry 4): the
core fetches nothing (20_memory R94), so this stands for the host issuing the command. -/
def State.withFetchWord (s : State) (nbits w : Nat) : State :=
  { s with pending := .regWrite 32 0x00 (BitVec.ofNat 32 (w % 2 ^ nbits)) :: s.pending }

end Sys2Proof.Machine
end

