-- ==== Sys2Proof/Machine/HostProgram.lean ====
section
/-! DEFINITION. Host-program syntax as the host events it stands for (30_encoding R117 to R119). -/
namespace Sys2Proof.Machine

/-- `WRREG <reg>, <v>` (R117). -/
def wrreg (r : Reg) (v : Word) : HostEvent := .regWrite 32 r.offset v

/-- `RDREG <reg>` (R117). -/
def rdreg (r : Reg) : HostEvent := .regRead 32 r.offset

/-- `WRBUF <buf>, <off>, <hex>`: one byte write each, in ascending order (R117, 20_memory R81). -/
def wrbuf (b : BufId) : Nat → Bytes → List HostEvent
  | _, [] => []
  | off, x :: rest => .bufWrite 8 b.id off x :: wrbuf b (off + 1) rest

/-- `RDBUF <buf>, <off>, <n>` (R117). -/
def rdbuf (b : BufId) : Nat → Nat → List HostEvent
  | _, 0 => []
  | off, n + 1 => .bufRead 8 b.id off :: rdbuf b (off + 1) n

/-- `<MNEMONIC> [NR=<n>] [ALG=<a>]`: the command's word written to CMD (R117, R118). -/
def issue (i : Instr) : HostEvent := wrreg .cmd (encode i)

/-- `RAW <v>` (R118). -/
def raw (v : Word) : HostEvent := wrreg .cmd v

/-- A `SET*` pseudo-instruction: the bytes, then the length register (R119). DESIGN CHOICE (log entry 15): the rule does not
say what `WRREG`, which takes 32 bits, is given for 2^32 bytes or more (DIN can hold that many when
`2^32 - 16 <= DATA_MAX`); here the length mod 2^32. -/
def setOperand (b : BufId) (r : Reg) (hex : Bytes) : List HostEvent :=
  wrbuf b 0 hex ++ [wrreg r (BitVec.ofNat 32 hex.length)]

/-- `SETKEY <hex>` (R119). -/
def setKey (hex : Bytes) : List HostEvent := setOperand .key .klen hex
/-- `SETIV <hex>` (R119). -/
def setIv (hex : Bytes) : List HostEvent := setOperand .iv .ivlen hex
/-- `SETAAD <hex>` (R119). -/
def setAad (hex : Bytes) : List HostEvent := setOperand .aad .aadlen hex
/-- `SETDIN <hex>` (R119). -/
def setDin (hex : Bytes) : List HostEvent := setOperand .din .dinlen hex
/-- `GETOUT`: DOUTLEN, then that many bytes of DOUT; `n` is the value the first read returned (R119). -/
def getOut (n : Nat) : List HostEvent := rdreg .doutlen :: rdbuf .dout 0 n
/-- `GETSTATUS` (R119). -/
def getStatus : List HostEvent := [rdreg .status, rdreg .errinfo]

end Sys2Proof.Machine
end

