-- ==== Sys2Proof/Safety.lean ====
section
/-! DEFINITION. The terms claims use: what a buffer holds, what a command reads, and the invariants of a run. -/
namespace Sys2Proof.Machine

/-! ## What buffers hold -/

/-- Cells `0 .. len(bytes)-1` of buffer `b` hold `bytes`. -/
abbrev State.holds (s : State) (b : BufId) (bytes : Bytes) : Prop :=
  ∀ i < bytes.length, (s.buf b).read i = bytes[i]?

/-- The round-key store holds `keys`, `nr + 1` keys of 16 bytes (10_state R44). -/
abbrev State.holdsKeys (s : State) (nr : Nat) (keys : List Bytes) : Prop :=
  keys.length = nr + 1 ∧ (∀ k ∈ keys, k.length = 16) ∧ s.holds .rk keys.flatten

/-- Cells `0 .. n-1` of buffer `b` all hold a value. -/
abbrev State.written (s : State) (b : BufId) (n : Nat) : Prop := ∀ i < n, (s.buf b).read i ≠ none

/-! ## What a command reads and where it may write (20_memory R89, 30_encoding R112) -/

/-- The cells a command reads once its checks have passed: buffers, each from cell 0, and how many bytes. -/
def operandCells (i : Instr) (s : State) : List (BufId × Nat) :=
  match i with
  | .nop => []
  | .aesExpand _ => [(.key, s.klen.toNat)]
  | .aesEncBlock nrf => [(.rk, 16 * (nrf + 1)), (.din, s.dinlen.toNat)]
  | .gcmEnc nrf => [(.rk, 16 * (nrf + 1)), (.iv, s.ivlen.toNat), (.aad, s.aadlen.toNat), (.din, s.dinlen.toNat)]
  | .gcmDec nrf => [(.rk, 16 * (nrf + 1)), (.iv, s.ivlen.toNat), (.aad, s.aadlen.toNat), (.din, s.dinlen.toNat)]
  | .chacha20Block => [(.key, s.klen.toNat), (.iv, s.ivlen.toNat)]
  | .chacha20Xor => [(.key, s.klen.toNat), (.iv, s.ivlen.toNat), (.din, s.dinlen.toNat)]
  | .poly1305Mac => [(.key, s.klen.toNat), (.din, s.dinlen.toNat)]
  | .c20pEnc => [(.key, s.klen.toNat), (.iv, s.ivlen.toNat), (.aad, s.aadlen.toNat), (.din, s.dinlen.toNat)]
  | .c20pDec => [(.key, s.klen.toNat), (.iv, s.ivlen.toNat), (.aad, s.aadlen.toNat), (.din, s.dinlen.toNat)]
  | .desEnc => [(.key, s.klen.toNat), (.din, s.dinlen.toNat)]
  | .desDec => [(.key, s.klen.toNat), (.din, s.dinlen.toNat)]
  | .tdesEnc => [(.key, s.klen.toNat), (.din, s.dinlen.toNat)]
  | .tdesDec => [(.key, s.klen.toNat), (.din, s.dinlen.toNat)]
  | .tdesCbcEnc => [(.key, s.klen.toNat), (.iv, s.ivlen.toNat), (.din, s.dinlen.toNat)]
  | .tdesCbcDec => [(.key, s.klen.toNat), (.iv, s.ivlen.toNat), (.din, s.dinlen.toNat)]
  | .pkcs5Pad => [(.din, s.dinlen.toNat)]
  | .pkcs5Unpad => [(.din, s.dinlen.toNat)]
  | .genKey _ => []
  | .genNonce _ => []

/-- Every cell the command reads holds a value. -/
def operandsWritten (i : Instr) (s : State) : Prop := ∀ bn ∈ operandCells i s, s.written bn.1 bn.2

/-- Every check of the instruction's rule passes: when the command goes on to read its operands (60_exceptions R535). The
conditions are those of the command's own rule, as numbers. -/
def checksPass (i : Instr) (s : State) : Prop :=
  match i with
  | .nop => True
  | .aesExpand nrf => (s.klen.toNat, nrf) ∈ [(16, 10), (24, 12), (32, 14)]
  | .aesEncBlock nrf => nrf ∈ [10, 12, 14] ∧ s.rkv = true ∧ s.nr.toNat = nrf ∧ s.dinlen.toNat = 16
  | .gcmEnc nrf => nrf ∈ [10, 12, 14] ∧ s.rkv = true ∧ s.nr.toNat = nrf ∧ s.ivlen.toNat = 12 ∧
      s.aadlen.toNat ≤ s.params.aadMax ∧ s.dinlen.toNat ≤ s.params.dataMax
  | .gcmDec nrf => nrf ∈ [10, 12, 14] ∧ s.rkv = true ∧ s.nr.toNat = nrf ∧ s.ivlen.toNat = 12 ∧
      s.aadlen.toNat ≤ s.params.aadMax ∧ 16 ≤ s.dinlen.toNat ∧ s.dinlen.toNat ≤ s.params.dataMax + 16
  | .chacha20Block => s.klen.toNat = 32 ∧ s.ivlen.toNat = 12
  | .chacha20Xor => s.klen.toNat = 32 ∧ s.ivlen.toNat = 12 ∧ s.dinlen.toNat ≤ s.params.dataMax
  | .poly1305Mac => s.klen.toNat = 32 ∧ s.dinlen.toNat ≤ s.params.dataMax
  | .c20pEnc => s.klen.toNat = 32 ∧ s.ivlen.toNat = 12 ∧ s.aadlen.toNat ≤ s.params.aadMax ∧
      s.dinlen.toNat ≤ s.params.dataMax
  | .c20pDec => s.klen.toNat = 32 ∧ s.ivlen.toNat = 12 ∧ s.aadlen.toNat ≤ s.params.aadMax ∧
      16 ≤ s.dinlen.toNat ∧ s.dinlen.toNat ≤ s.params.dataMax + 16
  | .desEnc => s.klen.toNat = 8 ∧ s.dinlen.toNat = 8
  | .desDec => s.klen.toNat = 8 ∧ s.dinlen.toNat = 8
  | .tdesEnc => s.klen.toNat ∈ [16, 24] ∧ s.dinlen.toNat = 8
  | .tdesDec => s.klen.toNat ∈ [16, 24] ∧ s.dinlen.toNat = 8
  | .tdesCbcEnc => s.klen.toNat ∈ [16, 24] ∧ s.ivlen.toNat = 8 ∧ s.dinlen.toNat ≤ s.params.dataMax
  | .tdesCbcDec => s.klen.toNat ∈ [16, 24] ∧ s.ivlen.toNat = 8 ∧ s.dinlen.toNat ≤ s.params.dataMax + 8 ∧
      s.dinlen.toNat % 8 = 0
  | .pkcs5Pad => s.dinlen.toNat ≤ s.params.dataMax
  | .pkcs5Unpad => s.dinlen.toNat ≤ s.params.dataMax + 16
  | .genKey alg => alg ∈ [1, 2, 3, 4, 5, 6]
  | .genNonce alg => alg ∈ [1, 2, 3, 4, 5, 6]

/-- An outcome with its next state, if it has one, changed by `f`. -/
def onNext (f : State → State) : Host.Outcome State Fault Refusal → Host.Outcome State Fault Refusal
  | .next s => .next (f s)
  | .fault r => .fault r
  | .refused r => .refused r

/-! ## Invariants -/

/-- The buffers are in canonical form and list no cell at or beyond the capacity (10_state R40, 20_memory R83). -/
def BuffersOk (s : State) : Prop :=
  s.params.legal ∧ ∀ b, (s.buf b).wf ∧ ∀ c ∈ s.buf b, c.1 < b.capacity s.params

/-- NR and RKV say what the store holds (10_state R43, R44). -/
def ScheduleOk (s : State) : Prop :=
  (s.rkv = false ∧ s.nr.toNat = 0) ∨
    (s.rkv = true ∧ s.nr.toNat ∈ [10, 12, 14] ∧ s.written .rk (16 * (s.nr.toNat + 1)))

/-- STATUS and ERRINFO report the last command, the word in CMD (10_state R33, R34; 60_exceptions R532 to R534). -/
def ReportOk (s : State) : Prop :=
  (s.err = .ok ∧ s.errinfo = 0 ∧
      (s.padok = true → s.cmd = encode .tdesCbcDec ∨ s.cmd = encode .pkcs5Unpad)) ∨
    (∃ r : Reason, s.err = r.errClass ∧ s.errinfo = errInfoWord s.cmd r ∧ s.padok = false ∧ s.doutlen = 0)

/-- Every byte of `DOUT[0..DOUTLEN)` holds a value (10_state R39). -/
def OutputOk (s : State) : Prop := s.written .dout s.doutlen.toNat

end Sys2Proof.Machine
end

