-- ==== Sys2Proof/Certificates/Slice0/Obligations.lean ====
section
/-! DEFINITION. The statements for the provers. Each docstring names the rule of spec/ it formalises. -/

open Sys2Proof Sys2Proof.Machine

/-! ## Encoding (30_encoding) -/

/-- R113, R114, R118: every well-formed instruction is what the decoder reads from its word. -/
def Obligations.DecodeOfEncode : Prop :=
  ∀ i : Instr, i.wf = true → decode (encode i) = .ok i

/-- R113, R114: a word the decoder accepts is the word of the instruction it gives; no bit of it is dropped. -/
def Obligations.EncodeOfDecode : Prop :=
  ∀ (v : Word) (i : Instr), decode v = .ok i → i.wf = true ∧ encode i = v

/-- R118: the word of every mnemonic, for every operand its field holds, and `RAW`. -/
def Obligations.MnemonicsAssembleToTheirWords : Prop :=
  (∀ n < 16,
    encode (.aesExpand n) = BitVec.ofNat 32 (0x01 + n * 2 ^ 12) ∧
    encode (.aesEncBlock n) = BitVec.ofNat 32 (0x02 + n * 2 ^ 12) ∧
    encode (.gcmEnc n) = BitVec.ofNat 32 (0x03 + n * 2 ^ 12) ∧
    encode (.gcmDec n) = BitVec.ofNat 32 (0x04 + n * 2 ^ 12) ∧
    encode (.genKey n) = BitVec.ofNat 32 (0x10 + n * 2 ^ 16) ∧
    encode (.genNonce n) = BitVec.ofNat 32 (0x11 + n * 2 ^ 16)) ∧
  encode .desEnc = 0x0000000A ∧ encode .desDec = 0x0000010A ∧
  encode .tdesEnc = 0x0000000B ∧ encode .tdesDec = 0x0000010B ∧
  encode .nop = 0x00 ∧ encode .chacha20Block = 0x05 ∧ encode .chacha20Xor = 0x06 ∧ encode .poly1305Mac = 0x07 ∧
  encode .c20pEnc = 0x08 ∧ encode .c20pDec = 0x09 ∧ encode .tdesCbcEnc = 0x0C ∧ encode .tdesCbcDec = 0x0D ∧
  encode .pkcs5Pad = 0x0E ∧ encode .pkcs5Unpad = 0x0F ∧
  (∀ i, issue i = .regWrite 32 0x00 (encode i)) ∧ (∀ v, raw v = .regWrite 32 0x00 v)

/-- R113 (sanity): words written out from the opcode map decode to their rows. -/
def Obligations.WordsOfTheOpcodeMapDecode : Prop :=
  decode 0x00000000 = .ok .nop ∧ decode 0x0000A001 = .ok (.aesExpand 10) ∧ decode 0x0000C002 = .ok (.aesEncBlock 12) ∧
  decode 0x0000E003 = .ok (.gcmEnc 14) ∧ decode 0x0000A004 = .ok (.gcmDec 10) ∧ decode 0x00000006 = .ok .chacha20Xor ∧
  decode 0x00000007 = .ok .poly1305Mac ∧ decode 0x00000009 = .ok .c20pDec ∧ decode 0x0000010A = .ok .desDec ∧
  decode 0x0000000B = .ok .tdesEnc ∧ decode 0x0000000D = .ok .tdesCbcDec ∧ decode 0x0000000F = .ok .pkcs5Unpad ∧
  decode 0x00030010 = .ok (.genKey 3) ∧ decode 0x00060011 = .ok (.genNonce 6)

/-- R114, R115: exactly the words the decoder turns away, and for which of the two reasons: the opcode first, then a
nonzero reserved field or a nonzero field the opcode does not use. -/
def Obligations.DecoderRejectsExactlyTheReservedWords : Prop :=
  ∀ (v : Word) (opc : Nat), opc = (v.extractLsb' 0 8).toNat →
    (decode v = .error .opcode ↔ 0x11 < opc) ∧
    (decode v = .error .field ↔ opc ≤ 0x11 ∧
      (v.extractLsb' 20 12 ≠ 0 ∨ v.extractLsb' 9 3 ≠ 0 ∨
        (v.extractLsb' 8 1 ≠ 0 ∧ opc ∉ [0x0A, 0x0B]) ∨
        (v.extractLsb' 12 4 ≠ 0 ∧ opc ∉ [0x01, 0x02, 0x03, 0x04]) ∨
        (v.extractLsb' 16 4 ≠ 0 ∧ opc ∉ [0x10, 0x11])))

/-! ## The step and the host port (20_memory, 10_state) -/

/-- R32, R86, R114: the host's write of a command word to CMD stores the word and runs the decoded command, in one step.
(That the events come from the list `pending`, the first one first, is the model's: log entry 4.) -/
def Obligations.StepRunsTheCommandWrittenToCmd : Prop :=
  ∀ (s : State) (rest : List HostEvent) (v : Word) (i : Instr),
    s.pending = .regWrite 32 0x00 v :: rest → decode v = .ok i →
      step s = exec i { s with pending := rest, cmd := v }

/-- R115, R534: a reserved opcode fails with Unsupported(OPCODE) and a nonzero unused or reserved field with
Precondition(FIELD), whatever the state; both are next states with the word stored in CMD (R32) and, of the core's state,
only the report changed besides. (That the event leaves `pending` is the model's form of a host access: log entry 4,
DESIGN CHOICE.) -/
def Obligations.StepReportsReservedWords : Prop :=
  ∀ (s : State) (rest : List HostEvent) (v : Word), s.pending = .regWrite 32 0x00 v :: rest →
    (decode v = .error .opcode →
      step s = .next { s with
        pending := rest, cmd := v, err := .unsupported, padok := false,
        errinfo := BitVec.ofNat 32 (v.toNat % 2 ^ 20 + 1 * 2 ^ 24), doutlen := 0 }) ∧
    (decode v = .error .field →
      step s = .next { s with
        pending := rest, cmd := v, err := .precondition, padok := false,
        errinfo := BitVec.ofNat 32 (v.toNat % 2 ^ 20 + 3 * 2 ^ 24), doutlen := 0 })

/-- R48: host writes to STATUS, ERRINFO, DOUTLEN and NR, and to the cells of buffer RK (R82), have no effect. (That the event
leaves `pending` is the model's form of a host access: log entry 4.) -/
def Obligations.HostWritesToReadOnlyStateHaveNoEffect : Prop :=
  ∀ (s : State) (rest : List HostEvent),
    (∀ (off : Nat) (v : Word), off ∈ [0x04, 0x08, 0x1C, 0x24] → s.pending = .regWrite 32 off v :: rest →
      step s = .next { s with pending := rest }) ∧
    (∀ (i : Nat) (x : Byte), i < 240 → s.pending = .bufWrite 8 5 i x :: rest →
      step s = .next { s with pending := rest })

/-- R35 to R38, R42, R87: KLEN, IVLEN, AADLEN, DINLEN and CTR keep every 32-bit value written, and no other state of the
core changes. CMD, the sixth writable register, keeps its value too, and runs it: `StepRunsTheCommandWrittenToCmd`,
`StepReportsReservedWords`. (That the event leaves `pending` is the model's form of a host access: log entry 4,
DESIGN CHOICE.) -/
def Obligations.WritableRegistersKeepEveryValue : Prop :=
  ∀ (s : State) (rest : List HostEvent) (v : Word),
    (s.pending = .regWrite 32 0x0C v :: rest → step s = .next { s with pending := rest, klen := v }) ∧
    (s.pending = .regWrite 32 0x10 v :: rest → step s = .next { s with pending := rest, ivlen := v }) ∧
    (s.pending = .regWrite 32 0x14 v :: rest → step s = .next { s with pending := rest, aadlen := v }) ∧
    (s.pending = .regWrite 32 0x18 v :: rest → step s = .next { s with pending := rest, dinlen := v }) ∧
    (s.pending = .regWrite 32 0x20 v :: rest → step s = .next { s with pending := rest, ctr := v })

/-- R49: a host read of one of the ten registers (at the offsets of R31) returns its held value, of STATUS the three
fields packed (ERR by its code, R531), and changes nothing (R87). (That what was read is appended to `observed` and the
event leaves `pending` is the model's form of a host access: log entry 4.) -/
def Obligations.RegisterReadsReturnTheHeldValue : Prop :=
  ∀ (s : State) (rest : List HostEvent) (off code : Nat) (w : Word),
    s.pending = .regRead 32 off :: rest →
    (s.err, code) ∈ [(.ok, 0), (.precondition, 1), (.unsupported, 2), (.auth, 3)] →
    (off, w) ∈ [(0x00, s.cmd), (0x04, BitVec.ofNat 32 (code + 16 * s.padok.toNat + 32 * s.rkv.toNat)),
      (0x08, s.errinfo), (0x0C, s.klen), (0x10, s.ivlen), (0x14, s.aadlen), (0x18, s.dinlen), (0x1C, s.doutlen),
      (0x20, s.ctr), (0x24, s.nr)] →
    step s = .next { s with pending := rest, observed := s.observed ++ [.word w] }

/-- R80, R88: a register access of another width, misaligned, or at none of the ten offsets is refused. R83: so is a host
buffer operation with an id that is not 0 to 5, or an offset at or beyond the capacity; and, R87 giving buffer accesses 8
bits, one of another width. (That the last is a refusal, and that an access wrong in two ways is refused once, the
refusal naming the access and not a reason, is the model's reading: log entry 6, DEDUCED.) -/
def Obligations.AccessesOutsideTheMapAreRefused : Prop :=
  (∀ (s : State) (rest : List HostEvent) (width off : Nat),
    (width ≠ 32 ∨ off % 4 ≠ 0 ∨ 0x24 < off) →
    (∀ v, s.pending = .regWrite width off v :: rest → step s = .refused (.registerAccess width off)) ∧
    (s.pending = .regRead width off :: rest → step s = .refused (.registerAccess width off))) ∧
  (∀ (s : State) (rest : List HostEvent) (width id off : Nat),
    (width ≠ 8 ∨ 5 < id ∨ ∃ b : BufId, b.id = id ∧ b.capacity s.params ≤ off) →
    (∀ v, s.pending = .bufWrite width id off v :: rest → step s = .refused (.bufferAccess width id off)) ∧
    (s.pending = .bufRead width id off :: rest → step s = .refused (.bufferAccess width id off)))

/-- R82: a host write to a cell of KEY, IV, AAD, DIN or DOUT sets that cell and nothing else; to RK it has no effect.
R84: a host read of a cell returns its value and has no side effect; of a cell with no value it is the model fault
`UnwrittenRead(B, i)`. (That what was read is appended to `observed` and the event leaves `pending` is the model's form of
a host access: log entry 4, DESIGN CHOICE.) -/
def Obligations.HostBufferAccessesReachOneCell : Prop :=
  ∀ (s : State) (rest : List HostEvent) (b : BufId) (i : Nat), i < b.capacity s.params →
    (∀ v, s.pending = .bufWrite 8 b.id i v :: rest → b ≠ .rk →
      ∃ t, step s = .next t ∧ (t.buf b).read i = some v ∧
        (∀ j, j ≠ i → (t.buf b).read j = (s.buf b).read j) ∧
        t = ({ s with pending := rest } : State).setBuf b (t.buf b)) ∧
    (∀ v, s.pending = .bufWrite 8 b.id i v :: rest → b = .rk → step s = .next { s with pending := rest }) ∧
    (∀ v, s.pending = .bufRead 8 b.id i :: rest → (s.buf b).read i = some v →
      step s = .next { s with pending := rest, observed := s.observed ++ [.byte v] }) ∧
    (s.pending = .bufRead 8 b.id i :: rest → (s.buf b).read i = none → step s = .fault (.unwrittenRead b i))

/-- R50: every field at its reset value, in the state after power-up and after a reset event, which runs no command;
the event leaves the entropy source alone (R580). (Parameters, coming events and past observations staying is the
model's: log entries 1 and 4.) -/
def Obligations.ResetGivesTheResetValues : Prop :=
  (∃ p e d q o, State.reset = State.mk 0 .ok false false 0 0 0 0 0 0 0 0 [] [] [] [] [] [] p e d q o) ∧
  ∀ (s : State) (rest : List HostEvent), s.pending = .reset :: rest →
    step s = .next (State.mk 0 .ok false false 0 0 0 0 0 0 0 0 [] [] [] [] [] []
      s.params s.entropy s.drawn rest s.observed)

/-! ## What every command does and leaves alone (60_exceptions, 20_memory, 70_reset) -/

/-- R534: a command word that fails, at decoding or in its command, writes ERR, PADOK, ERRINFO and DOUTLEN and nothing
else: no buffer byte, no other register, not RKV or NR, and it draws no entropy. ERRINFO is the word's low 20 bits and the
reason's code (R532), which fixes the class. -/
def Obligations.FailedCommandWritesOnlyTheReport : Prop :=
  ∀ (v : Word) (s t : State), executeWord v s = .next t → t.err ≠ .ok →
    ∃ (code : Nat) (cls : ErrClass),
      (code, cls) ∈ [(1, .unsupported), (2, .unsupported), (3, .precondition), (4, .precondition), (5, .precondition),
        (6, .precondition), (7, .precondition), (8, .precondition), (9, .precondition), (10, .auth)] ∧
      t = { s with
        err := cls, padok := false,
        errinfo := BitVec.ofNat 32 (v.toNat % 2 ^ 20 + code * 2 ^ 24), doutlen := 0 }

/-- R89, R46, R503, R504: the write set of every command. Its complement is unchanged, byte for byte: the frame of all 20
commands. Where a buffer is written it changes only in the cells named: KEY below the new KLEN, IV below the new IVLEN, RK
below the `16 * (Nr + 1)` bytes of the schedule (DOUT: `DoutKeepsOlderBytesAboveDoutlen`). -/
def Obligations.CommandsWriteOnlyTheirWriteSet : Prop :=
  ∀ (i : Instr) (s t : State), exec i s = .next t →
    (t.cmd, t.aadlen, t.dinlen, t.ctr, t.params, t.pending, t.observed) =
      (s.cmd, s.aadlen, s.dinlen, s.ctr, s.params, s.pending, s.observed) ∧
    (∀ j, t.aad.read j = s.aad.read j ∧ t.din.read j = s.din.read j) ∧
    ((∀ a, i ≠ .genKey a) → t.klen = s.klen ∧ ∀ j, t.key.read j = s.key.read j) ∧
    ((∀ a, i ≠ .genNonce a) → t.ivlen = s.ivlen ∧ ∀ j, t.iv.read j = s.iv.read j) ∧
    ((∀ a, i ≠ .genKey a ∧ i ≠ .genNonce a) → t.entropy = s.entropy ∧ t.drawn = s.drawn) ∧
    ((∀ n, i ≠ .aesExpand n) → t.nr = s.nr ∧ t.rkv = s.rkv ∧ ∀ j, t.rk.read j = s.rk.read j) ∧
    ((i = .nop ∨ (∃ n, i = .aesExpand n ∨ i = .genKey n ∨ i = .genNonce n)) → ∀ j, t.dout.read j = s.dout.read j) ∧
    (∀ j, t.klen.toNat ≤ j → t.key.read j = s.key.read j) ∧
    (∀ j, t.ivlen.toNat ≤ j → t.iv.read j = s.iv.read j) ∧
    (∀ n j, i = .aesExpand n → 16 * (n + 1) ≤ j → t.rk.read j = s.rk.read j)

/-- R584, R534: DOUT is not cleared: bytes at and above the new DOUTLEN keep their value or their want of one, and a
failed command writes none. (The premise keeps the output's length within the 32-bit DOUTLEN: log entry 3.) -/
def Obligations.DoutKeepsOlderBytesAboveDoutlen : Prop :=
  ∀ (i : Instr) (s t : State), s.dinlen.toNat + 16 < 2 ^ 32 → exec i s = .next t →
    (∀ j, t.doutlen.toNat ≤ j → t.dout.read j = s.dout.read j) ∧
    (t.err ≠ .ok → ∀ j, t.dout.read j = s.dout.read j)

/-- R535, R539, R41: a command never meets a refusal; it faults only after every check has passed, and then on an operand
byte that holds no value; and a command whose checks pass and one of whose operand bytes holds no value does fault, naming
such a byte. (Which one, if several hold none, is the model's reading, log entry 5, and not said here.) -/
def Obligations.CommandsFaultOnlyOnUnwrittenOperands : Prop :=
  ∀ (i : Instr) (s : State),
    (∀ r, exec i s ≠ .refused r) ∧
    (∀ f, exec i s = .fault f → checksPass i s ∧ ∃ bn ∈ operandCells i s, ∃ j < bn.2,
      f = .unwrittenRead bn.1 j ∧ (s.buf bn.1).read j = none) ∧
    (checksPass i s → ¬ operandsWritten i s → ∃ bn ∈ operandCells i s, ∃ j < bn.2,
      exec i s = .fault (.unwrittenRead bn.1 j) ∧ (s.buf bn.1).read j = none)

/-- R112, R41, R539: with every operand byte written each command reaches a next state, which may be its error and not its
effect (the statements about the single commands say when it is the effect), and a command that succeeds has read written
bytes only. -/
def Obligations.CommandsCompleteOnWrittenOperands : Prop :=
  ∀ (i : Instr) (s : State),
    (operandsWritten i s → ∃ t, exec i s = .next t) ∧
    (∀ t, exec i s = .next t → t.err = .ok → operandsWritten i s)

/-- R581: apart from a reset event no step clears RKV or NR or takes a value from a cell of any buffer. -/
def Obligations.OnlyResetClearsScheduleAndCells : Prop :=
  ∀ (s t : State), step s = .next t → s.pending.head? ≠ some .reset →
    (s.rkv = true → t.rkv = true) ∧ (s.nr ≠ 0 → t.nr ≠ 0) ∧
    (∀ (b : BufId) (j : Nat), (s.buf b).read j ≠ none → (t.buf b).read j ≠ none)

/-- R590, R46: no command reads DOUT, or the report of the command before it. -/
def Obligations.CommandsReadNeitherDoutNorTheReport : Prop :=
  ∀ (i : Instr) (s t : State) (m : Memory) (e : ErrClass) (p : Bool) (w n : Word), exec i s = .next t →
    ∃ t', exec i { s with dout := m, err := e, padok := p, errinfo := w, doutlen := n } = .next t' ∧
      { t' with dout := t.dout } = t ∧ ∀ j < t.doutlen.toNat, t'.dout.read j = t.dout.read j

/-- R112, R89: a command does not read an operand its rule does not name: with any other contents of that buffer and its
registers it does the same and leaves them so. KEY and KLEN: among others the AES block and GCM commands, which use the
round-key store, so that a changed key is not noticed (R583, R206, R259, R260). IV and DIN with their lengths: the
commands whose operands name neither. AAD and AADLEN: all commands but the four AEAD ones (R37). CTR: all but the two
ChaCha20 commands, the AEAD ones too (R42). The round-key store: all but the AES and GCM commands (R44, R46). The entropy
source: all but the GEN commands (R500; its form is the model's: log entry 2). DOUT and the report, which no command
reads, are `CommandsReadNeitherDoutNorTheReport`'s. -/
def Obligations.CommandsIgnoreWhatTheyDoNotName : Prop :=
  ∀ (n d : Nat) (s : State) (m : Memory) (w : Word) (b : Bool) (e : Bytes),
    (∀ i ∈ [Instr.nop, .aesEncBlock n, .gcmEnc n, .gcmDec n, .pkcs5Pad, .pkcs5Unpad, .genNonce n],
      exec i { s with key := m, klen := w } = onNext (fun t => { t with key := m, klen := w }) (exec i s)) ∧
    (∀ i ∈ [Instr.nop, .aesExpand n, .aesEncBlock n, .poly1305Mac, .desEnc, .desDec, .tdesEnc, .tdesDec, .pkcs5Pad,
        .pkcs5Unpad, .genKey n],
      exec i { s with iv := m, ivlen := w } = onNext (fun t => { t with iv := m, ivlen := w }) (exec i s)) ∧
    (∀ i : Instr, (∀ k, i ≠ .gcmEnc k ∧ i ≠ .gcmDec k) → i ≠ .c20pEnc → i ≠ .c20pDec →
      exec i { s with aad := m, aadlen := w } = onNext (fun t => { t with aad := m, aadlen := w }) (exec i s)) ∧
    (∀ i ∈ [Instr.nop, .aesExpand n, .chacha20Block, .genKey n, .genNonce n],
      exec i { s with din := m, dinlen := w } = onNext (fun t => { t with din := m, dinlen := w }) (exec i s)) ∧
    (∀ i : Instr, i ≠ .chacha20Block → i ≠ .chacha20Xor →
      exec i { s with ctr := w } = onNext (fun t => { t with ctr := w }) (exec i s)) ∧
    (∀ i : Instr, (∀ k, i ≠ .aesExpand k ∧ i ≠ .aesEncBlock k ∧ i ≠ .gcmEnc k ∧ i ≠ .gcmDec k) →
      exec i { s with rk := m, nr := w, rkv := b } = onNext (fun t => { t with rk := m, nr := w, rkv := b }) (exec i s)) ∧
    (∀ i : Instr, (∀ k, i ≠ .genKey k ∧ i ≠ .genNonce k) →
      exec i { s with entropy := e, drawn := d } = onNext (fun t => { t with entropy := e, drawn := d }) (exec i s))

/-! ## Invariants every step keeps -/

/-- R40, R41, R83: buffers stay canonical and within their capacity. -/
def Obligations.StepKeepsBuffersWithinCapacity : Prop :=
  ∀ s t : State, BuffersOk s → step s = .next t → BuffersOk t

/-- R43, R44: RKV = 1 exactly when NR is 10, 12 or 14 and the store holds NR + 1 round keys. -/
def Obligations.StepKeepsTheScheduleValid : Prop :=
  ∀ s t : State, ScheduleOk s → step s = .next t → ScheduleOk t

/-- R33, R34, R532 to R534: STATUS and ERRINFO keep reporting the command whose word CMD holds. -/
def Obligations.StepKeepsTheReportOfTheLastCommand : Prop :=
  ∀ s t : State, ReportOk s → step s = .next t → ReportOk t

/-- R39: every byte of DOUT below DOUTLEN holds a value. -/
def Obligations.StepKeepsTheOutputWritten : Prop :=
  ∀ s t : State, OutputOk s → step s = .next t → OutputOk t

/-- The four invariants hold after reset (R50). The parameters of `State.reset`, whose ranges the first one contains, are
the instance DATA_MAX = 256, AAD_MAX = 64, EXACT: log entry 1, DESIGN CHOICE. -/
def Obligations.ResetMeetsTheInvariants : Prop :=
  BuffersOk State.reset ∧ ScheduleOk State.reset ∧ ReportOk State.reset ∧ OutputOk State.reset

/-! ## The commands, one by one: errors in order, then the effect on written operands -/

/-- R502: NOP, the word 0x00000000, does the success write and nothing else, in every state; with any bit other than OPC
set the word fails as Precondition(FIELD). -/
def Obligations.NopDoesOnlyTheSuccessWrite : Prop :=
  (∀ s : State, exec .nop s = .next { s with err := .ok, padok := false, errinfo := 0, doutlen := 0 }) ∧
  decode 0x00000000 = .ok .nop ∧
  ∀ v : Word, v.extractLsb' 0 8 = 0 → v ≠ 0 → decode v = .error .field

/-- R161: AES_EXPAND. -/
def Obligations.AesExpandLoadsTheKeySchedule : Prop :=
  ∀ (nrf : Nat) (s : State),
    (s.klen.toNat ∉ [16, 24, 32] → exec (.aesExpand nrf) s = .next (raise (encode (.aesExpand nrf)) .keylen s)) ∧
    (s.klen.toNat ∈ [16, 24, 32] → (s.klen.toNat, nrf) ∉ [(16, 10), (24, 12), (32, 14)] →
      exec (.aesExpand nrf) s = .next (raise (encode (.aesExpand nrf)) .rounds s)) ∧
    (∀ key : Bytes, (s.klen.toNat, nrf) ∈ [(16, 10), (24, 12), (32, 14)] → key.length = s.klen.toNat →
      s.holds .key key →
      exec (.aesExpand nrf) s = .next { s with
        rk := s.rk.write 0 (roundKeys key).flatten, nr := BitVec.ofNat 32 nrf, rkv := true,
        err := .ok, padok := false, errinfo := 0, doutlen := 0 })

/-- R206: AES_ENC_BLOCK. -/
def Obligations.AesEncBlockEncryptsOneBlock : Prop :=
  ∀ (nrf : Nat) (s : State) (i : Instr), i = .aesEncBlock nrf →
    (nrf ∉ [10, 12, 14] → exec i s = .next (raise (encode i) .rounds s)) ∧
    (nrf ∈ [10, 12, 14] → s.rkv = false → exec i s = .next (raise (encode i) .rkinvalid s)) ∧
    (nrf ∈ [10, 12, 14] → s.rkv = true → s.nr.toNat ≠ nrf → exec i s = .next (raise (encode i) .rounds s)) ∧
    (nrf ∈ [10, 12, 14] → s.rkv = true → s.nr.toNat = nrf → s.dinlen.toNat ≠ 16 →
      exec i s = .next (raise (encode i) .datalen s)) ∧
    (∀ (keys : List Bytes) (blk : Bytes), nrf ∈ [10, 12, 14] → s.rkv = true → s.nr.toNat = nrf →
      s.dinlen.toNat = 16 → s.holdsKeys nrf keys → blk.length = 16 → s.holds .din blk →
      exec i s = .next { s with
        dout := s.dout.write 0 (encryptBlock blk keys nrf),
        err := .ok, padok := false, errinfo := 0, doutlen := 16 })

/-- R259, R260: the errors both GCM commands check before their data length, in order. -/
def Obligations.GcmCommandsCheckInOrder : Prop :=
  ∀ (nrf : Nat) (s : State), ∀ i ∈ [Instr.gcmEnc nrf, .gcmDec nrf],
    (nrf ∉ [10, 12, 14] → exec i s = .next (raise (encode i) .rounds s)) ∧
    (nrf ∈ [10, 12, 14] → s.rkv = false → exec i s = .next (raise (encode i) .rkinvalid s)) ∧
    (nrf ∈ [10, 12, 14] → s.rkv = true → s.nr.toNat ≠ nrf → exec i s = .next (raise (encode i) .rounds s)) ∧
    (nrf ∈ [10, 12, 14] → s.rkv = true → s.nr.toNat = nrf → s.ivlen.toNat ≠ 12 →
      exec i s = .next (raise (encode i) .ivlen s)) ∧
    (nrf ∈ [10, 12, 14] → s.rkv = true → s.nr.toNat = nrf → s.ivlen.toNat = 12 →
      s.params.aadMax < s.aadlen.toNat → exec i s = .next (raise (encode i) .aadlen s)) ∧
    (nrf ∈ [10, 12, 14] → s.rkv = true → s.nr.toNat = nrf → s.ivlen.toNat = 12 → s.aadlen.toNat ≤ s.params.aadMax →
      (i = .gcmEnc nrf ∧ s.params.dataMax < s.dinlen.toNat ∨
        i = .gcmDec nrf ∧ (s.dinlen.toNat < 16 ∨ s.params.dataMax + 16 < s.dinlen.toNat)) →
      exec i s = .next (raise (encode i) .datalen s))

/-- R259: GCM_ENC writes ciphertext then tag, under the hash key and pre-counter block of R253, the tag over the string of
R256 (R257). R255: byte `i` of counter mode is the data's XORed with byte `i mod 16` of the cipher of `J0` incremented
`i / 16 + 1` times. R252: GHASH is zero on the empty string, and each further block is added and multiplied by `H`.
(A DOUTLEN of 2^32 or more is the model's free value: log entry 3.) -/
def Obligations.GcmEncWritesCiphertextAndTag : Prop :=
  (∀ (nrf : Nat) (s : State) (keys : List Bytes) (iv a p h c tag : Bytes),
    nrf ∈ [10, 12, 14] → s.rkv = true → s.nr.toNat = nrf → s.ivlen.toNat = 12 →
    s.aadlen.toNat ≤ s.params.aadMax → s.dinlen.toNat ≤ s.params.dataMax →
    s.holdsKeys nrf keys → iv.length = 12 → s.holds .iv iv → a.length = s.aadlen.toNat → s.holds .aad a →
    p.length = s.dinlen.toNat → s.holds .din p →
    h = encryptBlock (zeros 16) keys nrf → c = gctr keys nrf (iv ++ [0, 0, 0, 1]) p →
    tag = xorBytes (ghash h (pad16 a ++ pad16 c ++ toBE 8 (8 * a.length) ++ toBE 8 (8 * c.length)))
      (encryptBlock (iv ++ [0, 0, 0, 1]) keys nrf) →
    exec (.gcmEnc nrf) s = .next { s with
      dout := s.dout.write 0 (c ++ tag), err := .ok, padok := false, errinfo := 0,
      doutlen := if p.length + 16 < 2 ^ 32 then BitVec.ofNat 32 (p.length + 16)
        else Config.doutlenBeyond (p.length + 16) }) ∧
  (∀ (keys : List Bytes) (nr : Nat) (j0 d : Bytes), keys.length = nr + 1 → (∀ k ∈ keys, k.length = 16) →
    (gctr keys nr j0 d).length = d.length ∧
    ∀ i < d.length, (gctr keys nr j0 d)[i]? =
      some (d.getD i 0 ^^^ (encryptBlock (inc32^[i / 16 + 1] j0) keys nr).getD (i % 16) 0)) ∧
  (∀ h : Bytes, ghash h [] = zeros 16 ∧
    ∀ u b : Bytes, u.length % 16 = 0 → b.length = 16 →
      ghash h (u ++ b) = toBE 16
        (gf128mul (BitVec.ofNat 128 (be (ghash h u)) ^^^ BitVec.ofNat 128 (be b)) (BitVec.ofNat 128 (be h))).toNat)

/-- R260, R257: GCM_DEC returns the plaintext if the received tag compares equal to the tag of the received ciphertext
(computed as for GCM_ENC: R253, R256) and fails with AuthFailure(TAG) otherwise, without writing DOUT. -/
def Obligations.GcmDecOpensOnlyUnderTheTag : Prop :=
  ∀ (nrf : Nat) (s : State) (keys : List Bytes) (iv a c t h tag : Bytes),
    nrf ∈ [10, 12, 14] → s.rkv = true → s.nr.toNat = nrf → s.ivlen.toNat = 12 →
    s.aadlen.toNat ≤ s.params.aadMax → s.dinlen.toNat ≤ s.params.dataMax + 16 →
    s.holdsKeys nrf keys → iv.length = 12 → s.holds .iv iv → a.length = s.aadlen.toNat → s.holds .aad a →
    t.length = 16 → c.length + 16 = s.dinlen.toNat → s.holds .din (c ++ t) →
    h = encryptBlock (zeros 16) keys nrf →
    tag = xorBytes (ghash h (pad16 a ++ pad16 c ++ toBE 8 (8 * a.length) ++ toBE 8 (8 * c.length)))
      (encryptBlock (iv ++ [0, 0, 0, 1]) keys nrf) →
    (tagEqual s.params.tagCompare tag t = true →
      exec (.gcmDec nrf) s = .next { s with
        dout := s.dout.write 0 (gctr keys nrf (iv ++ [0, 0, 0, 1]) c),
        err := .ok, padok := false, errinfo := 0, doutlen := BitVec.ofNat 32 c.length }) ∧
    (tagEqual s.params.tagCompare tag t = false →
      exec (.gcmDec nrf) s = .next (raise (encode (.gcmDec nrf)) .tag s))

/-- R306: CHACHA20_BLOCK; CTR is read and not advanced (R586). What the block function is: R301, the quarter round; R303,
where it acts, and the eight index sets of a double round; R302, the initial words, and R304, ten double rounds, the
initial words added back, each sum written little-endian. -/
def Obligations.Chacha20BlockWritesOneKeystreamBlock : Prop :=
  (∀ s : State,
    (s.klen.toNat ≠ 32 → exec .chacha20Block s = .next (raise (encode .chacha20Block) .keylen s)) ∧
    (s.klen.toNat = 32 → s.ivlen.toNat ≠ 12 →
      exec .chacha20Block s = .next (raise (encode .chacha20Block) .ivlen s)) ∧
    (∀ k n : Bytes, s.klen.toNat = 32 → s.ivlen.toNat = 12 → k.length = 32 → s.holds .key k → n.length = 12 →
      s.holds .iv n →
      exec .chacha20Block s = .next { s with
        dout := s.dout.write 0 (chachaBlock k s.ctr n), err := .ok, padok := false, errinfo := 0, doutlen := 64 })) ∧
  (∀ a b c d a₁ b₁ c₁ d₁ a₂ b₂ c₂ d₂ : Word,
    a₁ = a + b → d₁ = (d ^^^ a₁).rotateLeft 16 → c₁ = c + d₁ → b₁ = (b ^^^ c₁).rotateLeft 12 →
    a₂ = a₁ + b₁ → d₂ = (d₁ ^^^ a₂).rotateLeft 8 → c₂ = c₁ + d₂ → b₂ = (b₁ ^^^ c₂).rotateLeft 7 →
    quarterRound a b c d = (a₂, b₂, c₂, d₂)) ∧
  (∀ (x : List Word) (i j k l : Nat) (a b c d : Word), [i, j, k, l].Nodup → (∀ m ∈ [i, j, k, l], m < x.length) →
    quarterRound (x.getD i 0) (x.getD j 0) (x.getD k 0) (x.getD l 0) = (a, b, c, d) →
    (qrOn i j k l x)[i]? = some a ∧ (qrOn i j k l x)[j]? = some b ∧ (qrOn i j k l x)[k]? = some c ∧
      (qrOn i j k l x)[l]? = some d ∧ ∀ m, m ∉ [i, j, k, l] → (qrOn i j k l x)[m]? = x[m]?) ∧
  (∀ x : List Word, doubleRound x =
    [(0, 4, 8, 12), (1, 5, 9, 13), (2, 6, 10, 14), (3, 7, 11, 15),
      (0, 5, 10, 15), (1, 6, 11, 12), (2, 7, 8, 13), (3, 4, 9, 14)].foldl
        (fun y (i, j, k, l) => qrOn i j k l y) x) ∧
  (∀ (k nonce : Bytes) (n : Word) (x : List Word), k.length = 32 → nonce.length = 12 →
    x = [0x61707865, 0x3320646e, 0x79622d32, 0x6b206574] ++
      (List.range 8).map (fun i => BitVec.ofNat 32 (le (slice k (4 * i) (4 * i + 4)))) ++ [n] ++
      (List.range 3).map (fun i => BitVec.ofNat 32 (le (slice nonce (4 * i) (4 * i + 4)))) →
    (chachaBlock k n nonce).length = 64 ∧
    ∀ i < 16, slice (chachaBlock k n nonce) (4 * i) (4 * i + 4) =
      toLE 4 ((doubleRound^[10] x).getD i 0 + x.getD i 0).toNat)

/-- R307: CHACHA20_XOR; CTR is read and not advanced (R586). -/
def Obligations.Chacha20XorEncryptsFromCtr : Prop :=
  ∀ s : State,
    (s.klen.toNat ≠ 32 → exec .chacha20Xor s = .next (raise (encode .chacha20Xor) .keylen s)) ∧
    (s.klen.toNat = 32 → s.ivlen.toNat ≠ 12 → exec .chacha20Xor s = .next (raise (encode .chacha20Xor) .ivlen s)) ∧
    (s.klen.toNat = 32 → s.ivlen.toNat = 12 → s.params.dataMax < s.dinlen.toNat →
      exec .chacha20Xor s = .next (raise (encode .chacha20Xor) .datalen s)) ∧
    (∀ k n d : Bytes, s.klen.toNat = 32 → s.ivlen.toNat = 12 → s.dinlen.toNat ≤ s.params.dataMax → k.length = 32 →
      s.holds .key k → n.length = 12 → s.holds .iv n → d.length = s.dinlen.toNat → s.holds .din d →
      exec .chacha20Xor s = .next { s with
        dout := s.dout.write 0 (chachaXor k s.ctr n d),
        err := .ok, padok := false, errinfo := 0, doutlen := s.dinlen })

/-- R356: POLY1305_MAC; IVLEN is not checked. -/
def Obligations.Poly1305MacWritesTheTag : Prop :=
  ∀ s : State,
    (s.klen.toNat ≠ 32 → exec .poly1305Mac s = .next (raise (encode .poly1305Mac) .keylen s)) ∧
    (s.klen.toNat = 32 → s.params.dataMax < s.dinlen.toNat →
      exec .poly1305Mac s = .next (raise (encode .poly1305Mac) .datalen s)) ∧
    (∀ k m : Bytes, s.klen.toNat = 32 → s.dinlen.toNat ≤ s.params.dataMax → k.length = 32 → s.holds .key k →
      m.length = s.dinlen.toNat → s.holds .din m →
      exec .poly1305Mac s = .next { s with
        dout := s.dout.write 0 (poly1305 k m), err := .ok, padok := false, errinfo := 0, doutlen := 16 })

/-- R357, R358: the errors both AEAD commands check, in order. -/
def Obligations.AeadCommandsCheckInOrder : Prop :=
  ∀ s : State, ∀ i ∈ [Instr.c20pEnc, .c20pDec],
    (s.klen.toNat ≠ 32 → exec i s = .next (raise (encode i) .keylen s)) ∧
    (s.klen.toNat = 32 → s.ivlen.toNat ≠ 12 → exec i s = .next (raise (encode i) .ivlen s)) ∧
    (s.klen.toNat = 32 → s.ivlen.toNat = 12 → s.params.aadMax < s.aadlen.toNat →
      exec i s = .next (raise (encode i) .aadlen s)) ∧
    (s.klen.toNat = 32 → s.ivlen.toNat = 12 → s.aadlen.toNat ≤ s.params.aadMax →
      (i = .c20pEnc ∧ s.params.dataMax < s.dinlen.toNat ∨
        i = .c20pDec ∧ (s.dinlen.toNat < 16 ∨ s.params.dataMax + 16 < s.dinlen.toNat)) →
      exec i s = .next (raise (encode i) .datalen s))

/-- R357: C20P_ENC writes ciphertext then tag; the counters are 1 for the data and 0 for the one-time key (R353, R354).
(A DOUTLEN of 2^32 or more is the model's free value: log entry 3.) -/
def Obligations.C20pEncWritesCiphertextAndTag : Prop :=
  ∀ (s : State) (k n a p c : Bytes),
    s.klen.toNat = 32 → s.ivlen.toNat = 12 → s.aadlen.toNat ≤ s.params.aadMax → s.dinlen.toNat ≤ s.params.dataMax →
    k.length = 32 → s.holds .key k → n.length = 12 → s.holds .iv n → a.length = s.aadlen.toNat → s.holds .aad a →
    p.length = s.dinlen.toNat → s.holds .din p → c = chachaXor k 1 n p →
    exec .c20pEnc s = .next { s with
      dout := s.dout.write 0 (c ++ poly1305 ((chachaBlock k 0 n).take 32)
        (pad16 a ++ pad16 c ++ toLE 8 a.length ++ toLE 8 c.length)),
      err := .ok, padok := false, errinfo := 0,
      doutlen := if p.length + 16 < 2 ^ 32 then BitVec.ofNat 32 (p.length + 16)
        else Config.doutlenBeyond (p.length + 16) }

/-- R358, R355: C20P_DEC returns the plaintext exactly when the received tag is the recomputed one, and otherwise fails
with AuthFailure(TAG) without writing DOUT. -/
def Obligations.C20pDecOpensOnlyUnderTheTag : Prop :=
  ∀ (s : State) (k n a c t : Bytes),
    s.klen.toNat = 32 → s.ivlen.toNat = 12 → s.aadlen.toNat ≤ s.params.aadMax →
    s.dinlen.toNat ≤ s.params.dataMax + 16 →
    k.length = 32 → s.holds .key k → n.length = 12 → s.holds .iv n → a.length = s.aadlen.toNat → s.holds .aad a →
    t.length = 16 → c.length + 16 = s.dinlen.toNat → s.holds .din (c ++ t) →
    (t = aeadTag k n a c → exec .c20pDec s = .next { s with
      dout := s.dout.write 0 (chachaXor k 1 n c),
      err := .ok, padok := false, errinfo := 0, doutlen := BitVec.ofNat 32 c.length }) ∧
    (t ≠ aeadTag k n a c → exec .c20pDec s = .next (raise (encode .c20pDec) .tag s))

/-- R410, R411: DES_ENC and DES_DEC. What the block cipher is: R16, a table selects input bits, numbered from 1 at the most
significant; R401, the 16 subkeys, from halves rotated cumulatively; R403, the round function, S-box `i` on the `i`-th six
bits from the top; R404, the 16 rounds, the subkeys in reverse order for decryption, the halves swapped at the end. -/
def Obligations.DesCommandsProcessOneBlock : Prop :=
  (∀ (s : State) (i : Instr) (decrypt : Bool), (i, decrypt) ∈ [(Instr.desEnc, false), (.desDec, true)] →
    (s.klen.toNat ≠ 8 → exec i s = .next (raise (encode i) .keylen s)) ∧
    (s.klen.toNat = 8 → s.dinlen.toNat ≠ 8 → exec i s = .next (raise (encode i) .datalen s)) ∧
    (∀ k b : Bytes, s.klen.toNat = 8 → s.dinlen.toNat = 8 → k.length = 8 → s.holds .key k → b.length = 8 →
      s.holds .din b →
      exec i s = .next { s with
        dout := s.dout.write 0 (des k b decrypt), err := .ok, padok := false, errinfo := 0, doutlen := 8 })) ∧
  (∀ (n : Nat) (T : List Nat) (x : BitVec n), (∀ t ∈ T, 1 ≤ t ∧ t ≤ n) →
    ∀ j < T.length, (perm T.length T x).getLsbD (T.length - 1 - j) = x.getLsbD (n - T.getD j 0)) ∧
  (∀ k : Bytes, (desSubkeys k).length = 16 ∧
    ∃ C D : Nat → BitVec 28, C 0 ++ D 0 = perm 56 desPC1 (BitVec.ofNat 64 (be k)) ∧
      ∀ i < 16, C (i + 1) = (C i).rotateLeft (desShifts.getD i 0) ∧ D (i + 1) = (D i).rotateLeft (desShifts.getD i 0) ∧
        (desSubkeys k)[i]? = some (perm 48 desPC2 (C (i + 1) ++ D (i + 1)))) ∧
  (∀ (r : BitVec 32) (k : BitVec 48), ∃ y : BitVec 32, desF r k = perm 32 desP y ∧
    ∀ i < 8, ∀ b : BitVec 6, b = (perm 48 desE r ^^^ k).extractLsb' (42 - 6 * i) 6 →
      (y.extractLsb' (28 - 4 * i) 4).toNat =
        ((desS.getD i []).getD (2 * (b.toNat / 32) + b.toNat % 2) []).getD (b.toNat / 2 % 16) 0) ∧
  (∀ (k b : Bytes) (decrypt : Bool), ∃ L R : Nat → BitVec 32,
    L 0 ++ R 0 = perm 64 desIP (BitVec.ofNat 64 (be b)) ∧
    (∀ i < 16, L (i + 1) = R i ∧
      R (i + 1) = L i ^^^ desF (R i) ((desSubkeys k).getD (if decrypt then 15 - i else i) 0)) ∧
    des k b decrypt = toBE 8 (perm 64 desFP (R 16 ++ L 16)).toNat)

/-- R412, R413: TDES_ENC and TDES_DEC, with two keys or three (R405, R406). -/
def Obligations.TdesCommandsProcessOneBlock : Prop :=
  ∀ (s : State) (i : Instr) (decrypt : Bool), (i, decrypt) ∈ [(Instr.tdesEnc, false), (.tdesDec, true)] →
    (s.klen.toNat ∉ [16, 24] → exec i s = .next (raise (encode i) .keylen s)) ∧
    (s.klen.toNat ∈ [16, 24] → s.dinlen.toNat ≠ 8 → exec i s = .next (raise (encode i) .datalen s)) ∧
    (∀ k1 k2 k3 key b : Bytes, k1.length = 8 → k2.length = 8 → k3.length = 8 →
      (key = k1 ++ k2 ∧ k3 = k1 ∨ key = k1 ++ k2 ++ k3) → s.klen.toNat = key.length → s.dinlen.toNat = 8 →
      s.holds .key key → b.length = 8 → s.holds .din b →
      exec i s = .next { s with
        dout := s.dout.write 0
          (if decrypt then des k1 (des k2 (des k3 b true) false) true else des k3 (des k2 (des k1 b false) true) false),
        err := .ok, padok := false, errinfo := 0, doutlen := 8 })

/-- R456: TDES_CBC_ENC. R453: ciphertext block `j` is the cipher of plaintext block `j` XORed with the ciphertext block
before it, the IV before the first. (A DOUTLEN of 2^32 or more is the model's free value: log entry 3.) -/
def Obligations.TdesCbcEncPadsAndChains : Prop :=
  (∀ s : State,
    (s.klen.toNat ∉ [16, 24] → exec .tdesCbcEnc s = .next (raise (encode .tdesCbcEnc) .keylen s)) ∧
    (s.klen.toNat ∈ [16, 24] → s.ivlen.toNat ≠ 8 → exec .tdesCbcEnc s = .next (raise (encode .tdesCbcEnc) .ivlen s)) ∧
    (s.klen.toNat ∈ [16, 24] → s.ivlen.toNat = 8 → s.params.dataMax < s.dinlen.toNat →
      exec .tdesCbcEnc s = .next (raise (encode .tdesCbcEnc) .datalen s)) ∧
    (∀ (key iv d : Bytes) (n : Nat), s.klen.toNat ∈ [16, 24] → s.ivlen.toNat = 8 →
      s.dinlen.toNat ≤ s.params.dataMax → key.length = s.klen.toNat → s.holds .key key → iv.length = 8 →
      s.holds .iv iv → d.length = s.dinlen.toNat → s.holds .din d → n = d.length + 8 - d.length % 8 →
      exec .tdesCbcEnc s = .next { s with
        dout := s.dout.write 0 (cbcEncrypt key iv (padPkcs5 d)), err := .ok, padok := false, errinfo := 0,
        doutlen := if n < 2 ^ 32 then BitVec.ofNat 32 n else Config.doutlenBeyond n })) ∧
  (∀ key iv p c : Bytes, iv.length = 8 → p.length % 8 = 0 → c = cbcEncrypt key iv p →
    c.length = p.length ∧
    ∀ j < p.length / 8, slice c (8 * j) (8 * j + 8) =
      tdesEncrypt key (xorBytes (slice p (8 * j) (8 * j + 8)) (if j = 0 then iv else slice c (8 * j - 8) (8 * j))))

/-- R457, R455: TDES_CBC_DEC; a padding failure is no error: the unstripped bytes and PADOK = 0. R454: plaintext block `j`
is the inverse cipher of ciphertext block `j` XORed with the ciphertext block before it, the IV before the first. -/
def Obligations.TdesCbcDecChainsAndUnpads : Prop :=
  (∀ s : State,
    (s.klen.toNat ∉ [16, 24] → exec .tdesCbcDec s = .next (raise (encode .tdesCbcDec) .keylen s)) ∧
    (s.klen.toNat ∈ [16, 24] → s.ivlen.toNat ≠ 8 → exec .tdesCbcDec s = .next (raise (encode .tdesCbcDec) .ivlen s)) ∧
    (s.klen.toNat ∈ [16, 24] → s.ivlen.toNat = 8 →
      (s.params.dataMax + 8 < s.dinlen.toNat ∨ s.dinlen.toNat % 8 ≠ 0) →
      exec .tdesCbcDec s = .next (raise (encode .tdesCbcDec) .datalen s)) ∧
    (∀ key iv c : Bytes, s.klen.toNat ∈ [16, 24] → s.ivlen.toNat = 8 → s.dinlen.toNat ≤ s.params.dataMax + 8 →
      s.dinlen.toNat % 8 = 0 → key.length = s.klen.toNat → s.holds .key key → iv.length = 8 → s.holds .iv iv →
      c.length = s.dinlen.toNat → s.holds .din c →
      exec .tdesCbcDec s = .next { s with
        dout := s.dout.write 0 (unpadPkcs5 (cbcDecrypt key iv c)).1, err := .ok,
        padok := (unpadPkcs5 (cbcDecrypt key iv c)).2, errinfo := 0,
        doutlen := BitVec.ofNat 32 (unpadPkcs5 (cbcDecrypt key iv c)).1.length })) ∧
  (∀ key iv c p : Bytes, iv.length = 8 → c.length % 8 = 0 → p = cbcDecrypt key iv c →
    p.length = c.length ∧
    ∀ j < c.length / 8, slice p (8 * j) (8 * j + 8) =
      xorBytes (tdesDecrypt key (slice c (8 * j) (8 * j + 8))) (if j = 0 then iv else slice c (8 * j - 8) (8 * j)))

/-- R458: PKCS5_PAD. (A DOUTLEN of 2^32 or more is the model's free value: log entry 3.) -/
def Obligations.Pkcs5PadAppendsThePad : Prop :=
  ∀ s : State,
    (s.params.dataMax < s.dinlen.toNat → exec .pkcs5Pad s = .next (raise (encode .pkcs5Pad) .datalen s)) ∧
    (∀ (d : Bytes) (n : Nat), s.dinlen.toNat ≤ s.params.dataMax → d.length = s.dinlen.toNat → s.holds .din d →
      n = 8 - d.length % 8 →
      exec .pkcs5Pad s = .next { s with
        dout := s.dout.write 0 (d ++ List.replicate n (BitVec.ofNat 8 n)), err := .ok, padok := false, errinfo := 0,
        doutlen := if d.length + n < 2 ^ 32 then BitVec.ofNat 32 (d.length + n)
          else Config.doutlenBeyond (d.length + n) })

/-- R459, R451, R452: PKCS5_UNPAD strips `n` pad bytes that are all `n`, 1 to 8, and otherwise returns the data
unmodified with PADOK = 0. (A DOUTLEN of 2^32 or more cannot arise: the output is no longer than DINLEN.) -/
def Obligations.Pkcs5UnpadStripsOnlyValidPadding : Prop :=
  ∀ s : State,
    (s.params.dataMax + 16 < s.dinlen.toNat → exec .pkcs5Unpad s = .next (raise (encode .pkcs5Unpad) .datalen s)) ∧
    (∀ (u : Bytes) (n : Nat), s.dinlen.toNat ≤ s.params.dataMax + 16 → 1 ≤ n → n ≤ 8 →
      u.length + n = s.dinlen.toNat → s.holds .din (u ++ List.replicate n (BitVec.ofNat 8 n)) →
      exec .pkcs5Unpad s = .next { s with
        dout := s.dout.write 0 u, err := .ok, padok := true, errinfo := 0, doutlen := BitVec.ofNat 32 u.length }) ∧
    (∀ d : Bytes, s.dinlen.toNat ≤ s.params.dataMax + 16 → d.length = s.dinlen.toNat → s.holds .din d →
      (∀ (u : Bytes) (n : Nat), 1 ≤ n → n ≤ 8 → d ≠ u ++ List.replicate n (BitVec.ofNat 8 n)) →
      exec .pkcs5Unpad s = .next { s with
        dout := s.dout.write 0 d, err := .ok, padok := false, errinfo := 0, doutlen := s.dinlen })

/-- R503, R504, R501: GEN_KEY and GEN_NONCE put the drawn bytes, as many as the table says for the code, in KEY and IV
and their count in KLEN and IVLEN; the other cells keep their contents; another code fails with Unsupported(ALG).
`State.drawBytes` and `State.afterDraw` are the model's form of the draw (log entry 2); the bytes drawn are any
(clause 1 says only how many). -/
def Obligations.GenCommandsStoreTheDrawnBytes : Prop :=
  (∀ (s : State) (n : Nat), (s.drawBytes n).length = n) ∧
  (∀ (s : State) (alg n : Nat), (alg, n) ∈ [(1, 16), (2, 24), (3, 32), (4, 32), (5, 16), (6, 24)] →
    exec (.genKey alg) s = .next { s.afterDraw n with
      key := s.key.write 0 (s.drawBytes n), klen := BitVec.ofNat 32 n,
      err := .ok, padok := false, errinfo := 0, doutlen := 0 }) ∧
  (∀ (s : State) (alg n : Nat), (alg, n) ∈ [(1, 12), (2, 12), (3, 12), (4, 12), (5, 8), (6, 8)] →
    exec (.genNonce alg) s = .next { s.afterDraw n with
      iv := s.iv.write 0 (s.drawBytes n), ivlen := BitVec.ofNat 32 n,
      err := .ok, padok := false, errinfo := 0, doutlen := 0 }) ∧
  (∀ (s : State) (alg : Nat), alg ∉ [1, 2, 3, 4, 5, 6] →
    exec (.genKey alg) s = .next (raise (encode (.genKey alg)) .alg s) ∧
    exec (.genNonce alg) s = .next (raise (encode (.genNonce alg)) .alg s))

/-! ## Decryption gives the plaintext back -/

/-- R257, R259, R260, R588 (DOC §8 `decrypt(encrypt(p, k), k) == p`): GCM_DEC of what GCM_ENC put in DOUT, copied to
DIN, returns the plaintext. (The premise keeps DOUTLEN within 32 bits: log entry 3.) -/
def Obligations.GcmDecInvertsGcmEnc : Prop :=
  ∀ (nrf : Nat) (s t : State), s.dinlen.toNat + 16 < 2 ^ 32 → exec (.gcmEnc nrf) s = .next t → t.err = .ok →
    ∃ u, exec (.gcmDec nrf) { t with din := t.dout, dinlen := t.doutlen } = .next u ∧ u.err = .ok ∧
      u.doutlen = s.dinlen ∧ ∀ i < s.dinlen.toNat, u.dout.read i = s.din.read i

/-- R354, R355, R357, R358: C20P_DEC of what C20P_ENC put in DOUT, copied to DIN, returns the plaintext. (The premise keeps
DOUTLEN within 32 bits: log entry 3.) -/
def Obligations.C20pDecInvertsC20pEnc : Prop :=
  ∀ s t : State, s.dinlen.toNat + 16 < 2 ^ 32 → exec .c20pEnc s = .next t → t.err = .ok →
    ∃ u, exec .c20pDec { t with din := t.dout, dinlen := t.doutlen } = .next u ∧ u.err = .ok ∧
      u.doutlen = s.dinlen ∧ ∀ i < s.dinlen.toNat, u.dout.read i = s.din.read i

/-- R454, R450, R456, R457: TDES_CBC_DEC of what TDES_CBC_ENC put in DOUT, copied to DIN, returns the plaintext with
PADOK = 1. (The premise keeps DOUTLEN within 32 bits: log entry 3.) -/
def Obligations.TdesCbcDecInvertsTdesCbcEnc : Prop :=
  ∀ s t : State, s.dinlen.toNat + 8 < 2 ^ 32 → exec .tdesCbcEnc s = .next t → t.err = .ok →
    ∃ u, exec .tdesCbcDec { t with din := t.dout, dinlen := t.doutlen } = .next u ∧ u.err = .ok ∧ u.padok = true ∧
      u.doutlen = s.dinlen ∧ ∀ i < s.dinlen.toNat, u.dout.read i = s.din.read i

/-! ## The algorithms -/

/-- R153, R154: the S-box table is the multiplicative inverse followed by the affine map. -/
def Obligations.SboxIsInverseThenAffineMap : Prop :=
  ∀ a : Byte, ∃ b : Byte, (a = 0 ∧ b = 0 ∨ a ≠ 0 ∧ gmul a b = 1) ∧
    sbox a = b ^^^ b.rotateLeft 1 ^^^ b.rotateLeft 2 ^^^ b.rotateLeft 3 ^^^ b.rotateLeft 4 ^^^ 0x63

/-- R158, R159, R160: the expansion's words: as many as the key length says, the first ones the key's, every later one by
the recurrence; and the round keys are the words four by four. -/
def Obligations.KeyScheduleFollowsTheRecurrence : Prop :=
  ∀ (key : Bytes) (nk nr : Nat), (nk, nr) ∈ [(4, 10), (6, 12), (8, 14)] → key.length = 4 * nk →
    (expandKey key).length = 4 * (nr + 1) ∧
    (∀ i < nk, (expandKey key)[i]? = some (slice key (4 * i) (4 * i + 4))) ∧
    (∀ (i : Nat) (prev back w : Bytes), nk ≤ i → (expandKey key)[i - 1]? = some prev →
      (expandKey key)[i - nk]? = some back → (expandKey key)[i]? = some w →
      w = xorBytes back
        (if i % nk = 0 then xorBytes (subWord (rotWord prev)) [rcon (i / nk), 0, 0, 0]
         else if nk = 8 ∧ i % nk = 4 then subWord prev else prev)) ∧
    (roundKeys key).length = nr + 1 ∧ (∀ k ∈ roundKeys key, k.length = 16) ∧
    (roundKeys key).flatten = (expandKey key).flatten

/-- R201, R202, R203, R204: the round transformations on the matrix `s[r][c] = st[r + 4c]`. R205: the cipher adds round key
0, runs rounds 1 to `Nr - 1` of all four, and ends with a round without MixColumns. (The rule requires `Nr` in 10, 12, 14
and `Nr + 1` keys; that the equation holds of every other argument too is the model's, whose functions are total: log
entry 10, DESIGN CHOICE.) -/
def Obligations.RoundTransformationsActOnTheMatrix : Prop :=
  (∀ st k : Bytes, st.length = 16 → k.length = 16 → ∀ r < 4, ∀ c < 4,
    (subBytes st)[r + 4 * c]? = (st[r + 4 * c]?).map sbox ∧
    (shiftRows st)[r + 4 * c]? = st[r + 4 * ((c + r) % 4)]? ∧
    (mixColumns st)[r + 4 * c]? = some
      (gmul 2 (st.getD (r + 4 * c) 0) ^^^ gmul 3 (st.getD ((r + 1) % 4 + 4 * c) 0) ^^^
        st.getD ((r + 2) % 4 + 4 * c) 0 ^^^ st.getD ((r + 3) % 4 + 4 * c) 0) ∧
    (addRoundKey st k)[r + 4 * c]? = some (st.getD (r + 4 * c) 0 ^^^ k.getD (r + 4 * c) 0)) ∧
  (∀ (blk : Bytes) (keys : List Bytes) (nr : Nat), encryptBlock blk keys nr =
    addRoundKey (shiftRows (subBytes
      ((List.range' 1 (nr - 1)).foldl
        (fun st r => addRoundKey (mixColumns (shiftRows (subBytes st))) (keys.getD r []))
        (addRoundKey blk (keys.getD 0 []))))) (keys.getD nr []))

/-- R250, R251: GF(2^128) multiplication distributes over addition on both sides, the block `80 00 .. 00` is its one, and
zero absorbs. The block `40 00 .. 00` is `x`: multiplying by it shifts right and reduces by `E1` in the top byte when a 1
drops out; and a shift right of `u` that drops a 0 is a multiplication by `x`, before or after. -/
def Obligations.Gf128MulIsBilinearWithOne : Prop :=
  ∀ x x' y y' : BitVec 128,
    gf128mul (x ^^^ x') y = gf128mul x y ^^^ gf128mul x' y ∧
    gf128mul x (y ^^^ y') = gf128mul x y ^^^ gf128mul x y' ∧
    gf128mul (0x80#128 <<< 120) y = y ∧ gf128mul x 0 = 0 ∧
    gf128mul (0x40#128 <<< 120) y = (if y.getLsbD 0 then (y >>> 1) ^^^ (0xE1#128 <<< 120) else y >>> 1) ∧
    (x.getLsbD 0 = false → gf128mul (x >>> 1) y = gf128mul x (gf128mul (0x40#128 <<< 120) y))

/-- R254: `inc32` adds 1 to the last four bytes, big-endian, mod 2^32, and changes no other byte. -/
def Obligations.Inc32TouchesOnlyTheLastFourBytes : Prop :=
  ∀ cb : Bytes, cb.length = 16 →
    (inc32 cb).length = 16 ∧ (inc32 cb).take 12 = cb.take 12 ∧
    be ((inc32 cb).drop 12) = (be (cb.drop 12) + 1) % 2 ^ 32

/-- R258: the EXACT comparison is equality of the tags; XOR_FOLD accepts exactly the pairs whose byte differences XOR to
zero. -/
def Obligations.TagComparisonModes : Prop :=
  ∀ a b : Bytes, a.length = 16 → b.length = 16 →
    (tagEqual .exact a b = true ↔ a = b) ∧
    (tagEqual .xorFold a b = true ↔ (List.zipWith (· ^^^ ·) a b).foldl (· ^^^ ·) 0 = 0)

/-- R305: byte `i` of the output is byte `i` of the input XORed with byte `i mod 64` of the keystream block at counter
`n0 + i / 64`, mod 2^32; the operation is its own inverse. -/
def Obligations.ChachaXorUsesOneBlockPer64Bytes : Prop :=
  ∀ (k nonce d : Bytes) (n0 : Word), k.length = 32 → nonce.length = 12 →
    (chachaXor k n0 nonce d).length = d.length ∧
    (∀ i < d.length, (chachaXor k n0 nonce d)[i]? =
      some (d.getD i 0 ^^^ (chachaBlock k (n0 + BitVec.ofNat 32 (i / 64)) nonce).getD (i % 64) 0)) ∧
    chachaXor k n0 nonce (chachaXor k n0 nonce d) = d

/-- R350 to R352: the tag is the message polynomial at `r` mod 2^130 - 5, plus `s`, mod 2^128: piece `j` of `q` has the
power `q - j`. -/
def Obligations.Poly1305EvaluatesTheMessagePolynomial : Prop :=
  ∀ (otk m : Bytes) (q : Nat), q = (chunks 16 m).length →
    poly1305 otk m = toLE 16
      ((((List.range q).map fun j =>
          (le ((chunks 16 m).getD j []) + 2 ^ (8 * ((chunks 16 m).getD j []).length)) *
            (le (slice otk 0 16) &&& 0x0ffffffc0ffffffc0ffffffc0fffffff) ^ (q - j)).sum % (2 ^ 130 - 5)
        + le (slice otk 16 32)) % 2 ^ 128)

/-- R404: DES decryption inverts DES encryption, for every key and block. -/
def Obligations.DesDecryptInvertsEncrypt : Prop :=
  ∀ k b : Bytes, b.length = 8 → des k (des k b false) true = b ∧ des k (des k b true) false = b

/-- R402: the low bit of every key byte has no effect: keys that agree in the upper seven bits of each byte give the same
cipher. -/
def Obligations.DesIgnoresKeyParity : Prop :=
  ∀ (k k' b : Bytes) (decrypt : Bool), k.length = 8 → k'.length = 8 →
    (∀ i < 8, k.getD i 0 >>> 1 = k'.getD i 0 >>> 1) → des k b decrypt = des k' b decrypt

/-- R406: Triple-DES decryption inverts encryption; equal adjacent keys reduce it to single DES. -/
def Obligations.TripleDesInvertsAndReduces : Prop :=
  (∀ key b : Bytes, b.length = 8 → tdesDecrypt key (tdesEncrypt key b) = b) ∧
  (∀ k b : Bytes, k.length = 8 → b.length = 8 → tdesEncrypt (k ++ k) b = des k b false) ∧
  (∀ k1 k2 b : Bytes, k1.length = 8 → k2.length = 8 → b.length = 8 →
    tdesEncrypt (k1 ++ k1 ++ k2) b = des k2 b false ∧ tdesEncrypt (k1 ++ k2 ++ k2) b = des k1 b false ∧
    tdesEncrypt (k1 ++ k2 ++ k1) b = tdesEncrypt (k1 ++ k2) b)

/-- R450, R451, R452: padding appends `n` bytes of value `n`, for `n = 8 - len mod 8`; a string is validly padded exactly when
it is not empty and ends in `n` bytes of value `n`, 1 to 8, whatever its length; unpadding strips exactly those and returns
every other string unmodified; and it undoes padding. -/
def Obligations.PaddingIsRecognisedAndStripped : Prop :=
  ∀ d : Bytes,
    padPkcs5 d = d ++ List.replicate (8 - d.length % 8) (BitVec.ofNat 8 (8 - d.length % 8)) ∧
    (padPkcs5 d).length % 8 = 0 ∧ d.length < (padPkcs5 d).length ∧
    (padValid d = true ↔ ∃ (u : Bytes) (n : Nat), 1 ≤ n ∧ n ≤ 8 ∧ d = u ++ List.replicate n (BitVec.ofNat 8 n)) ∧
    (∀ n : Nat, 1 ≤ n → n ≤ 8 → unpadPkcs5 (d ++ List.replicate n (BitVec.ofNat 8 n)) = (d, true)) ∧
    (padValid d = false → unpadPkcs5 d = (d, false)) ∧
    unpadPkcs5 (padPkcs5 d) = (d, true)
end

