-- ==== Sys2Proof/Laws/Bytes.lean ====
section
/-! SUPPORT. Byte strings and integer conversions: lengths, inverses, chunks. -/
namespace Sys2Proof.Machine

@[simp] theorem zeros_length (n : Nat) : (zeros n).length = n := by simp [zeros]

@[simp] theorem xorBytes_length (a b : Bytes) : (xorBytes a b).length = min a.length b.length := by simp [xorBytes]

@[simp] theorem xorBytes_nil (b : Bytes) : xorBytes [] b = [] := rfl

@[simp] theorem xorBytes_cons (x y : Byte) (a b : Bytes) : xorBytes (x :: a) (y :: b) = (x ^^^ y) :: xorBytes a b := rfl

/-- XORing a long enough string twice gives the first string back. -/
theorem xorBytes_cancel {a b : Bytes} (h : a.length ≤ b.length) : xorBytes (xorBytes a b) b = a := by
  induction a generalizing b with
  | nil => rfl
  | cons x a ih =>
    cases b with
    | nil => simp at h
    | cons y b => simp [ih (by simpa using h)]

theorem xorBytes_getElem? (a b : Bytes) (i : Nat) (ha : i < a.length) (hb : i < b.length) :
    (xorBytes a b)[i]? = some (a.getD i 0 ^^^ b.getD i 0) := by
  simp [xorBytes, ha, hb]

/-! ## Chunks (00_scope R11) -/

theorem chunksUpTo_nil (fuel k : Nat) : chunksUpTo fuel k [] = [] := by cases fuel <;> simp [chunksUpTo]

@[simp] theorem chunks_nil (k : Nat) : chunks k [] = [] := rfl

/-- More fuel than bytes changes nothing. -/
theorem chunksUpTo_fuel {k fuel : Nat} (hk : 0 < k) {b : Bytes} (h : b.length ≤ fuel) :
    chunksUpTo fuel k b = chunksUpTo b.length k b := by
  induction hn : b.length using Nat.strong_induction_on generalizing fuel b with
  | _ n ih =>
    cases b with
    | nil => simp [chunksUpTo_nil]
    | cons x b =>
      subst hn
      cases fuel with
      | zero => simp at h
      | succ fuel =>
        have hd : ((x :: b).drop k).length ≤ b.length := by simp; omega
        simp only [List.length_cons, chunksUpTo, List.isEmpty_cons, Bool.false_eq_true, if_false]
        have hlt : ((x :: b).drop k).length < (x :: b).length := by simp; omega
        rw [ih _ hlt (fuel := fuel) (le_trans hd (by simpa using h)) rfl, ih _ hlt (fuel := b.length) hd rfl]

/-- A nonempty string's chunks: its first `k` bytes, then the chunks of the rest. -/
theorem chunks_of_ne_nil {k : Nat} (hk : 0 < k) {b : Bytes} (hb : b ≠ []) :
    chunks k b = b.take k :: chunks k (b.drop k) := by
  obtain ⟨x, b, rfl⟩ := List.exists_cons_of_ne_nil hb
  unfold chunks
  rw [List.length_cons, chunksUpTo, if_neg (by simp), chunksUpTo_fuel hk (by simp; omega)]

/-- A full piece in front is the first chunk. -/
theorem chunks_append {k : Nat} (hk : 0 < k) {a : Bytes} (ha : a.length = k) (b : Bytes) :
    chunks k (a ++ b) = a :: chunks k b := by
  rw [chunks_of_ne_nil hk (by rintro h; simp at h; simp [h.1] at ha; omega)]
  simp [← ha]

/-- A last, shorter piece is one chunk. -/
theorem chunks_of_le {k : Nat} (hk : 0 < k) {a : Bytes} (h0 : a ≠ []) (ha : a.length ≤ k) : chunks k a = [a] := by
  rw [chunks_of_ne_nil hk h0, List.take_of_length_le ha, List.drop_of_length_le ha, chunks_nil]

/-- Induction over a string `k` bytes at a time. -/
theorem chunksInduction {k : Nat} (hk : 0 < k) {P : Bytes → Prop} (hnil : P [])
    (hlast : ∀ a : Bytes, a ≠ [] → a.length < k → P a) (hstep : ∀ a b : Bytes, a.length = k → P b → P (a ++ b))
    (b : Bytes) : P b := by
  induction hn : b.length using Nat.strong_induction_on generalizing b with
  | _ n ih =>
    subst hn
    by_cases h0 : b = []
    · exact h0 ▸ hnil
    · by_cases hlt : b.length < k
      · exact hlast b h0 hlt
      · have hpos : 0 < b.length := List.length_pos_iff.2 h0
        rw [← List.take_append_drop k b]
        exact hstep _ _ (by simp; omega) (ih _ (by simp; omega) _ rfl)

theorem chunks_flatten {k : Nat} (hk : 0 < k) (b : Bytes) : (chunks k b).flatten = b := by
  induction b using chunksInduction hk with
  | hnil => rfl
  | hlast a h0 ha => rw [chunks_of_le hk h0 ha.le]; simp
  | hstep a b ha ih => rw [chunks_append hk ha]; simp [ih]

theorem chunks_length {k : Nat} (hk : 0 < k) (b : Bytes) : (chunks k b).length = (b.length + k - 1) / k := by
  induction b using chunksInduction hk with
  | hnil => simp; exact (Nat.div_eq_of_lt (by omega)).symm
  | hlast a h0 ha =>
    rw [chunks_of_le hk h0 ha.le]
    have := List.length_pos_iff.2 h0
    rw [List.length_singleton, show a.length + k - 1 = (a.length - 1) + k by omega, Nat.add_div_right _ hk,
      Nat.div_eq_of_lt (by omega)]
  | hstep a b ha ih =>
    rw [chunks_append hk ha, List.length_cons, ih, List.length_append, ha,
      show k + b.length + k - 1 = (b.length + k - 1) + k by omega, Nat.add_div_right _ hk]

/-- Every piece has 1 to `k` bytes. -/
theorem mem_chunks_length {k : Nat} (hk : 0 < k) {b c : Bytes} (h : c ∈ chunks k b) : 0 < c.length ∧ c.length ≤ k := by
  induction b using chunksInduction hk with
  | hnil => simp at h
  | hlast a h0 ha =>
    rw [chunks_of_le hk h0 ha.le] at h
    rw [List.mem_singleton.1 h]
    exact ⟨List.length_pos_iff.2 h0, ha.le⟩
  | hstep a b ha ih =>
    rw [chunks_append hk ha] at h
    rcases List.mem_cons.1 h with rfl | h
    · omega
    · exact ih h

/-- With a whole number of pieces every piece is full. -/
theorem mem_chunks_full {k : Nat} (hk : 0 < k) {b c : Bytes} (hb : b.length % k = 0) (h : c ∈ chunks k b) :
    c.length = k := by
  induction b using chunksInduction hk with
  | hnil => simp at h
  | hlast a h0 ha =>
    have := List.length_pos_iff.2 h0
    rw [Nat.mod_eq_of_lt ha] at hb; omega
  | hstep a b ha ih =>
    rw [chunks_append hk ha] at h
    rcases List.mem_cons.1 h with rfl | h
    · exact ha
    · exact ih (by rwa [List.length_append, ha, Nat.add_mod_left] at hb) h

/-! ## Padding to 16 bytes -/

theorem pad16_length_mod (b : Bytes) : (pad16 b).length % 16 = 0 := by simp [pad16]; omega

/-! ## Integers (00_scope R12) -/

@[simp] theorem toLE_length (n v : Nat) : (toLE n v).length = n := by
  induction n generalizing v with
  | zero => rfl
  | succ n ih => simp [toLE, ih]

@[simp] theorem toBE_length (n v : Nat) : (toBE n v).length = n := by simp [toBE]

theorem le_lt (b : Bytes) : le b < 256 ^ b.length := by
  induction b with
  | nil => simp [le]
  | cons x b ih =>
    have := x.isLt
    simp only [le, List.length_cons, Nat.pow_succ]; omega

/-- `LE(toLE_n(v)) = v mod 2^(8n)` (R12). -/
theorem le_toLE (n v : Nat) : le (toLE n v) = v % 256 ^ n := by
  induction n generalizing v with
  | zero => simp [toLE, le, Nat.mod_one]
  | succ n ih =>
    rw [toLE, le, ih, BitVec.toNat_ofNat, show 256 ^ (n + 1) = 256 * 256 ^ n by ring, Nat.mod_mul]

theorem toLE_le (b : Bytes) : toLE b.length (le b) = b := by
  induction b with
  | nil => rfl
  | cons x b ih =>
    have hx := x.isLt
    have h1 : (x.toNat + 256 * le b) / 256 = le b := by omega
    simp only [le, List.length_cons, toLE, h1, ih, List.cons.injEq, and_true]
    apply BitVec.eq_of_toNat_eq
    rw [BitVec.toNat_ofNat]; omega

/-- Big-endian is little-endian of the reversed string. -/
theorem be_eq_le_reverse (b : Bytes) : be b = le b.reverse := by
  have key : ∀ (b : Bytes) (v : Nat), b.foldl (fun v x => 256 * v + x.toNat) v = v * 256 ^ b.length + le b.reverse := by
    intro b
    induction b with
    | nil => simp [le]
    | cons x b ih =>
      intro v
      have happ : ∀ (c : Bytes) (y : Byte), le (c ++ [y]) = le c + 256 ^ c.length * y.toNat := by
        intro c y
        induction c with
        | nil => simp [le]
        | cons z c ihc => simp only [List.cons_append, le, ihc, List.length_cons, Nat.pow_succ]; ring
      rw [List.foldl_cons, ih, List.reverse_cons, happ]
      simp only [List.length_cons, List.length_reverse, Nat.pow_succ]; ring
  simpa [be] using key b 0

theorem be_lt (b : Bytes) : be b < 256 ^ b.length := by
  rw [be_eq_le_reverse]; simpa using le_lt b.reverse

/-- `BE(toBE_n(v)) = v mod 2^(8n)` (R12). -/
theorem be_toBE (n v : Nat) : be (toBE n v) = v % 256 ^ n := by
  rw [be_eq_le_reverse, toBE, List.reverse_reverse, le_toLE]

theorem toBE_be (b : Bytes) : toBE b.length (be b) = b := by
  rw [be_eq_le_reverse, toBE, ← List.length_reverse, toLE_le, List.reverse_reverse]

end Sys2Proof.Machine
end

