-- ==== Sys2Proof/Laws/Lengths.lean ====
section
/-! SUPPORT. How long the algorithms' outputs are. -/
namespace Sys2Proof.Machine

/-! ## AES -/

@[simp] theorem subBytes_length (st : Bytes) : (subBytes st).length = st.length := by simp [subBytes]

@[simp] theorem shiftRows_length (st : Bytes) : (shiftRows st).length = 16 := by simp [shiftRows]

@[simp] theorem mixColumn_length (a0 a1 a2 a3 : Byte) : (mixColumn a0 a1 a2 a3).length = 4 := rfl

/-- MixColumns keeps the length of a string of whole columns. -/
theorem mixColumns_length_columns : ∀ (n : Nat) (st : Bytes), st.length = 4 * n → (mixColumns st).length = 4 * n
  | 0, st, h => by rw [List.length_eq_zero_iff.1 h]; rfl
  | n + 1, a0 :: a1 :: a2 :: a3 :: rest, h => by
    rw [mixColumns, List.length_append, mixColumn_length,
      mixColumns_length_columns n rest (by simp only [List.length_cons] at h; omega)]
    omega

theorem mixColumns_length {st : Bytes} (h : st.length = 16) : (mixColumns st).length = 16 :=
  mixColumns_length_columns 4 st h

theorem addRoundKey_length {st k : Bytes} (hs : st.length = 16) (hk : k.length = 16) : (addRoundKey st k).length = 16 := by
  simp [addRoundKey, hs, hk]

/-- An index inside the key list gives a 16-byte round key. -/
theorem getD_round_key_length {rk : List Bytes} (hk : ∀ k ∈ rk, k.length = 16) {j : Nat} (hj : j < rk.length) :
    (rk.getD j []).length = 16 := by
  rw [List.getD_eq_getElem _ _ hj]; exact hk _ (List.getElem_mem hj)

theorem cipherRounds_length {rk : List Bytes} (hk : ∀ k ∈ rk, k.length = 16) {r count : Nat} {st : Bytes}
    (hs : st.length = 16) (hr : r + count ≤ rk.length) : (cipherRounds rk r count st).length = 16 := by
  induction count generalizing r st with
  | zero => exact hs
  | succ count ih =>
    exact ih (addRoundKey_length (mixColumns_length (by simp)) (getD_round_key_length hk (by omega))) (by omega)

/-- Under enough round keys the cipher gives a block. -/
theorem encryptBlock_length {rk : List Bytes} (hk : ∀ k ∈ rk, k.length = 16) {nr : Nat} (hr : nr < rk.length)
    (blk : Bytes) : (encryptBlock blk rk nr).length = 16 := by
  unfold encryptBlock
  exact addRoundKey_length (by simp) (getD_round_key_length hk hr)

/-! ## GCM -/

@[simp] theorem ghash_length (h s : Bytes) : (ghash h s).length = 16 := by simp [ghash]

theorem inc32_length {cb : Bytes} (h : cb.length = 16) : (inc32 cb).length = 16 := by
  simp [inc32, slice, h]

theorem gctrLoop_length {rk : List Bytes} (hk : ∀ k ∈ rk, k.length = 16) {nr : Nat} (hr : nr < rk.length)
    (cb : Bytes) {ds : List Bytes} (hd : ∀ d ∈ ds, d.length ≤ 16) :
    (gctrLoop rk nr cb ds).length = ds.flatten.length := by
  induction ds generalizing cb with
  | nil => rfl
  | cons d ds ih =>
    rw [gctrLoop, List.length_append, ih _ (fun d' h => hd d' (by simp [h])), xorBytes_length,
      encryptBlock_length hk hr, List.flatten_cons, List.length_append,
      Nat.min_eq_left (hd d (by simp))]

theorem gctr_length {rk : List Bytes} (hk : ∀ k ∈ rk, k.length = 16) {nr : Nat} (hr : nr < rk.length)
    (j0 d : Bytes) : (gctr rk nr j0 d).length = d.length := by
  unfold gctr
  rw [gctrLoop_length hk hr j0 (fun c hc => (mem_chunks_length (by omega) hc).2), chunks_flatten (by omega)]

theorem gcmTag_length {rk : List Bytes} (hk : ∀ k ∈ rk, k.length = 16) {nr : Nat} (hr : nr < rk.length)
    (iv a c : Bytes) : (gcmTag rk nr iv a c).length = 16 := by
  unfold gcmTag
  rw [xorBytes_length, ghash_length, encryptBlock_length hk hr]; rfl

/-! ## ChaCha20 and Poly1305 -/

@[simp] theorem qrOn_length (i j k l : Nat) (x : List Word) : (qrOn i j k l x).length = x.length := by simp [qrOn]

@[simp] theorem doubleRound_length (x : List Word) : (doubleRound x).length = x.length := by simp [doubleRound]

@[simp] theorem doubleRounds_length (n : Nat) (x : List Word) : (doubleRounds n x).length = x.length := by
  induction n generalizing x with
  | zero => rfl
  | succ n ih => simp [doubleRounds, ih]

theorem flatMap_toLE_length (x : List Word) : (x.flatMap fun w => toLE 4 w.toNat).length = 4 * x.length := by
  induction x with
  | nil => rfl
  | cons w x ih => rw [List.flatMap_cons, List.length_append, ih, toLE_length, List.length_cons]; omega

theorem leWords_length (b : Bytes) : (leWords b).length = (b.length + 3) / 4 := by
  rw [leWords, List.length_map, chunks_length (by omega)]; rfl

theorem chachaInit_length {k nonce : Bytes} (hk : k.length = 32) (hn : nonce.length = 12) (n : Word) :
    (chachaInit k n nonce).length = 16 := by
  simp [chachaInit, chachaConstants, leWords_length, hk, hn]

/-- A keystream block has 64 bytes. -/
theorem chachaBlock_length {k nonce : Bytes} (hk : k.length = 32) (hn : nonce.length = 12) (n : Word) :
    (chachaBlock k n nonce).length = 64 := by
  simp only [chachaBlock, flatMap_toLE_length, List.length_zipWith, doubleRounds_length, chachaInit_length hk hn]; rfl

theorem chachaXorLoop_length {k nonce : Bytes} (hk : k.length = 32) (hn : nonce.length = 12) (n : Word)
    {ds : List Bytes} (hd : ∀ d ∈ ds, d.length ≤ 64) : (chachaXorLoop k nonce n ds).length = ds.flatten.length := by
  induction ds generalizing n with
  | nil => rfl
  | cons d ds ih =>
    rw [chachaXorLoop, List.length_append, ih _ (fun d' h => hd d' (by simp [h])), xorBytes_length,
      chachaBlock_length hk hn, List.flatten_cons, List.length_append, Nat.min_eq_left (hd d (by simp))]

theorem chachaXor_length {k nonce : Bytes} (hk : k.length = 32) (hn : nonce.length = 12) (n : Word) (d : Bytes) :
    (chachaXor k n nonce d).length = d.length := by
  unfold chachaXor
  rw [chachaXorLoop_length hk hn n (fun c hc => (mem_chunks_length (by omega) hc).2), chunks_flatten (by omega)]

@[simp] theorem poly1305_length (otk m : Bytes) : (poly1305 otk m).length = 16 := by simp [poly1305]

@[simp] theorem aeadTag_length (k nonce a c : Bytes) : (aeadTag k nonce a c).length = 16 := by simp [aeadTag]

/-! ## DES, CBC, padding -/

@[simp] theorem des_length (k b : Bytes) (decrypt : Bool) : (des k b decrypt).length = 8 := by simp [des]

@[simp] theorem tdesEncrypt_length (key b : Bytes) : (tdesEncrypt key b).length = 8 := by simp [tdesEncrypt]

@[simp] theorem tdesDecrypt_length (key b : Bytes) : (tdesDecrypt key b).length = 8 := by simp [tdesDecrypt]

theorem cbcEncLoop_length (key prev : Bytes) (ps : List Bytes) : (cbcEncLoop key prev ps).length = 8 * ps.length := by
  induction ps generalizing prev with
  | nil => rfl
  | cons p ps ih => simp [cbcEncLoop, ih]; omega

theorem cbcEncrypt_length (key iv p : Bytes) (h : p.length % 8 = 0) : (cbcEncrypt key iv p).length = p.length := by
  rw [cbcEncrypt, cbcEncLoop_length, chunks_length (by omega)]; omega

theorem cbcDecLoop_length (key : Bytes) {prev : Bytes} (hp : prev.length = 8) {cs : List Bytes}
    (hc : ∀ c ∈ cs, c.length = 8) : (cbcDecLoop key prev cs).length = 8 * cs.length := by
  induction cs generalizing prev with
  | nil => rfl
  | cons c cs ih =>
    simp [cbcDecLoop, hp, ih (hc c (by simp)) (fun c' h => hc c' (by simp [h]))]; omega

theorem cbcDecrypt_length (key : Bytes) {iv c : Bytes} (hi : iv.length = 8) (h : c.length % 8 = 0) :
    (cbcDecrypt key iv c).length = c.length := by
  rw [cbcDecrypt, cbcDecLoop_length key hi (fun d hd => mem_chunks_full (by omega) h hd), chunks_length (by omega)]
  omega

/-- The pad brings the length to the next multiple of 8. -/
theorem padPkcs5_length (d : Bytes) : (padPkcs5 d).length = d.length + (8 - d.length % 8) := by simp [padPkcs5]

theorem unpadPkcs5_length_le (d : Bytes) : (unpadPkcs5 d).1.length ≤ d.length := by
  unfold unpadPkcs5; split <;> simp

end Sys2Proof.Machine
end

