-- ==== Sys2Proof/Laws/KeySchedule.lean ====
section
/-! SUPPORT. The shape of a key schedule: how many words and round keys, and how long. -/
namespace Sys2Proof.Machine

theorem expandWords_length (nk count : Nat) (w : List Bytes) : (expandWords nk count w).length = w.length + count := by
  induction count generalizing w with
  | zero => rfl
  | succ count ih => rw [expandWords, ih]; simp; omega

/-- The words already there stay; each new one is `expandWord` of those before it. -/
theorem expandWords_succ_last (nk count : Nat) (w : List Bytes) :
    expandWords nk (count + 1) w =
      expandWords nk count w ++ [expandWord nk (w.length + count) (expandWords nk count w)] := by
  induction count generalizing w with
  | zero => rfl
  | succ count ih =>
    rw [expandWords, ih, ← expandWords, List.length_append, List.length_singleton,
      show w.length + 1 + count = w.length + (count + 1) by omega]

theorem expandWord_length {nk i : Nat} {w : List Bytes} (hw : ∀ x ∈ w, x.length = 4) (hk : 0 < nk) (hi : nk ≤ i)
    (hl : i = w.length) : (expandWord nk i w).length = 4 := by
  have hget : ∀ j, j < w.length → (w.getD j []).length = 4 := fun j hj => by
    rw [List.getD_eq_getElem _ _ hj]; exact hw _ (List.getElem_mem hj)
  have h1 := hget (i - 1) (by omega)
  have h2 := hget (i - nk) (by omega)
  unfold expandWord
  dsimp only
  split_ifs <;> simp [-List.getD_eq_getElem?_getD, h1, h2, rotWord, subWord]

theorem expandWords_words {nk : Nat} (hk : 0 < nk) {count : Nat} {w : List Bytes} (hw : ∀ x ∈ w, x.length = 4)
    (hl : nk ≤ w.length) : ∀ x ∈ expandWords nk count w, x.length = 4 := by
  induction count generalizing w with
  | zero => exact hw
  | succ count ih =>
    refine ih (fun x hx => ?_) (by simp; omega)
    rcases List.mem_append.1 hx with hx | hx
    · exact hw x hx
    · rw [List.mem_singleton.1 hx]; exact expandWord_length hw hk hl rfl

/-- Joining words four by four keeps their bytes. -/
theorem joinFours_spec : ∀ (n : Nat) (w : List Bytes), w.length = 4 * n → (∀ x ∈ w, x.length = 4) →
    (joinFours w).length = n ∧ (∀ k ∈ joinFours w, k.length = 16) ∧ (joinFours w).flatten = w.flatten
  | 0, [], _, _ => by simp [joinFours]
  | n + 1, a :: b :: c :: d :: rest, h, hw => by
    obtain ⟨h1, h2, h3⟩ := joinFours_spec n rest (by simp at h; omega) (fun x hx => hw x (by simp [hx]))
    refine ⟨by simp [joinFours, h1], fun k hk => ?_, by simp [joinFours, h3]⟩
    rcases List.mem_cons.1 hk with rfl | hk
    · simp [hw a, hw b, hw c, hw d]
    · exact h2 k hk

/-- A key of `4 * nk` bytes gives `4 * (nr + 1)` words of four bytes. -/
theorem expandKey_shape {key : Bytes} {nk nr : Nat} (h : (nk, nr) ∈ [(4, 10), (6, 12), (8, 14)])
    (hk : key.length = 4 * nk) : (expandKey key).length = 4 * (nr + 1) ∧ ∀ x ∈ expandKey key, x.length = 4 := by
  have hr : rounds key.length = some nr ∧ 0 < nk ∧ nk ≤ 4 * (nr + 1) := by
    simp at h
    rcases h with ⟨rfl, rfl⟩ | ⟨rfl, rfl⟩ | ⟨rfl, rfl⟩ <;> simp [hk, rounds]
  obtain ⟨hr, h0, hle⟩ := hr
  have hc : (chunks 4 key).length = nk := by rw [chunks_length (by omega)]; omega
  have hd : key.length / 4 = nk := by omega
  unfold expandKey
  rw [hr]
  dsimp only
  rw [hd]
  refine ⟨by rw [expandWords_length, hc]; omega, expandWords_words h0 ?_ (by omega)⟩
  exact fun x hx => mem_chunks_full (by omega) (by omega) hx

/-- `nr + 1` round keys of 16 bytes. -/
theorem roundKeys_shape {key : Bytes} {nk nr : Nat} (h : (nk, nr) ∈ [(4, 10), (6, 12), (8, 14)])
    (hk : key.length = 4 * nk) :
    (roundKeys key).length = nr + 1 ∧ (∀ k ∈ roundKeys key, k.length = 16) ∧
      (roundKeys key).flatten = (expandKey key).flatten := by
  obtain ⟨h1, h2⟩ := expandKey_shape h hk
  exact joinFours_spec (nr + 1) _ h1 h2

theorem flatten_length_of_forall {k : Nat} {l : List Bytes} (h : ∀ x ∈ l, x.length = k) :
    l.flatten.length = k * l.length := by
  induction l with
  | nil => rfl
  | cons x l ih =>
    rw [List.flatten_cons, List.length_append, ih (fun y hy => h y (by simp [hy])), h x (by simp), List.length_cons]; ring

theorem roundKeys_flatten_length {key : Bytes} {nk nr : Nat} (h : (nk, nr) ∈ [(4, 10), (6, 12), (8, 14)])
    (hk : key.length = 4 * nk) : (roundKeys key).flatten.length = 16 * (nr + 1) := by
  obtain ⟨h1, h2, _⟩ := roundKeys_shape h hk
  rw [flatten_length_of_forall h2, h1]

end Sys2Proof.Machine
end

