-- ==== Sys2Proof/Laws/Memory.lean ====
section
/-! SUPPORT. Buffer cells: reading after writing, the canonical form, reads of several bytes. -/
namespace Sys2Proof.Machine

@[simp] theorem Memory.read_nil (i : Nat) : Memory.read [] i = none := rfl

theorem Memory.read_cons (c : Host.Cell) (m : Memory) (i : Nat) :
    Memory.read (c :: m) i = if c.1 = i then some c.2 else Memory.read m i := by
  unfold Memory.read
  by_cases h : c.1 = i <;> simp [h]

theorem Memory.read_append (m₁ m₂ : Memory) (i : Nat) :
    Memory.read (m₁ ++ m₂) i = (Memory.read m₁ i).or (Memory.read m₂ i) := by
  unfold Memory.read
  rw [List.find?_append]
  cases m₁.find? (fun c => c.1 == i) <;> simp

/-- Filtering by a condition on offsets keeps or drops each cell as a whole. -/
theorem Memory.read_filter (m : Memory) (p : Nat → Bool) (i : Nat) :
    Memory.read (m.filter fun c => p c.1) i = if p i then Memory.read m i else none := by
  induction m with
  | nil => simp
  | cons c m ih =>
    by_cases hc : p c.1
    · rw [List.filter_cons_of_pos (by simpa using hc), Memory.read_cons, Memory.read_cons, ih]
      by_cases hi : c.1 = i <;> simp_all
    · rw [List.filter_cons_of_neg (by simpa using hc), ih, Memory.read_cons]
      by_cases hi : c.1 = i <;> simp_all

theorem read_cellsAt (off : Nat) (s : Bytes) (i : Nat) :
    Memory.read (cellsAt off s) i = if off ≤ i then s[i - off]? else none := by
  induction s generalizing off with
  | nil => simp [cellsAt]
  | cons b rest ih =>
    rw [cellsAt, Memory.read_cons, ih]
    rcases Nat.lt_trichotomy i off with h | h | h
    · simp [show off ≠ i by omega, show ¬ off ≤ i by omega, show ¬ off + 1 ≤ i by omega]
    · simp [h]
    · obtain ⟨k, rfl⟩ : ∃ k, i = off + 1 + k := ⟨i - (off + 1), by omega⟩
      simp [show off ≠ off + 1 + k by omega, show off ≤ off + 1 + k by omega,
        show off + 1 + k - off = k + 1 by omega]

/-- All that reading a written memory can give: the byte written inside the range, the old cell outside it. -/
theorem Memory.read_write (m : Memory) (off : Nat) (s : Bytes) (i : Nat) :
    (m.write off s).read i = if off ≤ i ∧ i < off + s.length then s[i - off]? else m.read i := by
  unfold Memory.write
  rw [Memory.read_append, Memory.read_append, Memory.read_filter m (fun k => decide (k < off)), read_cellsAt,
    Memory.read_filter m (fun k => decide (off + s.length ≤ k))]
  by_cases h₁ : i < off
  · simp [h₁, show ¬ off ≤ i by omega, show ¬ off + s.length ≤ i by omega]
  · by_cases h₂ : i < off + s.length
    · have : i - off < s.length := by omega
      simp [h₁, show off ≤ i by omega, h₂, this]
    · simp [h₁, show off ≤ i by omega, h₂, show off + s.length ≤ i by omega,
        show s.length ≤ i - off by omega]

theorem Memory.read_write_of_mem (m : Memory) (off : Nat) (s : Bytes) (i : Nat) (h : i < s.length) :
    (m.write off s).read (off + i) = s[i]? := by
  rw [Memory.read_write, if_pos ⟨by omega, by omega⟩]; simp

theorem Memory.read_write_of_not_mem (m : Memory) (off : Nat) (s : Bytes) (i : Nat)
    (h : i < off ∨ off + s.length ≤ i) : (m.write off s).read i = m.read i := by
  rw [Memory.read_write, if_neg (by omega)]

theorem mem_cellsAt {off : Nat} {s : Bytes} {c : Host.Cell} (h : c ∈ cellsAt off s) :
    off ≤ c.1 ∧ c.1 < off + s.length := by
  induction s generalizing off with
  | nil => simp [cellsAt] at h
  | cons b rest ih =>
    rcases List.mem_cons.1 h with rfl | h
    · simp
    · have := ih h; simp; omega

theorem cellsAt_wf (off : Nat) (s : Bytes) : Memory.wf (cellsAt off s) := by
  induction s generalizing off with
  | nil => simp [cellsAt]
  | cons b rest ih => exact List.pairwise_cons.2 ⟨fun c hc => by have := mem_cellsAt hc; simp; omega, ih _⟩

/-- Writing keeps the canonical form. -/
theorem Memory.write_wf {m : Memory} (off : Nat) (s : Bytes) (h : m.wf) : (m.write off s).wf := by
  unfold Memory.write Memory.wf
  rw [List.pairwise_append, List.pairwise_append]
  refine ⟨⟨h.filter _, cellsAt_wf off s, fun a ha b hb => ?_⟩, h.filter _, fun a ha b hb => ?_⟩
  · have := mem_cellsAt hb; simp at ha; omega
  · simp at hb
    rcases List.mem_append.1 ha with ha | ha
    · simp at ha; omega
    · have := mem_cellsAt ha; omega

/-- Writing lists no cell beyond the old ones and the range written. -/
theorem Memory.mem_write {m : Memory} {off : Nat} {s : Bytes} {c : Host.Cell} (h : c ∈ m.write off s) :
    c ∈ m ∨ (off ≤ c.1 ∧ c.1 < off + s.length) := by
  unfold Memory.write at h
  rcases List.mem_append.1 h with h | h
  · rcases List.mem_append.1 h with h | h
    · exact .inl (List.mem_filter.1 h).1
    · exact .inr (mem_cellsAt h)
  · exact .inl (List.mem_filter.1 h).1

@[simp] theorem Memory.write_nil_bytes (m : Memory) (off i : Nat) : (m.write off []).read i = m.read i := by
  rw [Memory.read_write, if_neg (by simp)]

/-- A read of several bytes gives as many bytes as asked for, each the cell's. -/
theorem Memory.readBytes_ok {m : Memory} {off n : Nat} {bytes : Bytes} :
    m.readBytes off n = .ok bytes ↔ bytes.length = n ∧ ∀ i < n, m.read (off + i) = bytes[i]? := by
  induction n generalizing off bytes with
  | zero => cases bytes <;> simp [Memory.readBytes]
  | succ n ih =>
    unfold Memory.readBytes
    cases hr : m.read off with
    | none =>
      simp only [reduceCtorEq, false_iff, not_and]
      intro hl h
      have := h 0 (by omega)
      rw [Nat.add_zero, hr] at this
      cases bytes with
      | nil => simp at hl
      | cons b bs => simp at this
    | some b =>
      cases hb : m.readBytes (off + 1) n with
      | error e =>
        simp only [reduceCtorEq, false_iff, not_and]
        intro hl h
        cases bytes with
        | nil => simp at hl
        | cons x xs =>
          have : m.readBytes (off + 1) n = .ok xs := ih.2 ⟨by simpa using hl, fun i hi => by
            have := h (i + 1) (by omega)
            rw [show off + 1 + i = off + (i + 1) by omega]; simpa using this⟩
          rw [hb] at this; cases this
      | ok rest =>
        have hrest := ih.1 hb
        simp only [Except.ok.injEq]
        constructor
        · rintro rfl
          refine ⟨by simp [hrest.1], fun i hi => ?_⟩
          cases i with
          | zero => simpa using hr
          | succ i =>
            have := hrest.2 i (by omega)
            rw [show off + (i + 1) = off + 1 + i by omega]; simpa using this
        · rintro ⟨hl, h⟩
          cases bytes with
          | nil => simp at hl
          | cons x xs =>
            have h0 : b = x := by have := h 0 (by omega); simpa [hr] using this
            have : m.readBytes (off + 1) n = .ok xs := ih.2 ⟨by simpa using hl, fun i hi => by
              have := h (i + 1) (by omega)
              rw [show off + 1 + i = off + (i + 1) by omega]; simpa using this⟩
            rw [hb] at this
            simp at this
            rw [h0, this]

/-- A read of several bytes stops at the first cell that holds no value. -/
theorem Memory.readBytes_error {m : Memory} {off n i : Nat} (h : m.readBytes off n = .error i) :
    off ≤ i ∧ i < off + n ∧ m.read i = none ∧ ∀ j, off ≤ j → j < i → m.read j ≠ none := by
  induction n generalizing off with
  | zero => simp [Memory.readBytes] at h
  | succ n ih =>
    unfold Memory.readBytes at h
    cases hr : m.read off with
    | none =>
      simp [hr] at h; subst h
      exact ⟨le_refl _, by omega, hr, fun j h1 h2 => by omega⟩
    | some b =>
      cases hb : m.readBytes (off + 1) n with
      | ok rest => simp [hr, hb] at h
      | error e =>
        simp [hr, hb] at h; subst h
        obtain ⟨h1, h2, h3, h4⟩ := ih hb
        refine ⟨by omega, by omega, h3, fun j hj1 hj2 => ?_⟩
        rcases Nat.eq_or_lt_of_le hj1 with rfl | hj
        · simp [hr]
        · exact h4 j (by omega) hj2

/-- A read succeeds exactly when every cell holds a value. -/
theorem Memory.readBytes_isOk_iff (m : Memory) (off n : Nat) :
    (∃ bytes, m.readBytes off n = .ok bytes) ↔ ∀ i < n, m.read (off + i) ≠ none := by
  constructor
  · rintro ⟨bytes, h⟩ i hi
    obtain ⟨hl, hb⟩ := Memory.readBytes_ok.1 h
    rw [hb i hi]; simp [hl, hi]
  · intro h
    cases hb : m.readBytes off n with
    | ok bytes => exact ⟨bytes, rfl⟩
    | error i =>
      obtain ⟨h1, h2, h3, _⟩ := Memory.readBytes_error hb
      have := h (i - off) (by omega)
      rw [show off + (i - off) = i by omega, h3] at this
      exact absurd rfl this

end Sys2Proof.Machine
end

