-- ==== Sys2Proof/Laws/State.lean ====
section
/-! SUPPORT. One lemma per field per update, so that no proof unfolds a record update. -/
namespace Sys2Proof.Machine

/-! ## The success write -/

@[simp] theorem finish_cmd (n : Nat) (p : Bool) (s : State) : (finish n p s).cmd = s.cmd := rfl
@[simp] theorem finish_err (n : Nat) (p : Bool) (s : State) : (finish n p s).err = .ok := rfl
@[simp] theorem finish_padok (n : Nat) (p : Bool) (s : State) : (finish n p s).padok = p := rfl
@[simp] theorem finish_rkv (n : Nat) (p : Bool) (s : State) : (finish n p s).rkv = s.rkv := rfl
@[simp] theorem finish_errinfo (n : Nat) (p : Bool) (s : State) : (finish n p s).errinfo = 0 := rfl
@[simp] theorem finish_klen (n : Nat) (p : Bool) (s : State) : (finish n p s).klen = s.klen := rfl
@[simp] theorem finish_ivlen (n : Nat) (p : Bool) (s : State) : (finish n p s).ivlen = s.ivlen := rfl
@[simp] theorem finish_aadlen (n : Nat) (p : Bool) (s : State) : (finish n p s).aadlen = s.aadlen := rfl
@[simp] theorem finish_dinlen (n : Nat) (p : Bool) (s : State) : (finish n p s).dinlen = s.dinlen := rfl
@[simp] theorem finish_doutlen (n : Nat) (p : Bool) (s : State) : (finish n p s).doutlen = doutlenWord n := rfl
@[simp] theorem finish_ctr (n : Nat) (p : Bool) (s : State) : (finish n p s).ctr = s.ctr := rfl
@[simp] theorem finish_nr (n : Nat) (p : Bool) (s : State) : (finish n p s).nr = s.nr := rfl
@[simp] theorem finish_key (n : Nat) (p : Bool) (s : State) : (finish n p s).key = s.key := rfl
@[simp] theorem finish_iv (n : Nat) (p : Bool) (s : State) : (finish n p s).iv = s.iv := rfl
@[simp] theorem finish_aad (n : Nat) (p : Bool) (s : State) : (finish n p s).aad = s.aad := rfl
@[simp] theorem finish_din (n : Nat) (p : Bool) (s : State) : (finish n p s).din = s.din := rfl
@[simp] theorem finish_dout (n : Nat) (p : Bool) (s : State) : (finish n p s).dout = s.dout := rfl
@[simp] theorem finish_rk (n : Nat) (p : Bool) (s : State) : (finish n p s).rk = s.rk := rfl
@[simp] theorem finish_params (n : Nat) (p : Bool) (s : State) : (finish n p s).params = s.params := rfl
@[simp] theorem finish_entropy (n : Nat) (p : Bool) (s : State) : (finish n p s).entropy = s.entropy := rfl
@[simp] theorem finish_drawn (n : Nat) (p : Bool) (s : State) : (finish n p s).drawn = s.drawn := rfl
@[simp] theorem finish_pending (n : Nat) (p : Bool) (s : State) : (finish n p s).pending = s.pending := rfl
@[simp] theorem finish_observed (n : Nat) (p : Bool) (s : State) : (finish n p s).observed = s.observed := rfl

/-! ## The failure write -/

@[simp] theorem raise_cmd (v : Word) (r : Reason) (s : State) : (raise v r s).cmd = s.cmd := rfl
@[simp] theorem raise_err (v : Word) (r : Reason) (s : State) : (raise v r s).err = r.errClass := rfl
@[simp] theorem raise_padok (v : Word) (r : Reason) (s : State) : (raise v r s).padok = false := rfl
@[simp] theorem raise_rkv (v : Word) (r : Reason) (s : State) : (raise v r s).rkv = s.rkv := rfl
@[simp] theorem raise_errinfo (v : Word) (r : Reason) (s : State) : (raise v r s).errinfo = errInfoWord v r := rfl
@[simp] theorem raise_klen (v : Word) (r : Reason) (s : State) : (raise v r s).klen = s.klen := rfl
@[simp] theorem raise_ivlen (v : Word) (r : Reason) (s : State) : (raise v r s).ivlen = s.ivlen := rfl
@[simp] theorem raise_aadlen (v : Word) (r : Reason) (s : State) : (raise v r s).aadlen = s.aadlen := rfl
@[simp] theorem raise_dinlen (v : Word) (r : Reason) (s : State) : (raise v r s).dinlen = s.dinlen := rfl
@[simp] theorem raise_doutlen (v : Word) (r : Reason) (s : State) : (raise v r s).doutlen = 0 := rfl
@[simp] theorem raise_ctr (v : Word) (r : Reason) (s : State) : (raise v r s).ctr = s.ctr := rfl
@[simp] theorem raise_nr (v : Word) (r : Reason) (s : State) : (raise v r s).nr = s.nr := rfl
@[simp] theorem raise_key (v : Word) (r : Reason) (s : State) : (raise v r s).key = s.key := rfl
@[simp] theorem raise_iv (v : Word) (r : Reason) (s : State) : (raise v r s).iv = s.iv := rfl
@[simp] theorem raise_aad (v : Word) (r : Reason) (s : State) : (raise v r s).aad = s.aad := rfl
@[simp] theorem raise_din (v : Word) (r : Reason) (s : State) : (raise v r s).din = s.din := rfl
@[simp] theorem raise_dout (v : Word) (r : Reason) (s : State) : (raise v r s).dout = s.dout := rfl
@[simp] theorem raise_rk (v : Word) (r : Reason) (s : State) : (raise v r s).rk = s.rk := rfl
@[simp] theorem raise_params (v : Word) (r : Reason) (s : State) : (raise v r s).params = s.params := rfl
@[simp] theorem raise_entropy (v : Word) (r : Reason) (s : State) : (raise v r s).entropy = s.entropy := rfl
@[simp] theorem raise_drawn (v : Word) (r : Reason) (s : State) : (raise v r s).drawn = s.drawn := rfl
@[simp] theorem raise_pending (v : Word) (r : Reason) (s : State) : (raise v r s).pending = s.pending := rfl
@[simp] theorem raise_observed (v : Word) (r : Reason) (s : State) : (raise v r s).observed = s.observed := rfl

/-! ## The draw -/

@[simp] theorem afterDraw_cmd (n : Nat) (s : State) : (s.afterDraw n).cmd = s.cmd := rfl
@[simp] theorem afterDraw_err (n : Nat) (s : State) : (s.afterDraw n).err = s.err := rfl
@[simp] theorem afterDraw_padok (n : Nat) (s : State) : (s.afterDraw n).padok = s.padok := rfl
@[simp] theorem afterDraw_rkv (n : Nat) (s : State) : (s.afterDraw n).rkv = s.rkv := rfl
@[simp] theorem afterDraw_errinfo (n : Nat) (s : State) : (s.afterDraw n).errinfo = s.errinfo := rfl
@[simp] theorem afterDraw_klen (n : Nat) (s : State) : (s.afterDraw n).klen = s.klen := rfl
@[simp] theorem afterDraw_ivlen (n : Nat) (s : State) : (s.afterDraw n).ivlen = s.ivlen := rfl
@[simp] theorem afterDraw_aadlen (n : Nat) (s : State) : (s.afterDraw n).aadlen = s.aadlen := rfl
@[simp] theorem afterDraw_dinlen (n : Nat) (s : State) : (s.afterDraw n).dinlen = s.dinlen := rfl
@[simp] theorem afterDraw_doutlen (n : Nat) (s : State) : (s.afterDraw n).doutlen = s.doutlen := rfl
@[simp] theorem afterDraw_ctr (n : Nat) (s : State) : (s.afterDraw n).ctr = s.ctr := rfl
@[simp] theorem afterDraw_nr (n : Nat) (s : State) : (s.afterDraw n).nr = s.nr := rfl
@[simp] theorem afterDraw_key (n : Nat) (s : State) : (s.afterDraw n).key = s.key := rfl
@[simp] theorem afterDraw_iv (n : Nat) (s : State) : (s.afterDraw n).iv = s.iv := rfl
@[simp] theorem afterDraw_aad (n : Nat) (s : State) : (s.afterDraw n).aad = s.aad := rfl
@[simp] theorem afterDraw_din (n : Nat) (s : State) : (s.afterDraw n).din = s.din := rfl
@[simp] theorem afterDraw_dout (n : Nat) (s : State) : (s.afterDraw n).dout = s.dout := rfl
@[simp] theorem afterDraw_rk (n : Nat) (s : State) : (s.afterDraw n).rk = s.rk := rfl
@[simp] theorem afterDraw_params (n : Nat) (s : State) : (s.afterDraw n).params = s.params := rfl
@[simp] theorem afterDraw_entropy (n : Nat) (s : State) : (s.afterDraw n).entropy = s.entropy.drop n := rfl
@[simp] theorem afterDraw_drawn (n : Nat) (s : State) : (s.afterDraw n).drawn = s.drawn + (n - s.entropy.length) := rfl
@[simp] theorem afterDraw_pending (n : Nat) (s : State) : (s.afterDraw n).pending = s.pending := rfl
@[simp] theorem afterDraw_observed (n : Nat) (s : State) : (s.afterDraw n).observed = s.observed := rfl

/-! ## The reset event -/

@[simp] theorem resetCore_cmd  (s : State) : (s.resetCore).cmd = 0 := rfl
@[simp] theorem resetCore_err  (s : State) : (s.resetCore).err = .ok := rfl
@[simp] theorem resetCore_padok  (s : State) : (s.resetCore).padok = false := rfl
@[simp] theorem resetCore_rkv  (s : State) : (s.resetCore).rkv = false := rfl
@[simp] theorem resetCore_errinfo  (s : State) : (s.resetCore).errinfo = 0 := rfl
@[simp] theorem resetCore_klen  (s : State) : (s.resetCore).klen = 0 := rfl
@[simp] theorem resetCore_ivlen  (s : State) : (s.resetCore).ivlen = 0 := rfl
@[simp] theorem resetCore_aadlen  (s : State) : (s.resetCore).aadlen = 0 := rfl
@[simp] theorem resetCore_dinlen  (s : State) : (s.resetCore).dinlen = 0 := rfl
@[simp] theorem resetCore_doutlen  (s : State) : (s.resetCore).doutlen = 0 := rfl
@[simp] theorem resetCore_ctr  (s : State) : (s.resetCore).ctr = 0 := rfl
@[simp] theorem resetCore_nr  (s : State) : (s.resetCore).nr = 0 := rfl
@[simp] theorem resetCore_key  (s : State) : (s.resetCore).key = [] := rfl
@[simp] theorem resetCore_iv  (s : State) : (s.resetCore).iv = [] := rfl
@[simp] theorem resetCore_aad  (s : State) : (s.resetCore).aad = [] := rfl
@[simp] theorem resetCore_din  (s : State) : (s.resetCore).din = [] := rfl
@[simp] theorem resetCore_dout  (s : State) : (s.resetCore).dout = [] := rfl
@[simp] theorem resetCore_rk  (s : State) : (s.resetCore).rk = [] := rfl
@[simp] theorem resetCore_params  (s : State) : (s.resetCore).params = s.params := rfl
@[simp] theorem resetCore_entropy  (s : State) : (s.resetCore).entropy = s.entropy := rfl
@[simp] theorem resetCore_drawn  (s : State) : (s.resetCore).drawn = s.drawn := rfl
@[simp] theorem resetCore_pending  (s : State) : (s.resetCore).pending = s.pending := rfl
@[simp] theorem resetCore_observed  (s : State) : (s.resetCore).observed = s.observed := rfl

/-! ## Writing a buffer: that buffer changes, every other field stays -/

@[simp] theorem setBuf_cmd (s : State) (b : BufId) (m : Memory) : (s.setBuf b m).cmd = s.cmd := by cases b <;> rfl
@[simp] theorem bufWrite_cmd (s : State) (b : BufId) (off : Nat) (x : Bytes) : (s.bufWrite b off x).cmd = s.cmd :=
  setBuf_cmd s b _
@[simp] theorem setBuf_err (s : State) (b : BufId) (m : Memory) : (s.setBuf b m).err = s.err := by cases b <;> rfl
@[simp] theorem bufWrite_err (s : State) (b : BufId) (off : Nat) (x : Bytes) : (s.bufWrite b off x).err = s.err :=
  setBuf_err s b _
@[simp] theorem setBuf_padok (s : State) (b : BufId) (m : Memory) : (s.setBuf b m).padok = s.padok := by cases b <;> rfl
@[simp] theorem bufWrite_padok (s : State) (b : BufId) (off : Nat) (x : Bytes) : (s.bufWrite b off x).padok = s.padok :=
  setBuf_padok s b _
@[simp] theorem setBuf_rkv (s : State) (b : BufId) (m : Memory) : (s.setBuf b m).rkv = s.rkv := by cases b <;> rfl
@[simp] theorem bufWrite_rkv (s : State) (b : BufId) (off : Nat) (x : Bytes) : (s.bufWrite b off x).rkv = s.rkv :=
  setBuf_rkv s b _
@[simp] theorem setBuf_errinfo (s : State) (b : BufId) (m : Memory) : (s.setBuf b m).errinfo = s.errinfo := by cases b <;> rfl
@[simp] theorem bufWrite_errinfo (s : State) (b : BufId) (off : Nat) (x : Bytes) : (s.bufWrite b off x).errinfo = s.errinfo :=
  setBuf_errinfo s b _
@[simp] theorem setBuf_klen (s : State) (b : BufId) (m : Memory) : (s.setBuf b m).klen = s.klen := by cases b <;> rfl
@[simp] theorem bufWrite_klen (s : State) (b : BufId) (off : Nat) (x : Bytes) : (s.bufWrite b off x).klen = s.klen :=
  setBuf_klen s b _
@[simp] theorem setBuf_ivlen (s : State) (b : BufId) (m : Memory) : (s.setBuf b m).ivlen = s.ivlen := by cases b <;> rfl
@[simp] theorem bufWrite_ivlen (s : State) (b : BufId) (off : Nat) (x : Bytes) : (s.bufWrite b off x).ivlen = s.ivlen :=
  setBuf_ivlen s b _
@[simp] theorem setBuf_aadlen (s : State) (b : BufId) (m : Memory) : (s.setBuf b m).aadlen = s.aadlen := by cases b <;> rfl
@[simp] theorem bufWrite_aadlen (s : State) (b : BufId) (off : Nat) (x : Bytes) : (s.bufWrite b off x).aadlen = s.aadlen :=
  setBuf_aadlen s b _
@[simp] theorem setBuf_dinlen (s : State) (b : BufId) (m : Memory) : (s.setBuf b m).dinlen = s.dinlen := by cases b <;> rfl
@[simp] theorem bufWrite_dinlen (s : State) (b : BufId) (off : Nat) (x : Bytes) : (s.bufWrite b off x).dinlen = s.dinlen :=
  setBuf_dinlen s b _
@[simp] theorem setBuf_doutlen (s : State) (b : BufId) (m : Memory) : (s.setBuf b m).doutlen = s.doutlen := by cases b <;> rfl
@[simp] theorem bufWrite_doutlen (s : State) (b : BufId) (off : Nat) (x : Bytes) : (s.bufWrite b off x).doutlen = s.doutlen :=
  setBuf_doutlen s b _
@[simp] theorem setBuf_ctr (s : State) (b : BufId) (m : Memory) : (s.setBuf b m).ctr = s.ctr := by cases b <;> rfl
@[simp] theorem bufWrite_ctr (s : State) (b : BufId) (off : Nat) (x : Bytes) : (s.bufWrite b off x).ctr = s.ctr :=
  setBuf_ctr s b _
@[simp] theorem setBuf_nr (s : State) (b : BufId) (m : Memory) : (s.setBuf b m).nr = s.nr := by cases b <;> rfl
@[simp] theorem bufWrite_nr (s : State) (b : BufId) (off : Nat) (x : Bytes) : (s.bufWrite b off x).nr = s.nr :=
  setBuf_nr s b _
@[simp] theorem setBuf_params (s : State) (b : BufId) (m : Memory) : (s.setBuf b m).params = s.params := by cases b <;> rfl
@[simp] theorem bufWrite_params (s : State) (b : BufId) (off : Nat) (x : Bytes) : (s.bufWrite b off x).params = s.params :=
  setBuf_params s b _
@[simp] theorem setBuf_entropy (s : State) (b : BufId) (m : Memory) : (s.setBuf b m).entropy = s.entropy := by cases b <;> rfl
@[simp] theorem bufWrite_entropy (s : State) (b : BufId) (off : Nat) (x : Bytes) : (s.bufWrite b off x).entropy = s.entropy :=
  setBuf_entropy s b _
@[simp] theorem setBuf_drawn (s : State) (b : BufId) (m : Memory) : (s.setBuf b m).drawn = s.drawn := by cases b <;> rfl
@[simp] theorem bufWrite_drawn (s : State) (b : BufId) (off : Nat) (x : Bytes) : (s.bufWrite b off x).drawn = s.drawn :=
  setBuf_drawn s b _
@[simp] theorem setBuf_pending (s : State) (b : BufId) (m : Memory) : (s.setBuf b m).pending = s.pending := by cases b <;> rfl
@[simp] theorem bufWrite_pending (s : State) (b : BufId) (off : Nat) (x : Bytes) : (s.bufWrite b off x).pending = s.pending :=
  setBuf_pending s b _
@[simp] theorem setBuf_observed (s : State) (b : BufId) (m : Memory) : (s.setBuf b m).observed = s.observed := by cases b <;> rfl
@[simp] theorem bufWrite_observed (s : State) (b : BufId) (off : Nat) (x : Bytes) : (s.bufWrite b off x).observed = s.observed :=
  setBuf_observed s b _

@[simp] theorem setBuf_buf_self (s : State) (b : BufId) (m : Memory) : (s.setBuf b m).buf b = m := by cases b <;> rfl

theorem setBuf_buf_of_ne (s : State) {b c : BufId} (m : Memory) (h : c ≠ b) : (s.setBuf b m).buf c = s.buf c := by
  cases b <;> cases c <;> first | rfl | exact absurd rfl h

theorem setBuf_buf (s : State) (b c : BufId) (m : Memory) :
    (s.setBuf b m).buf c = if c = b then m else s.buf c := by
  by_cases h : c = b
  · subst h; simp
  · rw [if_neg h, setBuf_buf_of_ne s m h]

theorem bufWrite_buf (s : State) (b c : BufId) (off : Nat) (x : Bytes) :
    (s.bufWrite b off x).buf c = if c = b then (s.buf b).write off x else s.buf c := setBuf_buf s b c _

@[simp] theorem bufWrite_buf_self (s : State) (b : BufId) (off : Nat) (x : Bytes) :
    (s.bufWrite b off x).buf b = (s.buf b).write off x := setBuf_buf_self s b _

@[simp] theorem buf_key (s : State) : s.buf .key = s.key := rfl
@[simp] theorem buf_iv (s : State) : s.buf .iv = s.iv := rfl
@[simp] theorem buf_aad (s : State) : s.buf .aad = s.aad := rfl
@[simp] theorem buf_din (s : State) : s.buf .din = s.din := rfl
@[simp] theorem buf_dout (s : State) : s.buf .dout = s.dout := rfl
@[simp] theorem buf_rk (s : State) : s.buf .rk = s.rk := rfl
@[simp] theorem finish_buf (n : Nat) (p : Bool) (s : State) (b : BufId) : (finish n p s).buf b = s.buf b := by cases b <;> rfl
@[simp] theorem raise_buf (v : Word) (r : Reason) (s : State) (b : BufId) : (raise v r s).buf b = s.buf b := by cases b <;> rfl
@[simp] theorem afterDraw_buf (n : Nat) (s : State) (b : BufId) : (s.afterDraw n).buf b = s.buf b := by cases b <;> rfl
@[simp] theorem resetCore_buf (s : State) (b : BufId) : s.resetCore.buf b = [] := by cases b <;> rfl

@[simp] theorem bufWrite_key_key (s : State) (off : Nat) (x : Bytes) : (s.bufWrite .key off x).key = s.key.write off x := rfl
@[simp] theorem bufWrite_key_iv (s : State) (off : Nat) (x : Bytes) : (s.bufWrite .key off x).iv = s.iv := rfl
@[simp] theorem bufWrite_key_aad (s : State) (off : Nat) (x : Bytes) : (s.bufWrite .key off x).aad = s.aad := rfl
@[simp] theorem bufWrite_key_din (s : State) (off : Nat) (x : Bytes) : (s.bufWrite .key off x).din = s.din := rfl
@[simp] theorem bufWrite_key_dout (s : State) (off : Nat) (x : Bytes) : (s.bufWrite .key off x).dout = s.dout := rfl
@[simp] theorem bufWrite_key_rk (s : State) (off : Nat) (x : Bytes) : (s.bufWrite .key off x).rk = s.rk := rfl
@[simp] theorem bufWrite_iv_key (s : State) (off : Nat) (x : Bytes) : (s.bufWrite .iv off x).key = s.key := rfl
@[simp] theorem bufWrite_iv_iv (s : State) (off : Nat) (x : Bytes) : (s.bufWrite .iv off x).iv = s.iv.write off x := rfl
@[simp] theorem bufWrite_iv_aad (s : State) (off : Nat) (x : Bytes) : (s.bufWrite .iv off x).aad = s.aad := rfl
@[simp] theorem bufWrite_iv_din (s : State) (off : Nat) (x : Bytes) : (s.bufWrite .iv off x).din = s.din := rfl
@[simp] theorem bufWrite_iv_dout (s : State) (off : Nat) (x : Bytes) : (s.bufWrite .iv off x).dout = s.dout := rfl
@[simp] theorem bufWrite_iv_rk (s : State) (off : Nat) (x : Bytes) : (s.bufWrite .iv off x).rk = s.rk := rfl
@[simp] theorem bufWrite_aad_key (s : State) (off : Nat) (x : Bytes) : (s.bufWrite .aad off x).key = s.key := rfl
@[simp] theorem bufWrite_aad_iv (s : State) (off : Nat) (x : Bytes) : (s.bufWrite .aad off x).iv = s.iv := rfl
@[simp] theorem bufWrite_aad_aad (s : State) (off : Nat) (x : Bytes) : (s.bufWrite .aad off x).aad = s.aad.write off x := rfl
@[simp] theorem bufWrite_aad_din (s : State) (off : Nat) (x : Bytes) : (s.bufWrite .aad off x).din = s.din := rfl
@[simp] theorem bufWrite_aad_dout (s : State) (off : Nat) (x : Bytes) : (s.bufWrite .aad off x).dout = s.dout := rfl
@[simp] theorem bufWrite_aad_rk (s : State) (off : Nat) (x : Bytes) : (s.bufWrite .aad off x).rk = s.rk := rfl
@[simp] theorem bufWrite_din_key (s : State) (off : Nat) (x : Bytes) : (s.bufWrite .din off x).key = s.key := rfl
@[simp] theorem bufWrite_din_iv (s : State) (off : Nat) (x : Bytes) : (s.bufWrite .din off x).iv = s.iv := rfl
@[simp] theorem bufWrite_din_aad (s : State) (off : Nat) (x : Bytes) : (s.bufWrite .din off x).aad = s.aad := rfl
@[simp] theorem bufWrite_din_din (s : State) (off : Nat) (x : Bytes) : (s.bufWrite .din off x).din = s.din.write off x := rfl
@[simp] theorem bufWrite_din_dout (s : State) (off : Nat) (x : Bytes) : (s.bufWrite .din off x).dout = s.dout := rfl
@[simp] theorem bufWrite_din_rk (s : State) (off : Nat) (x : Bytes) : (s.bufWrite .din off x).rk = s.rk := rfl
@[simp] theorem bufWrite_dout_key (s : State) (off : Nat) (x : Bytes) : (s.bufWrite .dout off x).key = s.key := rfl
@[simp] theorem bufWrite_dout_iv (s : State) (off : Nat) (x : Bytes) : (s.bufWrite .dout off x).iv = s.iv := rfl
@[simp] theorem bufWrite_dout_aad (s : State) (off : Nat) (x : Bytes) : (s.bufWrite .dout off x).aad = s.aad := rfl
@[simp] theorem bufWrite_dout_din (s : State) (off : Nat) (x : Bytes) : (s.bufWrite .dout off x).din = s.din := rfl
@[simp] theorem bufWrite_dout_dout (s : State) (off : Nat) (x : Bytes) : (s.bufWrite .dout off x).dout = s.dout.write off x := rfl
@[simp] theorem bufWrite_dout_rk (s : State) (off : Nat) (x : Bytes) : (s.bufWrite .dout off x).rk = s.rk := rfl
@[simp] theorem bufWrite_rk_key (s : State) (off : Nat) (x : Bytes) : (s.bufWrite .rk off x).key = s.key := rfl
@[simp] theorem bufWrite_rk_iv (s : State) (off : Nat) (x : Bytes) : (s.bufWrite .rk off x).iv = s.iv := rfl
@[simp] theorem bufWrite_rk_aad (s : State) (off : Nat) (x : Bytes) : (s.bufWrite .rk off x).aad = s.aad := rfl
@[simp] theorem bufWrite_rk_din (s : State) (off : Nat) (x : Bytes) : (s.bufWrite .rk off x).din = s.din := rfl
@[simp] theorem bufWrite_rk_dout (s : State) (off : Nat) (x : Bytes) : (s.bufWrite .rk off x).dout = s.dout := rfl
@[simp] theorem bufWrite_rk_rk (s : State) (off : Nat) (x : Bytes) : (s.bufWrite .rk off x).rk = s.rk.write off x := rfl

/-! ## A command's output -/

@[simp] theorem finishWith_buf_of_ne (out : Bytes) (p : Bool) (s : State) {b : BufId} (h : b ≠ .dout) :
    (finishWith out p s).buf b = s.buf b := by
  unfold finishWith; rw [finish_buf, bufWrite_buf, if_neg h]

@[simp] theorem finishWith_cmd (out : Bytes) (p : Bool) (s : State) : (finishWith out p s).cmd = s.cmd := rfl
@[simp] theorem finishWith_err (out : Bytes) (p : Bool) (s : State) : (finishWith out p s).err = .ok := rfl
@[simp] theorem finishWith_padok (out : Bytes) (p : Bool) (s : State) : (finishWith out p s).padok = p := rfl
@[simp] theorem finishWith_rkv (out : Bytes) (p : Bool) (s : State) : (finishWith out p s).rkv = s.rkv := rfl
@[simp] theorem finishWith_errinfo (out : Bytes) (p : Bool) (s : State) : (finishWith out p s).errinfo = 0 := rfl
@[simp] theorem finishWith_klen (out : Bytes) (p : Bool) (s : State) : (finishWith out p s).klen = s.klen := rfl
@[simp] theorem finishWith_ivlen (out : Bytes) (p : Bool) (s : State) : (finishWith out p s).ivlen = s.ivlen := rfl
@[simp] theorem finishWith_aadlen (out : Bytes) (p : Bool) (s : State) : (finishWith out p s).aadlen = s.aadlen := rfl
@[simp] theorem finishWith_dinlen (out : Bytes) (p : Bool) (s : State) : (finishWith out p s).dinlen = s.dinlen := rfl
@[simp] theorem finishWith_doutlen (out : Bytes) (p : Bool) (s : State) : (finishWith out p s).doutlen = doutlenWord out.length := rfl
@[simp] theorem finishWith_ctr (out : Bytes) (p : Bool) (s : State) : (finishWith out p s).ctr = s.ctr := rfl
@[simp] theorem finishWith_nr (out : Bytes) (p : Bool) (s : State) : (finishWith out p s).nr = s.nr := rfl
@[simp] theorem finishWith_key (out : Bytes) (p : Bool) (s : State) : (finishWith out p s).key = s.key := rfl
@[simp] theorem finishWith_iv (out : Bytes) (p : Bool) (s : State) : (finishWith out p s).iv = s.iv := rfl
@[simp] theorem finishWith_aad (out : Bytes) (p : Bool) (s : State) : (finishWith out p s).aad = s.aad := rfl
@[simp] theorem finishWith_din (out : Bytes) (p : Bool) (s : State) : (finishWith out p s).din = s.din := rfl
@[simp] theorem finishWith_dout (out : Bytes) (p : Bool) (s : State) : (finishWith out p s).dout = s.dout.write 0 out := rfl
@[simp] theorem finishWith_rk (out : Bytes) (p : Bool) (s : State) : (finishWith out p s).rk = s.rk := rfl
@[simp] theorem finishWith_params (out : Bytes) (p : Bool) (s : State) : (finishWith out p s).params = s.params := rfl
@[simp] theorem finishWith_entropy (out : Bytes) (p : Bool) (s : State) : (finishWith out p s).entropy = s.entropy := rfl
@[simp] theorem finishWith_drawn (out : Bytes) (p : Bool) (s : State) : (finishWith out p s).drawn = s.drawn := rfl
@[simp] theorem finishWith_pending (out : Bytes) (p : Bool) (s : State) : (finishWith out p s).pending = s.pending := rfl
@[simp] theorem finishWith_observed (out : Bytes) (p : Bool) (s : State) : (finishWith out p s).observed = s.observed := rfl

end Sys2Proof.Machine
end

