-- ==== Sys2Proof/Laws/Ops.lean ====
section
/-! SUPPORT. What each shared operation can do, said once: buffer reads, the frame of a command, the draw. -/
namespace Sys2Proof.Machine

/-! ## Reading buffers -/

/-- A buffer read gives exactly the bytes the cells hold. -/
theorem bufRead_ok {s : State} {b : BufId} {off n : Nat} {bytes : Bytes} :
    s.bufRead b off n = .ok bytes ↔ bytes.length = n ∧ ∀ i < n, (s.buf b).read (off + i) = bytes[i]? := by
  rw [← Memory.readBytes_ok]
  unfold State.bufRead
  cases (s.buf b).readBytes off n <;> simp

/-- A buffer that holds `bytes` is read as `bytes`. -/
theorem bufRead_of_holds {s : State} {b : BufId} {bytes : Bytes} {n : Nat} (h : s.holds b bytes) (hn : bytes.length = n) :
    s.bufRead b 0 n = .ok bytes :=
  bufRead_ok.2 ⟨hn, fun i hi => by simpa using h i (by omega)⟩

/-- A failed buffer read names a cell of the range that holds no value, the first one. -/
theorem bufRead_error {s : State} {b : BufId} {off n : Nat} {f : Fault} (h : s.bufRead b off n = .error f) :
    ∃ i, f = .unwrittenRead b i ∧ off ≤ i ∧ i < off + n ∧ (s.buf b).read i = none ∧
      ∀ j, off ≤ j → j < i → (s.buf b).read j ≠ none := by
  unfold State.bufRead at h
  cases hb : (s.buf b).readBytes off n with
  | ok bytes => simp [hb] at h
  | error i =>
    simp [hb] at h
    exact ⟨i, h.symm, Memory.readBytes_error hb⟩

theorem bufRead_isOk_iff (s : State) (b : BufId) (off n : Nat) :
    (∃ bytes, s.bufRead b off n = .ok bytes) ↔ ∀ i < n, (s.buf b).read (off + i) ≠ none := by
  rw [← Memory.readBytes_isOk_iff]
  unfold State.bufRead
  cases (s.buf b).readBytes off n <;> simp

theorem bufRead_length {s : State} {b : BufId} {off n : Nat} {bytes : Bytes} (h : s.bufRead b off n = .ok bytes) :
    bytes.length = n := (bufRead_ok.1 h).1

/-- A buffer read depends on that buffer only. -/
theorem bufRead_congr {s t : State} {b : BufId} (h : s.buf b = t.buf b) (off n : Nat) :
    s.bufRead b off n = t.bufRead b off n := by unfold State.bufRead; rw [h]

theorem roundKeysFrom_ok {s : State} {j count : Nat} {keys : List Bytes} (h : s.roundKeysFrom j count = .ok keys) :
    keys.length = count ∧ (∀ k ∈ keys, k.length = 16) := by
  induction count generalizing j keys with
  | zero => simp [State.roundKeysFrom] at h; subst h; simp
  | succ count ih =>
    unfold State.roundKeysFrom at h
    cases hk : s.bufRead .rk (16 * j) 16 with
    | error f => simp [hk] at h
    | ok k =>
      cases hr : s.roundKeysFrom (j + 1) count with
      | error f => simp [hk, hr] at h
      | ok ks =>
        simp [hk, hr] at h; subst h
        obtain ⟨h1, h2⟩ := ih hr
        exact ⟨by simp [h1], by simpa [bufRead_length hk] using h2⟩

/-- Round keys read are the bytes the store holds. -/
theorem roundKeysFrom_cells {s : State} {j count : Nat} {keys : List Bytes} (h : s.roundKeysFrom j count = .ok keys) :
    ∀ i < keys.flatten.length, (s.buf .rk).read (16 * j + i) = keys.flatten[i]? := by
  induction count generalizing j keys with
  | zero => simp [State.roundKeysFrom] at h; subst h; simp
  | succ count ih =>
    unfold State.roundKeysFrom at h
    cases hk : s.bufRead .rk (16 * j) 16 with
    | error f => simp [hk] at h
    | ok k =>
      cases hr : s.roundKeysFrom (j + 1) count with
      | error f => simp [hk, hr] at h
      | ok ks =>
        simp [hk, hr] at h; subst h
        obtain ⟨hl, hc⟩ := bufRead_ok.1 hk
        intro i hi
        rw [List.flatten_cons] at hi ⊢
        by_cases hlt : i < 16
        · rw [List.getElem?_append_left (by omega)]; exact hc i hlt
        · rw [List.getElem?_append_right (by omega), hl]
          have := ih hr (i - 16) (by rw [List.length_append] at hi; omega)
          rwa [show 16 * (j + 1) + (i - 16) = 16 * j + i by omega] at this

/-- Round keys the store holds are read as they are. -/
theorem roundKeysFrom_of_cells {s : State} {j : Nat} {keys : List Bytes} (hk : ∀ k ∈ keys, k.length = 16)
    (h : ∀ i < keys.flatten.length, (s.buf .rk).read (16 * j + i) = keys.flatten[i]?) :
    s.roundKeysFrom j keys.length = .ok keys := by
  induction keys generalizing j with
  | nil => rfl
  | cons k ks ih =>
    have hk0 : k.length = 16 := hk k (by simp)
    have h1 : s.bufRead .rk (16 * j) 16 = .ok k := bufRead_ok.2 ⟨hk0, fun i hi => by
      rw [h i (by simp; omega), List.flatten_cons, List.getElem?_append_left (by omega)]⟩
    have h2 : s.roundKeysFrom (j + 1) ks.length = .ok ks := ih (fun k' hk' => hk k' (by simp [hk'])) (fun i hi => by
      have := h (16 + i) (by rw [List.flatten_cons, List.length_append]; omega)
      rw [List.flatten_cons, List.getElem?_append_right (by omega), hk0, Nat.add_sub_cancel_left] at this
      rw [show 16 * (j + 1) + i = 16 * j + (16 + i) by omega, this])
    simp [State.roundKeysFrom, h1, h2]

theorem roundKeysOperand_of_holds {s : State} {nr : Nat} {keys : List Bytes} (h : s.holdsKeys nr keys) :
    s.roundKeysOperand nr = .ok keys := by
  obtain ⟨h1, h2, h3⟩ := h
  unfold State.roundKeysOperand
  rw [← h1]
  exact roundKeysFrom_of_cells h2 (fun i hi => by simpa using h3 i hi)

/-- A failed read of round keys names an unwritten cell of the store. -/
theorem roundKeysFrom_error {s : State} {j count : Nat} {f : Fault} (h : s.roundKeysFrom j count = .error f) :
    ∃ i, f = .unwrittenRead .rk i ∧ 16 * j ≤ i ∧ i < 16 * (j + count) ∧ s.rk.read i = none := by
  induction count generalizing j with
  | zero => simp [State.roundKeysFrom] at h
  | succ count ih =>
    unfold State.roundKeysFrom at h
    cases hk : s.bufRead .rk (16 * j) 16 with
    | error e =>
      simp [hk] at h; subst h
      obtain ⟨i, h1, h2, h3, h4, _⟩ := bufRead_error hk
      exact ⟨i, h1, h2, by omega, h4⟩
    | ok k =>
      cases hr : s.roundKeysFrom (j + 1) count with
      | ok ks => simp [hk, hr] at h
      | error e =>
        simp [hk, hr] at h; subst h
        obtain ⟨i, h1, h2, h3, h4⟩ := ih hr
        exact ⟨i, h1, by omega, by omega, h4⟩

theorem roundKeysFrom_isOk {s : State} {j count : Nat} (h : ∀ i, 16 * j ≤ i → i < 16 * (j + count) → s.rk.read i ≠ none) :
    ∃ keys, s.roundKeysFrom j count = .ok keys := by
  cases hr : s.roundKeysFrom j count with
  | ok keys => exact ⟨keys, rfl⟩
  | error f =>
    obtain ⟨i, _, h1, h2, h3⟩ := roundKeysFrom_error hr
    exact absurd h3 (h i h1 h2)

theorem roundKeysFrom_congr {s t : State} (h : s.rk = t.rk) (j count : Nat) :
    s.roundKeysFrom j count = t.roundKeysFrom j count := by
  induction count generalizing j with
  | zero => rfl
  | succ count ih => simp [State.roundKeysFrom, bufRead_congr (b := .rk) (s := s) (t := t) h, ih]

/-! ## The frame of a command -/

@[simp] theorem firstFailing_nil : firstFailing [] = none := rfl

@[simp] theorem firstFailing_cons (c : Bool) (r : Reason) (rest : List (Bool × Reason)) :
    firstFailing ((c, r) :: rest) = if c then some r else firstFailing rest := rfl

/-- No check fails exactly when every one of them is passed. -/
theorem firstFailing_eq_none {checks : List (Bool × Reason)} :
    firstFailing checks = none ↔ ∀ c ∈ checks, c.1 = false := by
  induction checks with
  | nil => simp
  | cons c rest ih =>
    obtain ⟨b, r⟩ := c
    cases b <;> simp [ih]

/-- The reason reported is one of the checks'. -/
theorem firstFailing_reason {checks : List (Bool × Reason)} {P : Reason → Prop} (h : ∀ c ∈ checks, P c.2) {r : Reason}
    (hf : firstFailing checks = some r) : P r := by
  induction checks with
  | nil => simp at hf
  | cons c rest ih =>
    obtain ⟨b, r'⟩ := c
    cases b with
    | false => exact ih (fun c hc => h c (by simp [hc])) (by simpa using hf)
    | true =>
      have : r' = r := by simpa using hf
      exact this ▸ h (true, r') (by simp)

/-- A command ends in its failure write or, every check passed, in its effect. -/
theorem runCommand_cases (i : Instr) (checks : List (Bool × Reason)) (effect : Host.Outcome State Fault Refusal)
    (s : State) :
    (∃ r, firstFailing checks = some r ∧ runCommand i checks effect s = .next (raise (encode i) r s)) ∨
      ((∀ c ∈ checks, c.1 = false) ∧ runCommand i checks effect s = effect) := by
  unfold runCommand
  cases h : firstFailing checks with
  | some r => exact .inl ⟨r, rfl, rfl⟩
  | none => exact .inr ⟨firstFailing_eq_none.1 h, rfl⟩

theorem runCommand_of_pass {i : Instr} {checks : List (Bool × Reason)} (h : ∀ c ∈ checks, c.1 = false)
    (effect : Host.Outcome State Fault Refusal) (s : State) : runCommand i checks effect s = effect := by
  unfold runCommand; rw [firstFailing_eq_none.2 h]

theorem runCommand_of_fail {i : Instr} {checks : List (Bool × Reason)} {r : Reason} (h : firstFailing checks = some r)
    (effect : Host.Outcome State Fault Refusal) (s : State) :
    runCommand i checks effect s = .next (raise (encode i) r s) := by
  unfold runCommand; rw [h]

@[simp] theorem reading_ok {α : Type} (a : α) (k : α → Host.Outcome State Fault Refusal) : reading (.ok a) k = k a := rfl

@[simp] theorem reading_error {α : Type} (f : Fault) (k : α → Host.Outcome State Fault Refusal) :
    reading (.error f) k = .fault f := rfl

/-- What `reading` can do: fault with the read's fault, or go on with what was read. -/
theorem reading_cases {α : Type} (r : Except Fault α) (k : α → Host.Outcome State Fault Refusal) :
    (∃ f, r = .error f ∧ reading r k = .fault f) ∨ (∃ a, r = .ok a ∧ reading r k = k a) := by
  cases r with
  | error f => exact .inl ⟨f, rfl, rfl⟩
  | ok a => exact .inr ⟨a, rfl, rfl⟩

/-- If a read goes on to a next state, the read succeeded. -/
theorem reading_next {α : Type} {r : Except Fault α} {k : α → Host.Outcome State Fault Refusal} {t : State}
    (h : reading r k = .next t) : ∃ a, r = .ok a ∧ k a = .next t := by
  cases r with
  | error f => simp at h
  | ok a => exact ⟨a, rfl, h⟩

/-- A command run in a changed state in which its checks read the same ends in the same way, changed alike. -/
theorem runCommand_onNext {i : Instr} {checks checks' : List (Bool × Reason)} {o o' : Host.Outcome State Fault Refusal}
    {s : State} (f : State → State) (hc : checks' = checks)
    (hr : ∀ r, raise (encode i) r (f s) = f (raise (encode i) r s)) (ho : o' = onNext f o) :
    runCommand i checks' o' (f s) = onNext f (runCommand i checks o s) := by
  unfold runCommand
  rw [hc]
  cases firstFailing checks with
  | none => exact ho
  | some r => exact congrArg Host.Outcome.next (hr r)

/-- A read that gives the same in both states, then a rest that is changed alike. -/
theorem reading_onNext {α : Type} {r r' : Except Fault α} {k k' : α → Host.Outcome State Fault Refusal} (f : State → State)
    (h : r' = r) (hk : ∀ a, k' a = onNext f (k a)) : reading r' k' = onNext f (reading r k) := by
  rw [h]
  cases r with
  | error e => rfl
  | ok a => exact hk a

/-! ## The draw -/

/-- Every draw returns exactly `n` bytes (47_control R500). -/
@[simp] theorem drawBytes_length (s : State) (n : Nat) : (s.drawBytes n).length = n := by
  simp [State.drawBytes]; omega

/-- Bytes given from outside are drawn in order. -/
theorem drawBytes_of_given {s : State} {n : Nat} (h : n ≤ s.entropy.length) : s.drawBytes n = s.entropy.take n := by
  simp [State.drawBytes, Nat.sub_eq_zero_of_le h]

end Sys2Proof.Machine
end

