-- ==== Sys2Proof/Laws/Exec.lean ====
section
/-! SUPPORT. Everything a command can do, said once: fail with a report, fault on an unwritten operand, or succeed. -/
namespace Sys2Proof.Machine

/-- What the state after a success of `i` in `s` is. -/
def Succeeds (i : Instr) (s t : State) : Prop :=
  match i with
  | .nop => t = finish 0 false s
  | .aesExpand nrf => ∃ key : Bytes, (s.klen.toNat, nrf) ∈ [(16, 10), (24, 12), (32, 14)] ∧
      key.length = s.klen.toNat ∧ s.holds .key key ∧
      t = finish 0 false
        { s.bufWrite .rk 0 (roundKeys key).flatten with nr := BitVec.ofNat 32 nrf, rkv := true }
  | .genKey alg => ∃ n, (alg, n) ∈ [(1, 16), (2, 24), (3, 32), (4, 32), (5, 16), (6, 24)] ∧
      t = finish 0 false { (s.afterDraw n).bufWrite .key 0 (s.drawBytes n) with klen := BitVec.ofNat 32 n }
  | .genNonce alg => ∃ n, (alg, n) ∈ [(1, 12), (2, 12), (3, 12), (4, 12), (5, 8), (6, 8)] ∧
      t = finish 0 false { (s.afterDraw n).bufWrite .iv 0 (s.drawBytes n) with ivlen := BitVec.ofNat 32 n }
  | i => ∃ (out : Bytes) (p : Bool), (out.length ≤ 64 ∨ out.length ≤ s.dinlen.toNat + 16) ∧
      (out.length ≤ 64 ∨ out.length ≤ s.params.dataMax + 16) ∧
      (p = true → i = .tdesCbcDec ∨ i = .pkcs5Unpad) ∧ t = finishWith out p s

/-- Reading an operand buffer: the fault of its first unwritten cell, or its bytes. -/
theorem reading_operand (s : State) (b : BufId) (n : Nat) (k : Bytes → Host.Outcome State Fault Refusal) :
    (∃ j < n, (s.buf b).read j = none ∧ reading (s.bufRead b 0 n) k = .fault (.unwrittenRead b j)) ∨
      ∃ bytes : Bytes, bytes.length = n ∧ s.holds b bytes ∧ s.written b n ∧ reading (s.bufRead b 0 n) k = k bytes := by
  rcases reading_cases (s.bufRead b 0 n) k with ⟨f, hf, hr⟩ | ⟨bytes, hb, hr⟩
  · obtain ⟨j, rfl, _, hj, hn, _⟩ := bufRead_error hf
    exact .inl ⟨j, by omega, hn, hr⟩
  · obtain ⟨hl, hc⟩ := bufRead_ok.1 hb
    simp only [Nat.zero_add] at hc
    refine .inr ⟨bytes, hl, fun i hi => hc i (by omega), fun i hi => ?_, hr⟩
    rw [hc i hi]; simp [hl, hi]

/-- Reading the round keys: the fault of an unwritten cell, or `nr + 1` keys of 16 bytes. -/
theorem reading_roundKeys (s : State) (nr : Nat) (k : List Bytes → Host.Outcome State Fault Refusal) :
    (∃ j < 16 * (nr + 1), (s.buf .rk).read j = none ∧
        reading (s.roundKeysOperand nr) k = .fault (.unwrittenRead .rk j)) ∨
      ∃ keys : List Bytes, s.holdsKeys nr keys ∧ s.written .rk (16 * (nr + 1)) ∧
        reading (s.roundKeysOperand nr) k = k keys := by
  rcases reading_cases (s.roundKeysOperand nr) k with ⟨f, hf, hr⟩ | ⟨keys, hk, hr⟩
  · obtain ⟨j, rfl, _, hj, hn⟩ := roundKeysFrom_error hf
    exact .inl ⟨j, by omega, hn, hr⟩
  · obtain ⟨h1, h2⟩ := roundKeysFrom_ok hk
    have hl : keys.flatten.length = 16 * (nr + 1) := by rw [flatten_length_of_forall h2, h1]
    have hc := roundKeysFrom_cells hk
    simp only [Nat.mul_zero, Nat.zero_add] at hc
    refine .inr ⟨keys, ⟨h1, h2, fun i hi => hc i hi⟩, fun i hi => ?_, hr⟩
    have := hc i (by omega)
    simp only [State.buf] at this ⊢
    rw [this]; simp [hl, hi]

/-- The three ways command `i` can end in `s`, as outcome `o`: the report of a check that failed or, every check passed
and every operand read, of a tag that differs; the fault of an unwritten operand byte, every check passed; its success. -/
def EndsAs (i : Instr) (s : State) (o : Host.Outcome State Fault Refusal) : Prop :=
  (∃ r : Reason, r ≠ .opcode ∧ r ≠ .field ∧ (checksPass i s → r = .tag ∧ operandsWritten i s) ∧
      o = .next (raise (encode i) r s)) ∨
    (checksPass i s ∧
      ∃ bn ∈ operandCells i s, ∃ j < bn.2, (s.buf bn.1).read j = none ∧ o = .fault (.unwrittenRead bn.1 j)) ∨
    ∃ t, checksPass i s ∧ operandsWritten i s ∧ Succeeds i s t ∧ o = .next t

theorem EndsAs.success {i : Instr} {s t : State} (hp : checksPass i s) (hw : operandsWritten i s)
    (hs : Succeeds i s t) : EndsAs i s (.next t) := .inr (.inr ⟨t, hp, hw, hs, rfl⟩)

theorem EndsAs.tagDiffers {i : Instr} {s : State} (hw : operandsWritten i s) :
    EndsAs i s (.next (raise (encode i) .tag s)) := .inl ⟨.tag, by simp, by simp, fun _ => ⟨rfl, hw⟩, rfl⟩

theorem EndsAs.checkFails {i : Instr} {s : State} {r : Reason} (h : r ≠ .opcode ∧ r ≠ .field) (hp : ¬ checksPass i s) :
    EndsAs i s (.next (raise (encode i) r s)) := .inl ⟨r, h.1, h.2, fun h' => absurd h' hp, rfl⟩

/-- A command whose checks are those of its rule ends as its effect does if they pass. -/
theorem EndsAs.run {i : Instr} {s : State} {checks : List (Bool × Reason)} {o : Host.Outcome State Fault Refusal}
    (hr : ∀ c ∈ checks, c.2 ≠ .opcode ∧ c.2 ≠ .field) (hc : (∀ c ∈ checks, c.1 = false) ↔ checksPass i s)
    (h : checksPass i s → EndsAs i s o) : EndsAs i s (runCommand i checks o s) := by
  rcases runCommand_cases i checks o s with ⟨r, hf, he⟩ | ⟨hp, he⟩ <;> rw [he]
  · refine .checkFails (firstFailing_reason (P := fun r => r ≠ .opcode ∧ r ≠ .field) hr hf) fun hp => ?_
    rw [firstFailing_eq_none.2 (hc.2 hp)] at hf
    exact absurd hf (by simp)
  · exact h (hc.1 hp)

/-- A read of an operand buffer, then the rest. -/
theorem EndsAs.operand {i : Instr} {s : State} {b : BufId} {n : Nat} {k : Bytes → Host.Outcome State Fault Refusal}
    (hp : checksPass i s) (hm : (b, n) ∈ operandCells i s)
    (h : ∀ bytes : Bytes, bytes.length = n → s.holds b bytes → s.written b n → EndsAs i s (k bytes)) :
    EndsAs i s (reading (s.bufRead b 0 n) k) := by
  rcases reading_operand s b n k with ⟨j, hj, hn, he⟩ | ⟨bytes, hl, hh, hw, he⟩
  · rw [he]; exact .inr (.inl ⟨hp, (b, n), hm, j, hj, hn, rfl⟩)
  · rw [he]; exact h bytes hl hh hw

/-- The read of the round keys, then the rest. -/
theorem EndsAs.roundKeys {i : Instr} {s : State} {nr : Nat} {k : List Bytes → Host.Outcome State Fault Refusal}
    (hp : checksPass i s) (hm : (.rk, 16 * (nr + 1)) ∈ operandCells i s)
    (h : ∀ keys : List Bytes, s.holdsKeys nr keys → s.written .rk (16 * (nr + 1)) → EndsAs i s (k keys)) :
    EndsAs i s (reading (s.roundKeysOperand nr) k) := by
  rcases reading_roundKeys s nr k with ⟨j, hj, hn, he⟩ | ⟨keys, hk, hw, he⟩
  · rw [he]; exact .inr (.inl ⟨hp, (.rk, 16 * (nr + 1)), hm, j, hj, hn, rfl⟩)
  · rw [he]; exact h keys hk hw

/-! ## Each command -/

theorem nop_ends (s : State) : EndsAs .nop s (exec .nop s) :=
  .success trivial (by simp [operandsWritten, operandCells]) rfl

theorem aesExpand_ends (nrf : Nat) (s : State) : EndsAs (.aesExpand nrf) s (exec (.aesExpand nrf) s) := by
  refine .run (by simp [keylenCheck]) ?_ fun hp => .operand hp (by simp [operandCells]) fun key hl hh hw =>
    .success hp (by simpa [operandsWritten, operandCells] using hw) ⟨key, hp, hl, hh, rfl⟩
  simp only [keylenCheck, checksPass]
  by_cases h : s.klen.toNat = 16 ∨ s.klen.toNat = 24 ∨ s.klen.toNat = 32
  · rcases h with h | h | h <;> (simp [h, rounds]; exact eq_comm)
  · simp; tauto

theorem aesEncBlock_ends (nrf : Nat) (s : State) : EndsAs (.aesEncBlock nrf) s (exec (.aesEncBlock nrf) s) := by
  refine .run (by simp [roundsLegalCheck, rkvCheck, roundsMatchCheck, dinlenExactCheck])
    (by simp [roundsLegalCheck, rkvCheck, roundsMatchCheck, dinlenExactCheck, checksPass,
      eq_comm (a := nrf) (b := s.nr.toNat)]; tauto) fun hp =>
    .roundKeys hp (by simp [operandCells]) fun keys hk hw => .operand hp (by simp [operandCells]) fun blk hl hh hw' => ?_
  refine .success hp (by simpa [operandsWritten, operandCells] using ⟨hw, hw'⟩) ⟨_, _, ?_, ?_, by simp, rfl⟩ <;>
    exact .inl (by rw [encryptBlock_length hk.2.1 (by rw [hk.1]; omega)]; omega)

theorem gcmEnc_ends (nrf : Nat) (s : State) : EndsAs (.gcmEnc nrf) s (exec (.gcmEnc nrf) s) := by
  refine .run (by simp [gcmChecks, roundsLegalCheck, rkvCheck, roundsMatchCheck, ivlenCheck, aadlenCheck, dinlenMaxCheck])
    (by simp [gcmChecks, roundsLegalCheck, rkvCheck, roundsMatchCheck, ivlenCheck, aadlenCheck, dinlenMaxCheck,
      checksPass, eq_comm (a := nrf) (b := s.nr.toNat)]; tauto)
    fun hp => .roundKeys hp (by simp [operandCells]) fun keys hk hw1 => .operand hp (by simp [operandCells])
      fun iv hiv _ hw2 => .operand hp (by simp [operandCells]) fun a ha _ hw3 => .operand hp (by simp [operandCells])
        fun p hpl _ hw4 => ?_
  have hnr : nrf < keys.length := by rw [hk.1]; omega
  have hlen : (gctr keys nrf (gcmJ0 iv) p ++ gcmTag keys nrf iv a (gctr keys nrf (gcmJ0 iv) p)).length
      = s.dinlen.toNat + 16 := by
    rw [List.length_append, gctr_length hk.2.1 hnr, gcmTag_length hk.2.1 hnr, hpl]
  obtain ⟨-, -, -, -, -, hmax⟩ := id hp
  refine .success hp (by simpa [operandsWritten, operandCells] using ⟨hw1, hw2, hw3, hw4⟩) ⟨_, _, ?_, ?_, by simp, rfl⟩ <;>
    exact .inr (by simp only [gcmSeal]; omega)

theorem gcmDec_ends (nrf : Nat) (s : State) : EndsAs (.gcmDec nrf) s (exec (.gcmDec nrf) s) := by
  refine .run (by simp [gcmChecks, roundsLegalCheck, rkvCheck, roundsMatchCheck, ivlenCheck, aadlenCheck, dinlenTaggedCheck])
    (by simp [gcmChecks, roundsLegalCheck, rkvCheck, roundsMatchCheck, ivlenCheck, aadlenCheck, dinlenTaggedCheck,
      checksPass, eq_comm (a := nrf) (b := s.nr.toNat)]; tauto)
    fun hp => .roundKeys hp (by simp [operandCells]) fun keys hk hw1 => .operand hp (by simp [operandCells])
      fun iv hiv _ hw2 => .operand hp (by simp [operandCells]) fun a ha _ hw3 => .operand hp (by simp [operandCells])
        fun d hd _ hw4 => ?_
  have hw : operandsWritten (.gcmDec nrf) s := by simpa [operandsWritten, operandCells] using ⟨hw1, hw2, hw3, hw4⟩
  have hnr : nrf < keys.length := by rw [hk.1]; omega
  unfold gcmOpen
  split_ifs
  · obtain ⟨-, -, -, -, -, hmin, hmax⟩ := id hp
    refine .success hp hw ⟨_, _, ?_, ?_, by simp, rfl⟩ <;>
      exact .inr (by rw [gctr_length hk.2.1 hnr, List.length_take, hd]; omega)
  · exact .tagDiffers hw

theorem chacha20Block_ends (s : State) : EndsAs .chacha20Block s (exec .chacha20Block s) := by
  refine .run (by simp [keylenCheck, ivlenCheck]) (by simp [keylenCheck, ivlenCheck, checksPass])
    fun hp => .operand hp (by simp [operandCells]) fun k hk _ hw1 => .operand hp (by simp [operandCells]) fun n hn _ hw2 => ?_
  obtain ⟨h1, h2⟩ := id hp
  refine .success hp (by simpa [operandsWritten, operandCells] using ⟨hw1, hw2⟩) ⟨_, _, ?_, ?_, by simp, rfl⟩ <;>
    exact .inl (by rw [chachaBlock_length (by omega) (by omega)])

theorem chacha20Xor_ends (s : State) : EndsAs .chacha20Xor s (exec .chacha20Xor s) := by
  refine .run (by simp [keylenCheck, ivlenCheck, dinlenMaxCheck])
    (by simp [keylenCheck, ivlenCheck, dinlenMaxCheck, checksPass])
    fun hp => .operand hp (by simp [operandCells]) fun k hk _ hw1 => .operand hp (by simp [operandCells])
      fun n hn _ hw2 => .operand hp (by simp [operandCells]) fun d hd _ hw3 => ?_
  obtain ⟨h1, h2, h3⟩ := id hp
  refine .success hp (by simpa [operandsWritten, operandCells] using ⟨hw1, hw2, hw3⟩) ⟨_, _, ?_, ?_, by simp, rfl⟩ <;>
    exact .inr (by rw [chachaXor_length (by omega) (by omega)]; omega)

theorem poly1305Mac_ends (s : State) : EndsAs .poly1305Mac s (exec .poly1305Mac s) := by
  refine .run (by simp [keylenCheck, dinlenMaxCheck]) (by simp [keylenCheck, dinlenMaxCheck, checksPass])
    fun hp => .operand hp (by simp [operandCells]) fun k hk _ hw1 => .operand hp (by simp [operandCells]) fun m hm _ hw2 => ?_
  refine .success hp (by simpa [operandsWritten, operandCells] using ⟨hw1, hw2⟩) ⟨_, _, ?_, ?_, by simp, rfl⟩ <;>
    exact .inl (by simp)

theorem c20pEnc_ends (s : State) : EndsAs .c20pEnc s (exec .c20pEnc s) := by
  refine .run (by simp [aeadChecks, keylenCheck, ivlenCheck, aadlenCheck, dinlenMaxCheck])
    (by simp [aeadChecks, keylenCheck, ivlenCheck, aadlenCheck, dinlenMaxCheck, checksPass])
    fun hp => .operand hp (by simp [operandCells]) fun k hk _ hw1 => .operand hp (by simp [operandCells])
      fun n hn _ hw2 => .operand hp (by simp [operandCells]) fun a ha _ hw3 => .operand hp (by simp [operandCells])
        fun p hpl _ hw4 => ?_
  obtain ⟨h1, h2, h3, h4⟩ := id hp
  refine .success hp (by simpa [operandsWritten, operandCells] using ⟨hw1, hw2, hw3, hw4⟩) ⟨_, _, ?_, ?_, by simp, rfl⟩ <;>
    exact .inr (by
      simp only [aeadSeal]
      rw [List.length_append, aeadTag_length, chachaXor_length (by omega) (by omega)]; omega)

theorem c20pDec_ends (s : State) : EndsAs .c20pDec s (exec .c20pDec s) := by
  refine .run (by simp [aeadChecks, keylenCheck, ivlenCheck, aadlenCheck, dinlenTaggedCheck])
    (by simp [aeadChecks, keylenCheck, ivlenCheck, aadlenCheck, dinlenTaggedCheck, checksPass])
    fun hp => .operand hp (by simp [operandCells]) fun d hd _ hw4 => .operand hp (by simp [operandCells])
      fun k hk _ hw1 => .operand hp (by simp [operandCells]) fun n hn _ hw2 => .operand hp (by simp [operandCells])
        fun a ha _ hw3 => ?_
  have hw : operandsWritten .c20pDec s := by simpa [operandsWritten, operandCells] using ⟨hw1, hw2, hw3, hw4⟩
  obtain ⟨h1, h2, h3, h4, h5⟩ := id hp
  unfold aeadOpen
  split_ifs
  · refine .success hp hw ⟨_, _, ?_, ?_, by simp, rfl⟩ <;>
      exact .inr (by rw [chachaXor_length (by omega) (by omega), List.length_take, hd]; omega)
  · exact .tagDiffers hw

/-- The four one-block commands. -/
theorem runBlockCipher_ends {i : Instr} (hi : i ∈ [Instr.desEnc, .desDec, .tdesEnc, .tdesDec]) {klens : List Nat} {s : State}
    (hk : checksPass i s ↔ s.klen.toNat ∈ klens ∧ s.dinlen.toNat = 8) {cipher : Bytes → Bytes → Bytes}
    (hc : ∀ k b, (cipher k b).length = 8) : EndsAs i s (runBlockCipher i klens cipher s) := by
  have hops : operandCells i s = [(.key, s.klen.toNat), (.din, s.dinlen.toNat)] := by
    fin_cases hi <;> rfl
  refine .run (by simp [keylenCheck, dinlenExactCheck]) (by simp [keylenCheck, dinlenExactCheck, hk])
    fun hp => .operand hp (by simp [hops]) fun key _ _ hw1 => .operand hp (by simp [hops]) fun blk _ _ hw2 =>
      .success hp (by simpa [operandsWritten, hops] using ⟨hw1, hw2⟩) ?_
  have : ∃ (out : Bytes) (p : Bool), (out.length ≤ 64 ∨ out.length ≤ s.dinlen.toNat + 16) ∧
      (out.length ≤ 64 ∨ out.length ≤ s.params.dataMax + 16) ∧
      (p = true → i = .tdesCbcDec ∨ i = .pkcs5Unpad) ∧ finishWith (cipher key blk) false s = finishWith out p s :=
    ⟨_, _, .inl (by rw [hc]; omega), .inl (by rw [hc]; omega), by simp, rfl⟩
  fin_cases hi <;> exact this

theorem desEnc_ends (s : State) : EndsAs .desEnc s (exec .desEnc s) :=
  runBlockCipher_ends (by simp) (by simp [checksPass]) (by simp)
theorem desDec_ends (s : State) : EndsAs .desDec s (exec .desDec s) :=
  runBlockCipher_ends (by simp) (by simp [checksPass]) (by simp)
theorem tdesEnc_ends (s : State) : EndsAs .tdesEnc s (exec .tdesEnc s) := runBlockCipher_ends (by simp) .rfl (by simp)
theorem tdesDec_ends (s : State) : EndsAs .tdesDec s (exec .tdesDec s) := runBlockCipher_ends (by simp) .rfl (by simp)

theorem tdesCbcEnc_ends (s : State) : EndsAs .tdesCbcEnc s (exec .tdesCbcEnc s) := by
  refine .run (by simp [keylenCheck, ivlenCheck, dinlenMaxCheck])
    (by simp [keylenCheck, ivlenCheck, dinlenMaxCheck, checksPass]; tauto)
    fun hp => .operand hp (by simp [operandCells]) fun key hk _ hw1 => .operand hp (by simp [operandCells])
      fun iv hiv _ hw2 => .operand hp (by simp [operandCells]) fun d hd _ hw3 => ?_
  obtain ⟨-, -, hmax⟩ := id hp
  have hlen : (cbcEncrypt key iv (padPkcs5 d)).length = d.length + (8 - d.length % 8) := by
    rw [cbcEncrypt_length _ _ _ (by rw [padPkcs5_length]; omega), padPkcs5_length]
  refine .success hp (by simpa [operandsWritten, operandCells] using ⟨hw1, hw2, hw3⟩) ⟨_, _, ?_, ?_, by simp, rfl⟩ <;>
    exact .inr (by rw [hlen]; omega)

theorem tdesCbcDec_ends (s : State) : EndsAs .tdesCbcDec s (exec .tdesCbcDec s) := by
  refine .run (by simp [keylenCheck, ivlenCheck, dinlenBlocksCheck])
    (by simp [keylenCheck, ivlenCheck, dinlenBlocksCheck, checksPass]; tauto)
    fun hp => .operand hp (by simp [operandCells]) fun key hk _ hw1 => .operand hp (by simp [operandCells])
      fun iv hiv _ hw2 => .operand hp (by simp [operandCells]) fun c hc _ hw3 => ?_
  obtain ⟨-, h2, h3, h4⟩ := id hp
  have hlen := unpadPkcs5_length_le (cbcDecrypt key iv c)
  rw [cbcDecrypt_length key (by omega) (by omega)] at hlen
  refine .success hp (by simpa [operandsWritten, operandCells] using ⟨hw1, hw2, hw3⟩) ⟨_, _, ?_, ?_, by simp, rfl⟩ <;>
    exact .inr (by omega)

theorem pkcs5Pad_ends (s : State) : EndsAs .pkcs5Pad s (exec .pkcs5Pad s) := by
  refine .run (by simp [dinlenMaxCheck]) (by simp [dinlenMaxCheck, checksPass])
    fun hp => .operand hp (by simp [operandCells]) fun d hd _ hw => ?_
  have hmax : s.dinlen.toNat ≤ s.params.dataMax := hp
  refine .success hp (by simpa [operandsWritten, operandCells] using hw) ⟨_, _, ?_, ?_, by simp, rfl⟩ <;>
    exact .inr (by rw [padPkcs5_length]; omega)

theorem pkcs5Unpad_ends (s : State) : EndsAs .pkcs5Unpad s (exec .pkcs5Unpad s) := by
  refine .run (by simp [dinlenMaxCheck]) (by simp [dinlenMaxCheck, checksPass])
    fun hp => .operand hp (by simp [operandCells]) fun d hd _ hw => ?_
  have hmax : s.dinlen.toNat ≤ s.params.dataMax + 16 := hp
  have hlen := unpadPkcs5_length_le d
  refine .success hp (by simpa [operandsWritten, operandCells] using hw) ⟨_, _, ?_, ?_, by simp, rfl⟩ <;>
    exact .inr (by omega)

/-- The codes `keyBytes` knows, and no other. -/
theorem keyBytes_spec (alg : Nat) :
    (keyBytes alg = none ∧ alg ∉ [1, 2, 3, 4, 5, 6]) ∨
      ∃ n, keyBytes alg = some n ∧ (alg, n) ∈ [(1, 16), (2, 24), (3, 32), (4, 32), (5, 16), (6, 24)] := by
  unfold keyBytes; split <;> simp_all

/-- The codes `nonceBytes` knows, and no other. -/
theorem nonceBytes_spec (alg : Nat) :
    (nonceBytes alg = none ∧ alg ∉ [1, 2, 3, 4, 5, 6]) ∨
      ∃ n, nonceBytes alg = some n ∧ (alg, n) ∈ [(1, 12), (2, 12), (3, 12), (4, 12), (5, 8), (6, 8)] := by
  unfold nonceBytes; split <;> simp_all

theorem genKey_ends (alg : Nat) (s : State) : EndsAs (.genKey alg) s (exec (.genKey alg) s) := by
  simp only [exec, execGenKey]
  rcases keyBytes_spec alg with ⟨h, hn⟩ | ⟨n, h, hn⟩ <;> rw [h]
  · exact .checkFails (by simp) hn
  · refine .success ?_ (by simp [operandsWritten, operandCells]) ⟨n, hn, rfl⟩
    simp only [checksPass]; revert hn; simp; omega

theorem genNonce_ends (alg : Nat) (s : State) : EndsAs (.genNonce alg) s (exec (.genNonce alg) s) := by
  simp only [exec, execGenNonce]
  rcases nonceBytes_spec alg with ⟨h, hn⟩ | ⟨n, h, hn⟩ <;> rw [h]
  · exact .checkFails (by simp) hn
  · refine .success ?_ (by simp [operandsWritten, operandCells]) ⟨n, hn, rfl⟩
    simp only [checksPass]; revert hn; simp; omega

/-- Everything a command can do. -/
theorem exec_ends (i : Instr) (s : State) : EndsAs i s (exec i s) := by
  cases i with
  | nop => exact nop_ends s
  | aesExpand n => exact aesExpand_ends n s
  | aesEncBlock n => exact aesEncBlock_ends n s
  | gcmEnc n => exact gcmEnc_ends n s
  | gcmDec n => exact gcmDec_ends n s
  | chacha20Block => exact chacha20Block_ends s
  | chacha20Xor => exact chacha20Xor_ends s
  | poly1305Mac => exact poly1305Mac_ends s
  | c20pEnc => exact c20pEnc_ends s
  | c20pDec => exact c20pDec_ends s
  | desEnc => exact desEnc_ends s
  | desDec => exact desDec_ends s
  | tdesEnc => exact tdesEnc_ends s
  | tdesDec => exact tdesDec_ends s
  | tdesCbcEnc => exact tdesCbcEnc_ends s
  | tdesCbcDec => exact tdesCbcDec_ends s
  | pkcs5Pad => exact pkcs5Pad_ends s
  | pkcs5Unpad => exact pkcs5Unpad_ends s
  | genKey a => exact genKey_ends a s
  | genNonce a => exact genNonce_ends a s

end Sys2Proof.Machine
end

