-- ==== Sys2Proof/Laws/PerInstr.lean ====
section
/-! SUPPORT. One lemma per instruction: no command word has a nonzero reserved field (30_encoding R110, R118). -/

namespace Sys2Proof.Laws.ReservedFieldsZero

/-- RSV0 and RSV1 of the instruction's word are zero. -/
def Statement (i : Instr) : Prop := rsv0Field (encode i) = 0 ∧ rsv1Field (encode i) = 0

/-- `assemble` leaves the reserved fields zero, whatever the other fields. -/
theorem assemble_reserved (opc dir nrf alg : Nat) :
    rsv0Field (assemble opc dir nrf alg) = 0 ∧ rsv1Field (assemble opc dir nrf alg) = 0 := by
  constructor
  · have : (assemble opc dir nrf alg).extractLsb' 9 3 = 0 := by
      apply BitVec.eq_of_getLsbD_eq
      intro i hi
      simp only [assemble, BitVec.getLsbD_extractLsb', BitVec.getLsbD_append]
      interval_cases i <;> simp
    simp [rsv0Field, this]
  · have : (assemble opc dir nrf alg).extractLsb' 20 12 = 0 := by
      apply BitVec.eq_of_getLsbD_eq
      intro i hi
      simp only [assemble, BitVec.getLsbD_extractLsb', BitVec.getLsbD_append]
      interval_cases i <;> simp
    simp [rsv1Field, this]

theorem nop : Statement .nop := assemble_reserved _ _ _ _
theorem aesExpand (nrf : Nat) : Statement (.aesExpand nrf) := assemble_reserved _ _ _ _
theorem aesEncBlock (nrf : Nat) : Statement (.aesEncBlock nrf) := assemble_reserved _ _ _ _
theorem gcmEnc (nrf : Nat) : Statement (.gcmEnc nrf) := assemble_reserved _ _ _ _
theorem gcmDec (nrf : Nat) : Statement (.gcmDec nrf) := assemble_reserved _ _ _ _
theorem chacha20Block : Statement .chacha20Block := assemble_reserved _ _ _ _
theorem chacha20Xor : Statement .chacha20Xor := assemble_reserved _ _ _ _
theorem poly1305Mac : Statement .poly1305Mac := assemble_reserved _ _ _ _
theorem c20pEnc : Statement .c20pEnc := assemble_reserved _ _ _ _
theorem c20pDec : Statement .c20pDec := assemble_reserved _ _ _ _
theorem desEnc : Statement .desEnc := assemble_reserved _ _ _ _
theorem desDec : Statement .desDec := assemble_reserved _ _ _ _
theorem tdesEnc : Statement .tdesEnc := assemble_reserved _ _ _ _
theorem tdesDec : Statement .tdesDec := assemble_reserved _ _ _ _
theorem tdesCbcEnc : Statement .tdesCbcEnc := assemble_reserved _ _ _ _
theorem tdesCbcDec : Statement .tdesCbcDec := assemble_reserved _ _ _ _
theorem pkcs5Pad : Statement .pkcs5Pad := assemble_reserved _ _ _ _
theorem pkcs5Unpad : Statement .pkcs5Unpad := assemble_reserved _ _ _ _
theorem genKey (alg : Nat) : Statement (.genKey alg) := assemble_reserved _ _ _ _
theorem genNonce (alg : Nat) : Statement (.genNonce alg) := assemble_reserved _ _ _ _

end Sys2Proof.Laws.ReservedFieldsZero
end

