-- ==== Sys2Proof/Laws/Port.lean ====
section
/-! SUPPORT. Everything a step can do, said once. -/
namespace Sys2Proof.Machine

theorem step_idle {s : State} (h : s.pending = []) : step s = .next s := by simp [step, nextEvent, h]

theorem step_event {s : State} {e : HostEvent} {rest : List HostEvent} (h : s.pending = e :: rest) :
    step s = perform e { s with pending := rest } := by simp [step, nextEvent, h]

/-- The register at its own offset. -/
@[simp] theorem registerAt_offset (r : Reg) : registerAt 32 r.offset = some r := by cases r <;> rfl

/-- Only the ten offsets name a register. -/
theorem ofOffset_some {off : Nat} {r : Reg} (h : Reg.ofOffset off = some r) : off = r.offset := by
  unfold Reg.ofOffset at h
  split at h <;> simp at h <;> subst h <;> rfl

@[simp] theorem ofId_id (b : BufId) : BufId.ofId b.id = some b := by cases b <;> rfl

theorem ofId_some {id : Nat} {b : BufId} (h : BufId.ofId id = some b) : id = b.id := by
  unfold BufId.ofId at h
  split at h <;> simp at h <;> subst h <;> rfl

/-- The buffer access the port admits. -/
theorem bufferAt_some {p : Params} {width id off : Nat} {b : BufId} (h : bufferAt p width id off = some b) :
    width = 8 ∧ id = b.id ∧ off < b.capacity p := by
  unfold bufferAt at h
  cases hb : BufId.ofId id with
  | none => simp [hb] at h
  | some b' =>
    simp only [hb] at h
    split_ifs at h with hc
    cases h
    exact ⟨hc.1, ofId_some hb, hc.2⟩

theorem bufferAt_of_lt {p : Params} {b : BufId} {off : Nat} (h : off < b.capacity p) : bufferAt p 8 b.id off = some b := by
  simp [bufferAt, h]

/-- The changes an event other than reset can make, `pending` being shorter already. -/
inductive StepTo (s : State) : State → Prop where
  /-- The command word `v` ran as instruction `i`. -/
  | command {v : Word} {i : Instr} {t : State} (hd : decode v = .ok i) (h : exec i { s with cmd := v } = .next t) :
      StepTo s t
  /-- The command word `v` was no command. -/
  | reject {v : Word} {r : Reason} (h : r = .opcode ∨ r = .field) : StepTo s (raise v r { s with cmd := v })
  /-- Another register was written. -/
  | register {r : Reg} {v : Word} (h : r ≠ .cmd) : StepTo s (s.writeReg r v)
  /-- A cell was written. -/
  | cell {b : BufId} {off : Nat} {x : Byte} (hb : b ≠ .rk) (h : off < b.capacity s.params) :
      StepTo s (s.bufWrite b off [x])
  /-- Something was read, or a write had no effect. -/
  | observe (l : List Observation) : StepTo s { s with observed := l }

theorem executeWord_next {v : Word} {s t : State} (h : executeWord v { s with cmd := v } = .next t) : StepTo s t := by
  unfold executeWord at h
  split at h
  · cases h; exact .reject (.inl rfl)
  · cases h; exact .reject (.inr rfl)
  · next i hd => exact .command hd h

/-- What performing an event can lead to. -/
theorem perform_next {e : HostEvent} {s t : State} (h : perform e s = .next t) :
    (e = .reset ∧ t = s.resetCore) ∨ (e ≠ .reset ∧ StepTo s t) := by
  cases e with
  | reset => cases h; exact .inl ⟨rfl, rfl⟩
  | regWrite width off v =>
    refine .inr ⟨by simp, ?_⟩
    simp only [perform, regWrite] at h
    cases hr : registerAt width off with
    | none => simp [hr] at h
    | some r =>
      cases r with
      | cmd => simp only [hr] at h; exact executeWord_next h
      | _ => simp only [hr] at h; cases h; exact .register (by simp)
  | regRead width off =>
    refine .inr ⟨by simp, ?_⟩
    simp only [perform, regRead] at h
    cases hr : registerAt width off with
    | none => simp [hr] at h
    | some r => simp only [hr] at h; cases h; exact .observe _
  | bufWrite width id off x =>
    refine .inr ⟨by simp, ?_⟩
    simp only [perform, bufHostWrite] at h
    cases hb : bufferAt s.params width id off with
    | none => simp [hb] at h
    | some b =>
      have hlt := (bufferAt_some hb).2.2
      cases b with
      | rk => simp only [hb] at h; cases h; exact .observe _
      | _ => simp only [hb] at h; cases h; exact .cell (by simp) hlt
  | bufRead width id off =>
    refine .inr ⟨by simp, ?_⟩
    simp only [perform, bufHostRead] at h
    cases hb : bufferAt s.params width id off with
    | none => simp [hb] at h
    | some b =>
      simp only [hb] at h
      cases hr : (s.buf b).read off with
      | none => simp [hr] at h
      | some x => simp only [hr] at h; cases h; exact .observe _

/-- Everything a step that goes on can do. -/
theorem step_next {s t : State} (h : step s = .next t) :
    (s.pending = [] ∧ t = s) ∨
      ∃ e rest, s.pending = e :: rest ∧
        ((e = .reset ∧ t = ({ s with pending := rest } : State).resetCore) ∨
          (e ≠ .reset ∧ StepTo { s with pending := rest } t)) := by
  cases hp : s.pending with
  | nil => rw [step_idle hp] at h; cases h; exact .inl ⟨rfl, rfl⟩
  | cons e rest => rw [step_event hp] at h; exact .inr ⟨e, rest, rfl, perform_next h⟩

end Sys2Proof.Machine
end

