-- ==== Sys2Proof/Tests/Slice0.lean ====
section
/-! SUPPORT. Tests: expected values are those of spec/95_test_vectors.md and the encodings of 30_encoding R110, R113; then
one witness for the hypotheses of each statement that has any. -/
namespace Sys2Proof.Tests
open Sys2Proof Sys2Proof.Machine

-- One proof at a time: each of Lean's threads reserves memory of its own.
set_option Elab.async false

/-! ## Helpers -/

/-- `n` bytes written as one hexadecimal number, first byte first. -/
def hex (n v : Nat) : Bytes := toBE n v

/-- The bytes `a, a+1, …` (`n` of them). -/
def upFrom (a n : Nat) : Bytes := (List.range n).map fun i => BitVec.ofNat 8 (a + i)

/-- The reset state after `SETKEY`, `SETIV`, `SETAAD` and `SETDIN`. -/
def load (key iv aad din : Bytes) : State :=
  { State.reset with
    key := cellsAt 0 key, klen := BitVec.ofNat 32 key.length, iv := cellsAt 0 iv, ivlen := BitVec.ofNat 32 iv.length
    aad := cellsAt 0 aad, aadlen := BitVec.ofNat 32 aad.length, din := cellsAt 0 din,
    dinlen := BitVec.ofNat 32 din.length }

/-- A state whose key schedule is loaded. -/
def withSchedule (nr : Nat) (key : Bytes) (s : State) : State :=
  { s with rk := cellsAt 0 (roundKeys key).flatten, nr := BitVec.ofNat 32 nr, rkv := true }

/-- The reset state with other lengths, no buffer byte written. -/
def lengths (klen ivlen aadlen dinlen : Nat) : State :=
  { State.reset with
    klen := BitVec.ofNat 32 klen, ivlen := BitVec.ofNat 32 ivlen, aadlen := BitVec.ofNat 32 aadlen,
    dinlen := BitVec.ofNat 32 dinlen }

/-- `lengths`, with a key schedule said to be loaded. -/
def lengthsRkv (nr ivlen aadlen dinlen : Nat) : State :=
  { lengths 0 ivlen aadlen dinlen with nr := BitVec.ofNat 32 nr, rkv := true }

/-- STATUS, ERRINFO and `DOUT[0..DOUTLEN)` after the host writes word `v` to CMD in one step. -/
def after (v : Nat) (s : State) : Option (Nat × Nat × Bytes) :=
  match step (s.withFetchWord 32 v) with
  | .next t =>
    match t.bufRead .dout 0 t.doutlen.toNat with
    | .ok bytes => some ((t.readReg .status).toNat, (t.readReg .errinfo).toNat, bytes)
    | .error _ => none
  | _ => none

/-- A field of the state after the host writes word `v` to CMD. -/
def field {α : Type} (f : State → α) (v : Nat) (s : State) : Option α :=
  match step (s.withFetchWord 32 v) with
  | .next t => some (f t)
  | _ => none

/-- Whether an outcome is a next state, successful or not. -/
def endsNext (ok : Bool) (o : Host.Outcome State Fault Refusal) : Bool :=
  match o with
  | .next t => decide (t.err = .ok) == ok
  | _ => false

theorem exists_of_endsNext_true {o : Host.Outcome State Fault Refusal} (h : endsNext true o = true) :
    ∃ t, o = .next t ∧ t.err = .ok := by
  cases o <;> simp_all [endsNext]

theorem exists_of_endsNext_false {o : Host.Outcome State Fault Refusal} (h : endsNext false o = true) :
    ∃ t, o = .next t ∧ t.err ≠ .ok := by
  cases o <;> simp_all [endsNext]

/-! ## Ill-formed instructions (30_encoding R111): the check refuses them -/

theorem test_wf_refuses_wide_nrf :
    Instr.wf (.aesExpand 16) = false ∧ Instr.wf (.aesEncBlock 16) = false ∧ Instr.wf (.gcmEnc 16) = false ∧
    Instr.wf (.gcmDec 16) = false := by decide

theorem test_wf_refuses_wide_alg : Instr.wf (.genKey 16) = false ∧ Instr.wf (.genNonce 16) = false := by decide

theorem test_wf_admits_widest : Instr.wf (.gcmDec 15) = true ∧ Instr.wf (.genNonce 15) = true := by decide

/-! ## Decoding: words written out field by field, RSV1 ALG NRF RSV0 DIR OPC (R110, R113) -/

theorem test_decode_nop : decode 0b0000_0000_0000_0000_0000_0000_0000_0000#32 = .ok .nop := by decide
theorem test_decode_aesExpand : decode 0b000000000000_0000_1010_000_0_00000001#32 = .ok (.aesExpand 10) := by decide
theorem test_decode_aesEncBlock : decode 0b000000000000_0000_1100_000_0_00000010#32 = .ok (.aesEncBlock 12) := by decide
theorem test_decode_gcmEnc : decode 0b000000000000_0000_1110_000_0_00000011#32 = .ok (.gcmEnc 14) := by decide
theorem test_decode_gcmDec : decode 0b000000000000_0000_1010_000_0_00000100#32 = .ok (.gcmDec 10) := by decide
theorem test_decode_chacha20Block : decode 0b000000000000_0000_0000_000_0_00000101#32 = .ok .chacha20Block := by decide
theorem test_decode_chacha20Xor : decode 0b000000000000_0000_0000_000_0_00000110#32 = .ok .chacha20Xor := by decide
theorem test_decode_poly1305Mac : decode 0b000000000000_0000_0000_000_0_00000111#32 = .ok .poly1305Mac := by decide
theorem test_decode_c20pEnc : decode 0b000000000000_0000_0000_000_0_00001000#32 = .ok .c20pEnc := by decide
theorem test_decode_c20pDec : decode 0b000000000000_0000_0000_000_0_00001001#32 = .ok .c20pDec := by decide
theorem test_decode_desEnc : decode 0b000000000000_0000_0000_000_0_00001010#32 = .ok .desEnc := by decide
theorem test_decode_desDec : decode 0b000000000000_0000_0000_000_1_00001010#32 = .ok .desDec := by decide
theorem test_decode_tdesEnc : decode 0b000000000000_0000_0000_000_0_00001011#32 = .ok .tdesEnc := by decide
theorem test_decode_tdesDec : decode 0b000000000000_0000_0000_000_1_00001011#32 = .ok .tdesDec := by decide
theorem test_decode_tdesCbcEnc : decode 0b000000000000_0000_0000_000_0_00001100#32 = .ok .tdesCbcEnc := by decide
theorem test_decode_tdesCbcDec : decode 0b000000000000_0000_0000_000_0_00001101#32 = .ok .tdesCbcDec := by decide
theorem test_decode_pkcs5Pad : decode 0b000000000000_0000_0000_000_0_00001110#32 = .ok .pkcs5Pad := by decide
theorem test_decode_pkcs5Unpad : decode 0b000000000000_0000_0000_000_0_00001111#32 = .ok .pkcs5Unpad := by decide
theorem test_decode_genKey : decode 0b000000000000_0011_0000_000_0_00010000#32 = .ok (.genKey 3) := by decide
theorem test_decode_genNonce : decode 0b000000000000_0110_0000_000_0_00010001#32 = .ok (.genNonce 6) := by decide

/-- V-ERR-1 to V-ERR-8: reserved opcodes and fields. -/
theorem test_decode_rejects :
    decode 0x12 = .error .opcode ∧ decode 0xFF = .error .opcode ∧ decode 0x00100000 = .error .field ∧
    decode 0x200 = .error .field ∧ decode 0x101 = .error .field ∧ decode 0xA005 = .error .field ∧
    decode 0x1000E = .error .field ∧ decode 0x3A010 = .error .field := by decide

/-- The table's words, numbered as it numbers them. -/
theorem test_decodeTableWord :
    decodeTableWord 32 0xA001 = some (.aesExpand 10) ∧ decodeTableWord 32 0x10B = some .tdesDec ∧
    decodeTableWord 32 0x12 = none := by decide

/-! ## The command family by family (95_test_vectors section 2) -/

/-- V-NOP-1, in a state with an error reported. -/
theorem test_nop : after 0 { State.reset with err := .auth, errinfo := 0x0A000009 } = some (0, 0, []) := by decide +kernel

/-- V-KS-1: NR, RKV, and the last round key. -/
theorem test_aes_expand_128 :
    field (fun t => (t.nr, t.rkv, (t.rk.readBytes 160 16).toOption, t.rk.read 176)) 0xA001
        (load (hex 16 0x2b7e151628aed2a6abf7158809cf4f3c) [] [] []) =
      some (10, true, some (hex 16 0xd014f9a8c9ee2589e13f0cc8b6630ca6), none) := by decide +kernel

/-- V-KS-3: the last round key of AES-256. -/
theorem test_aes_expand_256 :
    field (fun t => (t.nr, (t.rk.readBytes 224 16).toOption)) 0xE001
        (load (hex 32 0x603deb1015ca71be2b73aef0857d77811f352c073b6108d72d9810a30914dff4) [] [] []) =
      some (14, some (hex 16 0xfe4890d1e6188d0b046df344706c631e)) := by decide +kernel

/-- V-AES-2 (FIPS-197 C.2). -/
theorem test_aes_enc_block :
    after 0xC002 (withSchedule 12 (upFrom 0 24) (load [] [] [] (hex 16 0x00112233445566778899aabbccddeeff))) =
      some (0x20, 0, hex 16 0xdda97ca4864cdfe06eaf70a0ec0d7191) := by decide +kernel

/-- V-ERR-17: the schedule is for another number of rounds. -/
theorem test_aes_enc_block_rounds : after 0xE002 (lengthsRkv 10 0 0 16) = some (0x21, 0x0600E002, []) := by decide +kernel

/-- V-GCM-4: AAD, and a last block of 12 bytes. -/
theorem test_gcm_enc :
    after 0xA003 (withSchedule 10 (hex 16 0xfeffe9928665731c6d6a8f9467308308)
        (load [] (hex 12 0xcafebabefacedbaddecaf888) (hex 20 0xfeedfacedeadbeeffeedfacedeadbeefabaddad2)
          (hex 60 0xd9313225f88406e5a55909c5aff5269a86a7a9531534f7da2e4c303d8a318a721c3c0c95956809532fcf0e2449a6b525b16aedf5aa0de657ba637b39))) =
      some (0x20, 0,
        hex 60 0x42831ec2217774244b7221b784d0d49ce3aa212f2c02a4e035c17e2329aca12e21d514b25466931c7d8f6a5aac84aa051ba30b396a0aac973d58e091 ++
        hex 16 0x5bc94fbc3221a5db94fae95ae7121a47) := by decide +kernel

/-- V-GCM-7: AAD only, not block-aligned. -/
theorem test_gcm_enc_aad_only :
    after 0xA003 (withSchedule 10 (upFrom 0 16) (load [] (zeros 12) (upFrom 0 17) [])) =
      some (0x20, 0, hex 16 0x1782b8b5f83887a1b87bb9cf0d620ea3) := by decide +kernel

/-- The start state of the V-GCM-9 vectors. -/
def gcm9 (din : Bytes) : State := withSchedule 10 (zeros 16) (load [] (zeros 12) [] din)

/-- V-GCM-9a: the tag is right. -/
theorem test_gcm_dec :
    after 0xA004 (gcm9 (hex 32 0x0388dace60b6a392f328c2b971b2fe78ab6e47d42cec13bdf53a67b21257bddf)) =
      some (0x20, 0, zeros 16) := by decide +kernel

/-- V-GCM-9b: two flipped bits, refused by EXACT and accepted by XOR_FOLD. -/
theorem test_gcm_dec_tag_modes :
    after 0xA004 (gcm9 (hex 32 0x0388dace60b6a392f328c2b971b2fe78aa6f47d42cec13bdf53a67b21257bddf)) =
      some (0x23, 0x0A00A004, []) ∧
    after 0xA004 { gcm9 (hex 32 0x0388dace60b6a392f328c2b971b2fe78aa6f47d42cec13bdf53a67b21257bddf) with
        params := ⟨256, 64, .xorFold⟩ } = some (0x20, 0, zeros 16) := by decide +kernel

/-- V-CC-2 (RFC 8439 §2.3.2). -/
theorem test_chacha20_block :
    after 5 { load (upFrom 0 32) (hex 12 0x000000090000004a00000000) [] [] with ctr := 1 } =
      some (0, 0,
        hex 64 0x10f1e7e4d13b5915500fdd1fa32071c4c7d1f4c733c068030422aa9ac3d46c4ed2826446079faa0914c2d705d98b02a2b5129cd1de164eb9cbd083e8a2503c4e) := by
  decide +kernel

/-- V-CC-5: the counter wraps and CTR keeps its value. -/
theorem test_chacha20_xor_wrap :
    after 6 { load (upFrom 0 32) (zeros 12) [] (zeros 128) with ctr := 0xFFFFFFFF } =
      some (0, 0,
        hex 64 0x1ce0deb8925fccea2d5587e850054559edcbbeb1a6c8e1c02c1e89abba08b01cad6048fe5ab5242ed6befbef6b4040fcb666a5f3858d942a912c4e8800301a42 ++
        hex 64 0x39fd2b7dd9c5196a8dbd0377b8dc4a498a35d86fbcde6accb2cc7d4cd8ea24922b23cce7a26023ab3f0eef693ac87f64258235eab1f7a32dc22762a0485b410c) ∧
    field (·.ctr) 6 { load (upFrom 0 32) (zeros 12) [] (zeros 128) with ctr := 0xFFFFFFFF } = some 0xFFFFFFFF := by
  decide +kernel

/-- V-CC-6: no input, no output. -/
theorem test_chacha20_xor_empty : after 6 (load (upFrom 0 32) (zeros 12) [] []) = some (0, 0, []) := by decide +kernel

/-- V-P-1 (RFC 8439 §2.5.2). -/
theorem test_poly1305_mac :
    after 7 (load (hex 32 0x85d6be7857556d337f4452fe42d506a80103808afb0db2fd4abff6af4149f51b) [] []
        (hex 34 0x43727970746f6772617068696320466f72756d2052657365617263682047726f7570)) =
      some (0, 0, hex 16 0xa8061dc1305136c6c22b8baf0c0127a9) := by decide +kernel

/-- V-P-5: the sum with `s` wraps. -/
theorem test_poly1305_mac_wrap :
    after 7 (load (hex 16 0x02000000000000000000000000000000 ++ List.replicate 16 0xFF) [] [] (List.replicate 16 0xFF)) =
      some (0, 0, hex 16 0x02000000000000000000000000000000) := by decide +kernel

/-- Program P2, C20P_ENC. -/
theorem test_c20p_enc :
    after 8 (load (upFrom 0x80 32) (hex 12 0x070000004041424344454647) (hex 12 0x50515253c0c1c2c3c4c5c6c7)
        (hex 13 0x48656c6c6f2c20576f726c6421)) =
      some (0, 0, hex 29 0xd71e85316ed160ed7a90e39f1761ed3d808160596e898479cf4205db84) := by decide +kernel

/-- Program P2, C20P_DEC. -/
theorem test_c20p_dec :
    after 9 (load (upFrom 0x80 32) (hex 12 0x070000004041424344454647) (hex 12 0x50515253c0c1c2c3c4c5c6c7)
        (hex 29 0xd71e85316ed160ed7a90e39f1761ed3d808160596e898479cf4205db84)) =
      some (0, 0, hex 13 0x48656c6c6f2c20576f726c6421) := by decide +kernel

/-- Program P2, one AAD bit flipped. -/
theorem test_c20p_dec_tampered :
    after 9 (load (upFrom 0x80 32) (hex 12 0x070000004041424344454647) (hex 12 0x51515253c0c1c2c3c4c5c6c7)
        (hex 29 0xd71e85316ed160ed7a90e39f1761ed3d808160596e898479cf4205db84)) =
      some (3, 0x0A000009, []) := by decide +kernel

/-- V-DES-1. -/
theorem test_des_enc :
    after 0x0A (load (hex 8 0x133457799bbcdff1) [] [] (hex 8 0x0123456789abcdef)) =
      some (0, 0, hex 8 0x85e813540f0ab405) := by decide +kernel

/-- V-ERR-45: FIELD comes before KEYLEN. -/
theorem test_des_enc_field_first : after 0x20A (lengths 3 0 0 0) = some (1, 0x0300020A, []) := by decide +kernel

/-- V-DES-8, decrypted. -/
theorem test_des_dec :
    after 0x10A (load (hex 8 0x0123456789abcdef) [] [] (hex 8 0x3fa40e8a984d4815)) =
      some (0, 0, hex 8 0x4e6f772069732074) := by decide +kernel

/-- V-TDES-1: two keys. -/
theorem test_tdes_enc_two_keys :
    after 0x0B (load (hex 16 0x0123456789abcdef23456789abcdef01) [] [] (hex 8 0x4e6f772069732074)) =
      some (0, 0, hex 8 0xb7835779ee26acb7) := by decide +kernel

/-- V-TDES-2: three keys. -/
theorem test_tdes_enc_three_keys :
    after 0x0B (load (hex 24 0x0123456789abcdef23456789abcdef01456789abcdef0123) [] [] (hex 8 0x4e6f772069732074)) =
      some (0, 0, hex 8 0x314f8327fa7a09a8) := by decide +kernel

/-- V-TDES-2, decrypted. -/
theorem test_tdes_dec :
    after 0x10B (load (hex 24 0x0123456789abcdef23456789abcdef01456789abcdef0123) [] [] (hex 8 0x314f8327fa7a09a8)) =
      some (0, 0, hex 8 0x4e6f772069732074) := by decide +kernel

/-- V-CBC-1. -/
theorem test_tdes_cbc_enc :
    after 0x0C (load (hex 24 0x0123456789abcdef23456789abcdef01456789abcdef0123) (hex 8 0x1234567890abcdef) []
        (hex 13 0x48656c6c6f2c20576f726c6421)) =
      some (0, 0, hex 16 0x63410205fe59ae5b31fd0f813373d3a5) := by decide +kernel

/-- V-CBC-5: a wrong IV garbles the first block only. -/
theorem test_tdes_cbc_dec_wrong_iv :
    after 0x0D (load (hex 24 0x0123456789abcdef23456789abcdef01456789abcdef0123) (zeros 8) []
        (hex 16 0x63410205fe59ae5b31fd0f813373d3a5)) =
      some (0x10, 0, hex 13 0x5a513a14ff87edb86f726c6421) := by decide +kernel

/-- V-CBC-7: invalid padding is no error. -/
theorem test_tdes_cbc_dec_bad_pad :
    after 0x0D (load (hex 24 0x0123456789abcdef23456789abcdef01456789abcdef0123) (hex 8 0x1234567890abcdef) []
        (hex 16 0x63410205fe59ae5b30fd0f813373d3a5)) =
      some (0, 0, hex 16 0x48656c6c6f2c2057efceacb5ac5e043f) := by decide +kernel

/-- V-PAD-4: a full block gets a whole pad block. -/
theorem test_pkcs5_pad_full_block :
    after 0x0E (load [] [] [] (hex 8 0x4142434445464748)) =
      some (0, 0, hex 16 0x41424344454647480808080808080808) := by decide +kernel

/-- V-PAD-3. -/
theorem test_pkcs5_pad_one :
    after 0x0E (load [] [] [] (hex 7 0x41424344454647)) = some (0, 0, hex 8 0x4142434445464701) := by decide +kernel

/-- V-UNPAD-4: the length need not be a multiple of 8. -/
theorem test_pkcs5_unpad :
    after 0x0F (load [] [] [] (hex 9 0x414141414141410202)) = some (0x10, 0, hex 7 0x41414141414141) := by decide +kernel

/-- V-UNPAD-1 and V-UNPAD-9: the empty string, and a pad longer than the string. -/
theorem test_pkcs5_unpad_invalid :
    after 0x0F (load [] [] [] []) = some (0, 0, []) ∧
    after 0x0F (load [] [] [] (hex 2 0x0404)) = some (0, 0, hex 2 0x0404) := by decide +kernel

/-- V-GK-2: two-key Triple DES, the rest of KEY unchanged. -/
theorem test_gen_key :
    field (fun t => (t.klen, (t.key.readBytes 0 16).toOption, t.key.read 16, t.entropy)) 0x50010
        { load (List.replicate 32 0xAA) [] [] [] with entropy := upFrom 0 32 } =
      some (16, some (upFrom 0 16), some 0xAA, upFrom 16 16) := by decide +kernel

/-- V-ERR-11: an algorithm code that is not assigned. -/
theorem test_gen_key_alg : after 0xF0010 State.reset = some (2, 0x020F0010, []) := by decide +kernel

/-- V-GN-1. -/
theorem test_gen_nonce :
    field (fun t => (t.ivlen, (t.iv.readBytes 0 12).toOption, t.iv.read 12)) 0x10011
        { State.reset with entropy := hex 12 0xcafebabefacedbaddecaf888 } =
      some (12, some (hex 12 0xcafebabefacedbaddecaf888), none) := by decide +kernel

/-- V-ERR-10. -/
theorem test_gen_nonce_alg : after 0x70011 State.reset = some (2, 0x02070011, []) := by decide +kernel

/-! ## Host accesses and faults -/

/-- V-F-1, V-F-3: a host read of a cell that holds no value. -/
theorem test_host_read_unwritten :
    step { State.reset with pending := rdbuf .dout 0 1 } = .fault (.unwrittenRead .dout 0) ∧
    step { State.reset with pending := rdbuf .rk 0 1 } = .fault (.unwrittenRead .rk 0) := ⟨rfl, rfl⟩

/-- V-F-2, V-KS-6: a command's read of a cell that holds no value. -/
theorem test_command_read_unwritten :
    step ((lengths 0 0 0 16).withFetchWord 32 0x0E) = .fault (.unwrittenRead .din 0) ∧
    step ((lengths 16 0 0 0).withFetchWord 32 0xA001) = .fault (.unwrittenRead .key 0) := ⟨rfl, rfl⟩

/-- 20_memory R80, R83: refused accesses. -/
theorem test_refused_accesses :
    step { State.reset with pending := [.regWrite 32 0x28 0] } = .refused (.registerAccess 32 0x28) ∧
    step { State.reset with pending := [.regRead 16 0x04] } = .refused (.registerAccess 16 0x04) ∧
    step { State.reset with pending := [.bufWrite 8 6 0 0] } = .refused (.bufferAccess 8 6 0) ∧
    step { State.reset with pending := [.bufRead 8 0 32] } = .refused (.bufferAccess 8 0 32) := ⟨rfl, rfl, rfl, rfl⟩

/-- 10_state R48: a write to NR has no effect. -/
theorem test_read_only_register :
    step { State.reset with pending := [wrreg .nr 14] } = .next State.reset := rfl

/-- Reset clears a loaded machine and leaves the entropy source alone (70_reset R580). -/
theorem test_reset_event :
    step { load (zeros 32) (zeros 12) (zeros 3) (zeros 16) with entropy := [1, 2], pending := [.reset] } =
      .next { State.reset with entropy := [1, 2] } := rfl

/-- With no event to come the machine holds its state. -/
theorem test_idle : step State.reset = .next State.reset := rfl

/-- S-box, GF(2^8), GF(2^128) and quarter-round sample points (section 2). -/
theorem test_sample_points :
    sbox 0x53 = 0xED ∧ sbox 0xFF = 0x16 ∧ gmul 0x57 0x83 = 0xC1 ∧ xtime 0xAE = 0x47 ∧
    mixColumns (hex 16 0xdb1353450101010100000000ffffffff) = hex 16 0x8e4da1bc0101010100000000ffffffff ∧
    gf128mul 1 1 = 0xe6080000000000000000000000000003 ∧
    quarterRound 0x11111111 0x01020304 0x9b8d6f43 0x01234567 =
      (0xea2a92f4, 0xcb1cf8ce, 0x4581472e, 0x5881c4bb) := by decide +kernel

/-! ## Witnesses: states and operands that meet each statement's hypotheses, clause by clause -/

/-- Every buffer the commands read is written: a 32-byte key, a 12-byte IV, AAD and a 16-byte DIN, and an AES-128 schedule. -/
def ready : State := withSchedule 10 (zeros 16) (load (upFrom 0 32) (upFrom 1 12) (upFrom 2 3) (upFrom 3 16))

/-- `ready` with another key, IV and DIN. -/
def readyWith (key iv din : Bytes) : State := withSchedule 10 (zeros 16) (load key iv [] din)

theorem witness_DecodeOfEncode : Instr.wf (.aesExpand 15) = true ∧ Instr.wf (.genNonce 15) = true ∧ Instr.wf .nop = true := by
  decide

theorem witness_EncodeOfDecode : decode 0x000F0011 = .ok (.genNonce 15) ∧ decode 0x0000010B = .ok .tdesDec := by decide

theorem witness_MnemonicsAssembleToTheirWords : (15 < 16) ∧ encode (.gcmDec 15) = 0xF004 ∧ encode (.genNonce 15) = 0xF0011 := by
  decide

/-- Each way of being rejected, and the last opcode that is not. -/
theorem witness_DecoderRejectsExactlyTheReservedWords :
    (0x12 = ((0x12 : Word).extractLsb' 0 8).toNat ∧ decode 0x12 = .error .opcode) ∧
    (0x11 = ((0x11 : Word).extractLsb' 0 8).toNat ∧ decode 0x11 = .ok (.genNonce 0)) ∧
    decode 0x80000000 = .error .field ∧ decode 0x00000800 = .error .field ∧ decode 0x00000100 = .error .field ∧
    decode 0x0000F00A = .error .field ∧ decode 0x000F0004 = .error .field := by decide

theorem witness_StepRunsTheCommandWrittenToCmd :
    ({ State.reset with pending := [.regWrite 32 0x00 0xA001] } : State).pending = .regWrite 32 0x00 0xA001 :: [] ∧
    decode 0xA001 = .ok (.aesExpand 10) := by decide

theorem witness_StepReportsReservedWords :
    (({ State.reset with pending := [.regWrite 32 0x00 0x12] } : State).pending = .regWrite 32 0x00 0x12 :: [] ∧
      decode 0x12 = .error .opcode) ∧
    (({ State.reset with pending := [.regWrite 32 0x00 0x101] } : State).pending = .regWrite 32 0x00 0x101 :: [] ∧
      decode 0x101 = .error .field) := by decide

theorem witness_HostWritesToReadOnlyStateHaveNoEffect :
    (0x24 ∈ [0x04, 0x08, 0x1C, 0x24] ∧
      ({ State.reset with pending := [.regWrite 32 0x24 7] } : State).pending = .regWrite 32 0x24 7 :: []) ∧
    (239 < 240 ∧ ({ State.reset with pending := [.bufWrite 8 5 239 1] } : State).pending = .bufWrite 8 5 239 1 :: []) := by
  decide

theorem witness_WritableRegistersKeepEveryValue :
    ∀ off ∈ [0x0C, 0x10, 0x14, 0x18, 0x20],
      ({ State.reset with pending := [.regWrite 32 off 0xFFFFFFFF] } : State).pending = .regWrite 32 off 0xFFFFFFFF :: [] := by
  decide

/-- STATUS with every bit set that can be, and the last register. -/
theorem witness_RegisterReadsReturnTheHeldValue :
    (∃ s : State, s.pending = .regRead 32 0x04 :: [] ∧
      (s.err, 3) ∈ [(ErrClass.ok, 0), (.precondition, 1), (.unsupported, 2), (.auth, 3)] ∧
      (0x04, (0x33 : Word)) ∈ [(0x00, s.cmd), (0x04, BitVec.ofNat 32 (3 + 16 * s.padok.toNat + 32 * s.rkv.toNat)),
        (0x08, s.errinfo), (0x0C, s.klen), (0x10, s.ivlen), (0x14, s.aadlen), (0x18, s.dinlen), (0x1C, s.doutlen),
        (0x20, s.ctr), (0x24, s.nr)]) ∧
    ∃ s : State, s.pending = .regRead 32 0x24 :: [] ∧
      (s.err, 0) ∈ [(ErrClass.ok, 0), (.precondition, 1), (.unsupported, 2), (.auth, 3)] ∧
      (0x24, (14 : Word)) ∈ [(0x00, s.cmd), (0x04, BitVec.ofNat 32 (0 + 16 * s.padok.toNat + 32 * s.rkv.toNat)),
        (0x08, s.errinfo), (0x0C, s.klen), (0x10, s.ivlen), (0x14, s.aadlen), (0x18, s.dinlen), (0x1C, s.doutlen),
        (0x20, s.ctr), (0x24, s.nr)] :=
  ⟨⟨{ State.reset with err := .auth, padok := true, rkv := true, pending := [.regRead 32 0x04] }, by decide⟩,
    ⟨{ State.reset with nr := 14, pending := [.regRead 32 0x24] }, by decide⟩⟩

theorem witness_AccessesOutsideTheMapAreRefused :
    (∃ s : State, s.pending = .regWrite 8 0x00 1 :: [] ∧ (8 ≠ 32 ∨ 0x00 % 4 ≠ 0 ∨ 0x24 < 0x00)) ∧
    (∃ s : State, s.pending = .regRead 32 0x25 :: [] ∧ 0x25 % 4 ≠ 0) ∧
    (∃ s : State, s.pending = .regRead 32 0x28 :: [] ∧ 0x24 < 0x28) ∧
    (∃ s : State, s.pending = .bufWrite 16 3 0 1 :: [] ∧ 16 ≠ 8 ∧ 0 < BufId.capacity s.params .din) ∧
    (∃ s : State, s.pending = .bufWrite 8 6 0 1 :: [] ∧ 5 < 6) ∧
    (∃ s : State, s.pending = .bufRead 8 0 32 :: [] ∧ BufId.id .key = 0 ∧ BufId.capacity s.params .key ≤ 32) :=
  ⟨⟨{ State.reset with pending := [.regWrite 8 0x00 1] }, by decide⟩,
    ⟨{ State.reset with pending := [.regRead 32 0x25] }, by decide⟩,
    ⟨{ State.reset with pending := [.regRead 32 0x28] }, by decide⟩,
    ⟨{ State.reset with pending := [.bufWrite 16 3 0 1] }, by decide⟩,
    ⟨{ State.reset with pending := [.bufWrite 8 6 0 1] }, by decide⟩,
    ⟨{ State.reset with pending := [.bufRead 8 0 32] }, by decide⟩⟩

/-- The last cell of KEY and of RK, a cell that holds a value and one that does not. -/
theorem witness_HostBufferAccessesReachOneCell :
    (∃ s : State, 31 < BufId.capacity s.params .key ∧ s.pending = .bufWrite 8 (BufId.id .key) 31 9 :: [] ∧ BufId.key ≠ .rk) ∧
    (∃ s : State, 239 < BufId.capacity s.params .rk ∧ s.pending = .bufWrite 8 (BufId.id .rk) 239 9 :: []) ∧
    (∃ s : State, 31 < BufId.capacity s.params .key ∧ s.pending = .bufRead 8 (BufId.id .key) 31 :: [] ∧
      (s.buf .key).read 31 = some 31) ∧
    (∃ s : State, 239 < BufId.capacity s.params .rk ∧ s.pending = .bufRead 8 (BufId.id .rk) 239 :: [] ∧
      (s.buf .rk).read 239 = none) :=
  ⟨⟨{ ready with pending := [.bufWrite 8 0 31 9] }, by decide +kernel⟩,
    ⟨{ ready with pending := [.bufWrite 8 5 239 9] }, by decide +kernel⟩,
    ⟨{ ready with pending := [.bufRead 8 0 31] }, by decide +kernel⟩,
    ⟨{ ready with pending := [.bufRead 8 5 239] }, by decide +kernel⟩⟩

theorem witness_ResetGivesTheResetValues : ({ ready with pending := [.reset] } : State).pending = .reset :: [] := by
  decide +kernel

/-- A failure of each kind: a reserved opcode, a field, an algorithm code, a length, a missing schedule, a tag. -/
theorem witness_FailedCommandWritesOnlyTheReport :
    ∀ p ∈ [((0xFF : Word), ready), (0x101, ready), (0x70010, ready), (0x0A, ready), (0xA002, State.reset), (0x09, ready)],
      ∃ t, executeWord p.1 p.2 = .next t ∧ t.err ≠ .ok := by
  intro p hp
  refine exists_of_endsNext_false ?_
  revert p; decide +kernel

/-- One success of each command. -/
def successes : List (Instr × State) :=
  [(.nop, State.reset), (.aesExpand 14, ready), (.aesEncBlock 10, ready), (.gcmEnc 10, ready),
    (.gcmDec 10, gcm9 (hex 16 0x58e2fccefa7e3061367f1d57a4e7455a)), (.chacha20Block, ready), (.chacha20Xor, ready),
    (.poly1305Mac, ready), (.c20pEnc, ready)] ++
  [(.c20pDec, readyWith (zeros 32) (zeros 12) (hex 16 0x4eb972c9a8fb3a1b382bb4d36f5ffad1)),
    (.desEnc, readyWith (zeros 8) [] (zeros 8)), (.desDec, readyWith (zeros 8) [] (zeros 8)),
    (.tdesEnc, readyWith (zeros 16) [] (zeros 8)), (.tdesDec, readyWith (zeros 24) [] (zeros 8)),
    (.tdesCbcEnc, readyWith (zeros 24) (zeros 8) (zeros 3)), (.tdesCbcDec, readyWith (zeros 16) (zeros 8) (zeros 8)),
    (.pkcs5Pad, ready), (.pkcs5Unpad, ready), (.genKey 6, ready), (.genNonce 6, ready)]

/-- Every command succeeds somewhere (the premise `exec i s = .next t` of the general statements). -/
theorem witness_CommandsWriteOnlyTheirWriteSet : ∀ p ∈ successes, ∃ t, exec p.1 p.2 = .next t ∧ t.err = .ok := by
  intro p hp
  refine exists_of_endsNext_true ?_
  revert p; decide +kernel

theorem witness_DoutKeepsOlderBytesAboveDoutlen :
    ready.dinlen.toNat + 16 < 2 ^ 32 ∧ (∃ t, exec (.gcmEnc 10) ready = .next t ∧ t.err = .ok) ∧
    ∃ t, exec .desEnc ready = .next t ∧ t.err ≠ .ok :=
  ⟨by decide +kernel, exists_of_endsNext_true (by decide +kernel), exists_of_endsNext_false (by decide +kernel)⟩

/-- A fault, and the states it comes from: nothing written at all, and every operand but the key. -/
theorem witness_CommandsFaultOnlyOnUnwrittenOperands :
    exec .pkcs5Pad (lengths 0 0 0 16) = .fault (.unwrittenRead .din 0) ∧
    (checksPass .pkcs5Pad (lengths 0 0 0 16) ∧ ¬ operandsWritten .pkcs5Pad (lengths 0 0 0 16)) ∧
    (checksPass .c20pEnc { ready with key := [] } ∧ ¬ operandsWritten .c20pEnc { ready with key := [] }) := by
  refine ⟨rfl, ?_⟩
  unfold checksPass operandsWritten
  decide +kernel

theorem witness_CommandsCompleteOnWrittenOperands :
    (∀ p ∈ successes, operandsWritten p.1 p.2) ∧ ∀ p ∈ successes, ∃ t, exec p.1 p.2 = .next t ∧ t.err = .ok :=
  ⟨by unfold operandsWritten; decide +kernel, witness_CommandsWriteOnlyTheirWriteSet⟩

theorem witness_OnlyResetClearsScheduleAndCells :
    ∃ s t : State, step s = .next t ∧ s.pending.head? ≠ some .reset ∧ s.rkv = true ∧ s.nr ≠ 0 ∧ (s.buf .key).read 0 ≠ none :=
  ⟨{ ready with pending := [wrreg .klen 16] }, { ready with klen := 16 }, rfl, by decide +kernel⟩

theorem witness_CommandsReadNeitherDoutNorTheReport : ∃ t, exec .chacha20Xor ready = .next t ∧ t.err = .ok :=
  exists_of_endsNext_true (by decide +kernel)

/-- A command of each clause. -/
theorem witness_CommandsIgnoreWhatTheyDoNotName :
    Instr.gcmDec 10 ∈ [Instr.nop, .aesEncBlock 10, .gcmEnc 10, .gcmDec 10, .pkcs5Pad, .pkcs5Unpad, .genNonce 10] ∧
    Instr.genKey 6 ∈ [Instr.nop, .aesExpand 6, .aesEncBlock 6, .poly1305Mac, .desEnc, .desDec, .tdesEnc, .tdesDec,
      .pkcs5Pad, .pkcs5Unpad, .genKey 6] ∧
    ((∀ k, Instr.chacha20Xor ≠ .gcmEnc k ∧ Instr.chacha20Xor ≠ .gcmDec k) ∧ Instr.chacha20Xor ≠ .c20pEnc ∧
      Instr.chacha20Xor ≠ .c20pDec) ∧
    Instr.chacha20Block ∈ [Instr.nop, .aesExpand 10, .chacha20Block, .genKey 10, .genNonce 10] ∧
    (Instr.c20pDec ≠ .chacha20Block ∧ Instr.c20pDec ≠ .chacha20Xor) ∧
    (∀ k, Instr.c20pDec ≠ .aesExpand k ∧ Instr.c20pDec ≠ .aesEncBlock k ∧ Instr.c20pDec ≠ .gcmEnc k ∧
      Instr.c20pDec ≠ .gcmDec k) ∧
    (∀ k, Instr.c20pDec ≠ .genKey k ∧ Instr.c20pDec ≠ .genNonce k) := by simp

/-- `ready` about to be given a command by the host. -/
def readyToStep : State := { ready with pending := [wrreg .cmd 0x00000000] }

theorem readyToStep_steps : ∃ t, step readyToStep = .next t := ⟨_, rfl⟩

theorem witness_StepKeepsBuffersWithinCapacity : BuffersOk readyToStep ∧ ∃ t, step readyToStep = .next t :=
  ⟨⟨by decide +kernel, fun b => by cases b <;> decide +kernel⟩, readyToStep_steps⟩

/-- Both cases of the invariant: a schedule loaded, and none. -/
theorem witness_StepKeepsTheScheduleValid :
    (ScheduleOk readyToStep ∧ ∃ t, step readyToStep = .next t) ∧ ScheduleOk { State.reset with pending := [wrreg .cmd 0] } :=
  ⟨⟨.inr (by decide +kernel), readyToStep_steps⟩, .inl (by decide)⟩

/-- Both cases of the invariant: a success reported, with PADOK set, and a failure reported. -/
theorem witness_StepKeepsTheReportOfTheLastCommand :
    (ReportOk { readyToStep with cmd := 0x0F, padok := true }) ∧
    ReportOk { readyToStep with cmd := 0xA004, err := .auth, errinfo := 0x0A00A004 } ∧ ∃ t, step readyToStep = .next t :=
  ⟨.inl (by decide +kernel), .inr ⟨.tag, by decide +kernel⟩, readyToStep_steps⟩

theorem witness_StepKeepsTheOutputWritten :
    OutputOk { readyToStep with dout := cellsAt 0 (zeros 16), doutlen := 16 } ∧ ∃ t, step readyToStep = .next t :=
  ⟨by unfold OutputOk; decide +kernel, readyToStep_steps⟩

/-! ### The commands one by one: each error clause at the edge of its range, then the success -/

theorem witness_NopDoesOnlyTheSuccessWrite :
    ((0x00000100 : Word).extractLsb' 0 8 = 0 ∧ (0x00000100 : Word) ≠ 0) ∧
    ((0x80000000 : Word).extractLsb' 0 8 = 0 ∧ (0x80000000 : Word) ≠ 0) := by decide

theorem witness_AesExpandLoadsTheKeySchedule :
    ((lengths 17 0 0 0).klen.toNat ∉ [16, 24, 32]) ∧
    ((lengths 32 0 0 0).klen.toNat ∈ [16, 24, 32] ∧ ((lengths 32 0 0 0).klen.toNat, 10) ∉ [(16, 10), (24, 12), (32, 14)]) ∧
    ((ready.klen.toNat, 14) ∈ [(16, 10), (24, 12), (32, 14)] ∧ (upFrom 0 32).length = ready.klen.toNat ∧
      ready.holds .key (upFrom 0 32)) := by decide +kernel

theorem witness_AesEncBlockEncryptsOneBlock :
    11 ∉ [10, 12, 14] ∧ (14 ∈ [10, 12, 14] ∧ State.reset.rkv = false) ∧
    (∀ s ∈ [lengthsRkv 10 0 0 16], 14 ∈ [10, 12, 14] ∧ s.rkv = true ∧ s.nr.toNat ≠ 14) ∧
    (∀ s ∈ [lengthsRkv 10 0 0 15, lengthsRkv 10 0 0 17],
      10 ∈ [10, 12, 14] ∧ s.rkv = true ∧ s.nr.toNat = 10 ∧ s.dinlen.toNat ≠ 16) ∧
    (10 ∈ [10, 12, 14] ∧ ready.rkv = true ∧ ready.nr.toNat = 10 ∧ ready.dinlen.toNat = 16 ∧
      ready.holdsKeys 10 (roundKeys (zeros 16)) ∧ (upFrom 3 16).length = 16 ∧ ready.holds .din (upFrom 3 16)) := by
  decide +kernel

/-- ROUNDS, RKINVALID, ROUNDS again, IVLEN, AADLEN (V-ERR-21), DATALEN (V-ERR-22 to V-ERR-24). -/
theorem witness_GcmCommandsCheckInOrder :
    (Instr.gcmDec 11 ∈ [Instr.gcmEnc 11, .gcmDec 11] ∧ 11 ∉ [10, 12, 14]) ∧
    (14 ∈ [10, 12, 14] ∧ State.reset.rkv = false) ∧
    (∀ s ∈ [lengthsRkv 10 0 0 0], 12 ∈ [10, 12, 14] ∧ s.rkv = true ∧ s.nr.toNat ≠ 12) ∧
    (∀ s ∈ [lengthsRkv 10 11 0 0, lengthsRkv 10 13 0 0],
      10 ∈ [10, 12, 14] ∧ s.rkv = true ∧ s.nr.toNat = 10 ∧ s.ivlen.toNat ≠ 12) ∧
    (∀ s ∈ [lengthsRkv 10 12 65 0],
      10 ∈ [10, 12, 14] ∧ s.rkv = true ∧ s.nr.toNat = 10 ∧ s.ivlen.toNat = 12 ∧ s.params.aadMax < s.aadlen.toNat) ∧
    (∀ s ∈ [lengthsRkv 10 12 64 257],
      10 ∈ [10, 12, 14] ∧ s.rkv = true ∧ s.nr.toNat = 10 ∧ s.ivlen.toNat = 12 ∧ s.aadlen.toNat ≤ s.params.aadMax ∧
      (Instr.gcmEnc 10 = .gcmEnc 10 ∧ s.params.dataMax < s.dinlen.toNat)) ∧
    (∀ s ∈ [lengthsRkv 10 12 64 15, lengthsRkv 10 12 64 273],
      10 ∈ [10, 12, 14] ∧ s.rkv = true ∧ s.nr.toNat = 10 ∧ s.ivlen.toNat = 12 ∧ s.aadlen.toNat ≤ s.params.aadMax ∧
      (Instr.gcmDec 10 = .gcmDec 10 ∧ (s.dinlen.toNat < 16 ∨ s.params.dataMax + 16 < s.dinlen.toNat))) := by
  decide +kernel

theorem witness_GcmEncWritesCiphertextAndTag :
    10 ∈ [10, 12, 14] ∧ ready.rkv = true ∧ ready.nr.toNat = 10 ∧ ready.ivlen.toNat = 12 ∧
    ready.aadlen.toNat ≤ ready.params.aadMax ∧ ready.dinlen.toNat ≤ ready.params.dataMax ∧
    ready.holdsKeys 10 (roundKeys (zeros 16)) ∧ (upFrom 1 12).length = 12 ∧ ready.holds .iv (upFrom 1 12) ∧
    (upFrom 2 3).length = ready.aadlen.toNat ∧ ready.holds .aad (upFrom 2 3) ∧
    (upFrom 3 16).length = ready.dinlen.toNat ∧ ready.holds .din (upFrom 3 16) ∧
    ((roundKeys (zeros 16)).length = 10 + 1 ∧ (∀ k ∈ roundKeys (zeros 16), k.length = 16) ∧ 16 < (upFrom 0 17).length) ∧
    (upFrom 0 32).length % 16 = 0 ∧ (upFrom 0 16).length = 16 := by decide +kernel

/-- The hypotheses but the last, on the start state of the V-GCM-9 vectors. -/
abbrev gcmDecReady (s : State) (c t : Bytes) : Prop :=
  10 ∈ [10, 12, 14] ∧ s.rkv = true ∧ s.nr.toNat = 10 ∧ s.ivlen.toNat = 12 ∧ s.aadlen.toNat ≤ s.params.aadMax ∧
  s.dinlen.toNat ≤ s.params.dataMax + 16 ∧ s.holdsKeys 10 (roundKeys (zeros 16)) ∧ (zeros 12).length = 12 ∧
  s.holds .iv (zeros 12) ∧ 0 = s.aadlen.toNat ∧ s.holds .aad [] ∧ t.length = 16 ∧ c.length + 16 = s.dinlen.toNat ∧ s.holds .din (c ++ t)

/-- The tag of no data and no AAD, as the statement computes it. -/
abbrev gcm9Tag : Bytes :=
  xorBytes (ghash (encryptBlock (zeros 16) (roundKeys (zeros 16)) 10)
      (pad16 [] ++ pad16 [] ++ toBE 8 (8 * ([] : Bytes).length) ++ toBE 8 (8 * ([] : Bytes).length)))
    (encryptBlock (zeros 12 ++ [0, 0, 0, 1]) (roundKeys (zeros 16)) 10)

/-- V-GCM-9d (right tag, no data) and a wrong tag. -/
theorem witness_GcmDecOpensOnlyUnderTheTag :
    (gcmDecReady (gcm9 (hex 16 0x58e2fccefa7e3061367f1d57a4e7455a)) [] (hex 16 0x58e2fccefa7e3061367f1d57a4e7455a) ∧
      tagEqual .exact gcm9Tag (hex 16 0x58e2fccefa7e3061367f1d57a4e7455a) = true) ∧
    (gcmDecReady (gcm9 (zeros 16)) [] (zeros 16) ∧
      tagEqual .exact gcm9Tag (zeros 16) = false) := by decide +kernel

theorem witness_Chacha20BlockWritesOneKeystreamBlock :
    (lengths 31 12 0 0).klen.toNat ≠ 32 ∧ ((lengths 32 13 0 0).klen.toNat = 32 ∧ (lengths 32 13 0 0).ivlen.toNat ≠ 12) ∧
    (ready.klen.toNat = 32 ∧ ready.ivlen.toNat = 12 ∧ (upFrom 0 32).length = 32 ∧ ready.holds .key (upFrom 0 32) ∧
      (upFrom 1 12).length = 12 ∧ ready.holds .iv (upFrom 1 12)) ∧
    ([3, 4, 9, 14].Nodup ∧ ∀ m ∈ [3, 4, 9, 14], m < (List.replicate 16 (1 : Word)).length) ∧ 15 < 16 := by decide +kernel

theorem witness_Chacha20XorEncryptsFromCtr :
    (lengths 33 12 0 0).klen.toNat ≠ 32 ∧ ((lengths 32 11 0 0).klen.toNat = 32 ∧ (lengths 32 11 0 0).ivlen.toNat ≠ 12) ∧
    (∀ s ∈ [lengths 32 12 0 257], s.klen.toNat = 32 ∧ s.ivlen.toNat = 12 ∧ s.params.dataMax < s.dinlen.toNat) ∧
    (ready.klen.toNat = 32 ∧ ready.ivlen.toNat = 12 ∧ ready.dinlen.toNat ≤ ready.params.dataMax ∧
      (upFrom 0 32).length = 32 ∧ ready.holds .key (upFrom 0 32) ∧ (upFrom 1 12).length = 12 ∧
      ready.holds .iv (upFrom 1 12) ∧ (upFrom 3 16).length = ready.dinlen.toNat ∧ ready.holds .din (upFrom 3 16)) := by
  decide +kernel

theorem witness_Poly1305MacWritesTheTag :
    (lengths 16 0 0 0).klen.toNat ≠ 32 ∧
    (∀ s ∈ [lengths 32 0 0 257], s.klen.toNat = 32 ∧ s.params.dataMax < s.dinlen.toNat) ∧
    (ready.klen.toNat = 32 ∧ ready.dinlen.toNat ≤ ready.params.dataMax ∧ (upFrom 0 32).length = 32 ∧
      ready.holds .key (upFrom 0 32) ∧ (upFrom 3 16).length = ready.dinlen.toNat ∧ ready.holds .din (upFrom 3 16)) := by
  decide +kernel

theorem witness_AeadCommandsCheckInOrder :
    Instr.c20pDec ∈ [Instr.c20pEnc, .c20pDec] ∧ (lengths 31 11 0 0).klen.toNat ≠ 32 ∧
    (∀ s ∈ [lengths 32 11 0 0, lengths 32 13 0 0], s.klen.toNat = 32 ∧ s.ivlen.toNat ≠ 12) ∧
    (∀ s ∈ [lengths 32 12 65 0], s.klen.toNat = 32 ∧ s.ivlen.toNat = 12 ∧ s.params.aadMax < s.aadlen.toNat) ∧
    (∀ s ∈ [lengths 32 12 64 257], s.klen.toNat = 32 ∧ s.ivlen.toNat = 12 ∧ s.aadlen.toNat ≤ s.params.aadMax ∧
      s.params.dataMax < s.dinlen.toNat) ∧
    (∀ s ∈ [lengths 32 12 64 15, lengths 32 12 64 273], s.klen.toNat = 32 ∧ s.ivlen.toNat = 12 ∧
      s.aadlen.toNat ≤ s.params.aadMax ∧ (s.dinlen.toNat < 16 ∨ s.params.dataMax + 16 < s.dinlen.toNat)) := by
  decide +kernel

/-- A 32-byte key, a 12-byte nonce, 3 bytes of AAD and 16 of data, all written and within their bounds. -/
theorem witness_C20pEncWritesCiphertextAndTag :
    (ready.klen.toNat = 32 ∧ ready.ivlen.toNat = 12 ∧ ready.aadlen.toNat ≤ ready.params.aadMax ∧
      ready.dinlen.toNat ≤ ready.params.dataMax ∧ (upFrom 0 32).length = 32 ∧ ready.holds .key (upFrom 0 32) ∧
      (upFrom 1 12).length = 12 ∧ ready.holds .iv (upFrom 1 12) ∧ (upFrom 2 3).length = ready.aadlen.toNat ∧
      ready.holds .aad (upFrom 2 3) ∧ (upFrom 3 16).length = ready.dinlen.toNat ∧ ready.holds .din (upFrom 3 16)) ∧
    ∃ c, c = chachaXor (upFrom 0 32) 1 (upFrom 1 12) (upFrom 3 16) := by
  refine ⟨?_, _, rfl⟩
  decide +kernel

/-- The hypotheses but the last: zero key and nonce, empty AAD and ciphertext. -/
abbrev c20pDecReady (s : State) (t : Bytes) : Prop :=
  s.klen.toNat = 32 ∧ s.ivlen.toNat = 12 ∧ s.aadlen.toNat ≤ s.params.aadMax ∧
  s.dinlen.toNat ≤ s.params.dataMax + 16 ∧ (zeros 32).length = 32 ∧ s.holds .key (zeros 32) ∧
  (zeros 12).length = 12 ∧ s.holds .iv (zeros 12) ∧
  0 = s.aadlen.toNat ∧ s.holds .aad [] ∧ t.length = 16 ∧ 0 + 16 = s.dinlen.toNat ∧ s.holds .din ([] ++ t)

/-- V-AE-2 and a wrong tag. -/
theorem witness_C20pDecOpensOnlyUnderTheTag :
    (c20pDecReady (readyWith (zeros 32) (zeros 12) (hex 16 0x4eb972c9a8fb3a1b382bb4d36f5ffad1))
        (hex 16 0x4eb972c9a8fb3a1b382bb4d36f5ffad1) ∧
      hex 16 0x4eb972c9a8fb3a1b382bb4d36f5ffad1 = aeadTag (zeros 32) (zeros 12) [] []) ∧
    (c20pDecReady (readyWith (zeros 32) (zeros 12) (zeros 16)) (zeros 16) ∧
      zeros 16 ≠ aeadTag (zeros 32) (zeros 12) [] []) := by decide +kernel

theorem witness_DesCommandsProcessOneBlock :
    (Instr.desDec, true) ∈ [(Instr.desEnc, false), (.desDec, true)] ∧ (lengths 16 0 0 8).klen.toNat ≠ 8 ∧
    ((lengths 8 0 0 16).klen.toNat = 8 ∧ (lengths 8 0 0 16).dinlen.toNat ≠ 8) ∧
    (∀ s ∈ [readyWith (upFrom 0 8) [] (upFrom 9 8)], s.klen.toNat = 8 ∧ s.dinlen.toNat = 8 ∧ (upFrom 0 8).length = 8 ∧
      s.holds .key (upFrom 0 8) ∧ (upFrom 9 8).length = 8 ∧ s.holds .din (upFrom 9 8)) ∧
    ((∀ t ∈ desPC2, 1 ≤ t ∧ t ≤ 56) ∧ 47 < desPC2.length) ∧ 15 < 16 ∧ 7 < 8 := by decide +kernel

/-- Two keys and three. -/
theorem witness_TdesCommandsProcessOneBlock :
    (Instr.tdesDec, true) ∈ [(Instr.tdesEnc, false), (.tdesDec, true)] ∧ (lengths 8 0 0 8).klen.toNat ∉ [16, 24] ∧
    ((lengths 24 0 0 9).klen.toNat ∈ [16, 24] ∧ (lengths 24 0 0 9).dinlen.toNat ≠ 8) ∧
    (∀ s ∈ [readyWith (upFrom 0 16) [] (upFrom 9 8)],
      upFrom 0 16 = upFrom 0 8 ++ upFrom 8 8 ∧ s.klen.toNat = (upFrom 0 16).length ∧ s.dinlen.toNat = 8 ∧
      s.holds .key (upFrom 0 16) ∧ (upFrom 9 8).length = 8 ∧ s.holds .din (upFrom 9 8)) ∧
    (∀ s ∈ [readyWith (upFrom 0 24) [] (upFrom 9 8)],
      upFrom 0 24 = upFrom 0 8 ++ upFrom 8 8 ++ upFrom 16 8 ∧ s.klen.toNat = (upFrom 0 24).length ∧
      s.dinlen.toNat = 8 ∧ s.holds .key (upFrom 0 24) ∧ s.holds .din (upFrom 9 8)) := by decide +kernel

theorem witness_TdesCbcEncPadsAndChains :
    (lengths 8 8 0 0).klen.toNat ∉ [16, 24] ∧
    ((lengths 24 16 0 0).klen.toNat ∈ [16, 24] ∧ (lengths 24 16 0 0).ivlen.toNat ≠ 8) ∧
    ((lengths 16 8 0 257).klen.toNat ∈ [16, 24] ∧ (lengths 16 8 0 257).ivlen.toNat = 8 ∧
      (lengths 16 8 0 257).params.dataMax < (lengths 16 8 0 257).dinlen.toNat) ∧
    (∀ s ∈ [readyWith (upFrom 0 24) (upFrom 1 8) (upFrom 3 16)],
      s.klen.toNat ∈ [16, 24] ∧ s.ivlen.toNat = 8 ∧ s.dinlen.toNat ≤ s.params.dataMax ∧
      (upFrom 0 24).length = s.klen.toNat ∧ s.holds .key (upFrom 0 24) ∧ (upFrom 1 8).length = 8 ∧
      s.holds .iv (upFrom 1 8) ∧ (upFrom 3 16).length = s.dinlen.toNat ∧ s.holds .din (upFrom 3 16) ∧
      24 = (upFrom 3 16).length + 8 - (upFrom 3 16).length % 8) ∧
    ((upFrom 1 8).length = 8 ∧ (upFrom 3 16).length % 8 = 0 ∧ 1 < (upFrom 3 16).length / 8) := by decide +kernel

theorem witness_TdesCbcDecChainsAndUnpads :
    (lengths 32 8 0 0).klen.toNat ∉ [16, 24] ∧
    ((lengths 16 12 0 0).klen.toNat ∈ [16, 24] ∧ (lengths 16 12 0 0).ivlen.toNat ≠ 8) ∧
    (∀ s ∈ [lengths 24 8 0 12, lengths 24 8 0 272], s.klen.toNat ∈ [16, 24] ∧ s.ivlen.toNat = 8 ∧
      (s.params.dataMax + 8 < s.dinlen.toNat ∨ s.dinlen.toNat % 8 ≠ 0)) ∧
    (∀ s ∈ [readyWith (upFrom 0 16) (upFrom 1 8) (upFrom 3 16)],
      s.klen.toNat ∈ [16, 24] ∧ s.ivlen.toNat = 8 ∧ s.dinlen.toNat ≤ s.params.dataMax + 8 ∧ s.dinlen.toNat % 8 = 0 ∧
      (upFrom 0 16).length = s.klen.toNat ∧ s.holds .key (upFrom 0 16) ∧ (upFrom 1 8).length = 8 ∧
      s.holds .iv (upFrom 1 8) ∧ (upFrom 3 16).length = s.dinlen.toNat ∧ s.holds .din (upFrom 3 16)) ∧
    ((upFrom 1 8).length = 8 ∧ (upFrom 3 16).length % 8 = 0 ∧ 1 < (upFrom 3 16).length / 8) := by decide +kernel

theorem witness_Pkcs5PadAppendsThePad :
    ((lengths 0 0 0 257).params.dataMax < (lengths 0 0 0 257).dinlen.toNat) ∧
    (ready.dinlen.toNat ≤ ready.params.dataMax ∧ (upFrom 3 16).length = ready.dinlen.toNat ∧
      ready.holds .din (upFrom 3 16) ∧ 8 = 8 - (upFrom 3 16).length % 8) := by decide +kernel

/-- Too long; a valid pad of 8 bytes; a string that ends in no valid pad (its last byte is 18). -/
theorem witness_Pkcs5UnpadStripsOnlyValidPadding :
    ((lengths 0 0 0 273).params.dataMax + 16 < (lengths 0 0 0 273).dinlen.toNat) ∧
    (∀ s ∈ [readyWith [] [] (List.replicate 8 8)], s.dinlen.toNat ≤ s.params.dataMax + 16 ∧ 1 ≤ 8 ∧ 8 ≤ 8 ∧
      ([] : Bytes).length + 8 = s.dinlen.toNat ∧ s.holds .din ([] ++ List.replicate 8 (BitVec.ofNat 8 8))) ∧
    (ready.dinlen.toNat ≤ ready.params.dataMax + 16 ∧ (upFrom 3 16).length = ready.dinlen.toNat ∧
      ready.holds .din (upFrom 3 16)) ∧
    (∀ (u : Bytes) (n : Nat), 1 ≤ n → n ≤ 8 → upFrom 3 16 ≠ u ++ List.replicate n (BitVec.ofNat 8 n)) := by
  refine ⟨by decide +kernel, by decide +kernel, by decide +kernel, fun u n h1 h8 h => ?_⟩
  have hl : (upFrom 3 16).getLast? = some (BitVec.ofNat 8 n) := by
    rw [h, List.getLast?_append]
    obtain ⟨m, rfl⟩ : ∃ m, n = m + 1 := ⟨n - 1, by omega⟩
    simp [List.getLast?_replicate]
  rw [show (upFrom 3 16).getLast? = some 18#8 by decide] at hl
  interval_cases n <;> simp at hl

theorem witness_GenCommandsStoreTheDrawnBytes :
    (6, 24) ∈ [(1, 16), (2, 24), (3, 32), (4, 32), (5, 16), (6, 24)] ∧
    (6, 8) ∈ [(1, 12), (2, 12), (3, 12), (4, 12), (5, 8), (6, 8)] ∧ 0 ∉ [1, 2, 3, 4, 5, 6] ∧ 7 ∉ [1, 2, 3, 4, 5, 6] := by
  decide

theorem witness_GcmDecInvertsGcmEnc :
    ready.dinlen.toNat + 16 < 2 ^ 32 ∧ ∃ t, exec (.gcmEnc 10) ready = .next t ∧ t.err = .ok :=
  ⟨by decide +kernel, exists_of_endsNext_true (by decide +kernel)⟩

theorem witness_C20pDecInvertsC20pEnc :
    ready.dinlen.toNat + 16 < 2 ^ 32 ∧ ∃ t, exec .c20pEnc ready = .next t ∧ t.err = .ok :=
  ⟨by decide +kernel, exists_of_endsNext_true (by decide +kernel)⟩

theorem witness_TdesCbcDecInvertsTdesCbcEnc :
    ∃ s : State, s.dinlen.toNat + 8 < 2 ^ 32 ∧ ∃ t, exec .tdesCbcEnc s = .next t ∧ t.err = .ok :=
  ⟨readyWith (upFrom 0 24) (upFrom 1 8) (upFrom 3 16), by decide +kernel, exists_of_endsNext_true (by decide +kernel)⟩

/-! ### The algorithms -/

theorem witness_KeyScheduleFollowsTheRecurrence :
    (∀ p ∈ [(4, 10), (6, 12), (8, 14)], (upFrom 0 (4 * p.1)).length = 4 * p.1) ∧ 3 < 4 ∧
    (4 ≤ 43 ∧ (∃ prev, (expandKey (upFrom 0 16))[43 - 1]? = some prev) ∧
      (∃ back, (expandKey (upFrom 0 16))[43 - 4]? = some back) ∧ ∃ w, (expandKey (upFrom 0 16))[43]? = some w) := by
  simp only [← Option.isSome_iff_exists]; decide +kernel

theorem witness_RoundTransformationsActOnTheMatrix : (upFrom 0 16).length = 16 ∧ 3 < 4 := by decide

theorem witness_Gf128MulIsBilinearWithOne : (0x40#128 <<< 120).getLsbD 0 = false := by decide

theorem witness_Inc32TouchesOnlyTheLastFourBytes : (List.replicate 16 (0xFF : Byte)).length = 16 := by decide

theorem witness_TagComparisonModes : (upFrom 0 16).length = 16 ∧ (upFrom 1 16).length = 16 := by decide

theorem witness_ChachaXorUsesOneBlockPer64Bytes :
    (upFrom 0 32).length = 32 ∧ (upFrom 0 12).length = 12 ∧ 64 < (upFrom 0 65).length := by decide

theorem witness_Poly1305EvaluatesTheMessagePolynomial : 2 = (chunks 16 (upFrom 0 17)).length := by decide

theorem witness_DesDecryptInvertsEncrypt : (upFrom 0 8).length = 8 := by decide

/-- Two keys that differ in parity bits only. -/
theorem witness_DesIgnoresKeyParity :
    (hex 8 0x133457799bbcdff1).length = 8 ∧ (hex 8 0x133457799bbcdff0).length = 8 ∧
    hex 8 0x133457799bbcdff1 ≠ hex 8 0x133457799bbcdff0 ∧
    ∀ i < 8, (hex 8 0x133457799bbcdff1).getD i 0 >>> 1 = (hex 8 0x133457799bbcdff0).getD i 0 >>> 1 := by decide

theorem witness_TripleDesInvertsAndReduces :
    (upFrom 0 8).length = 8 ∧ (upFrom 8 8).length = 8 ∧ (upFrom 16 8).length = 8 := by decide

/-- Padded strings and one that is not. -/
theorem witness_PaddingIsRecognisedAndStripped :
    padValid (padPkcs5 (upFrom 0 8)) = true ∧ padValid [] = false ∧ 1 ≤ 8 ∧
    padPkcs5 (upFrom 0 8) = upFrom 0 8 ++ List.replicate 8 (BitVec.ofNat 8 8) := by decide

end Sys2Proof.Tests
end

section
/-! PROOFS. DES: the bits of a table permutation, the key schedule, the round function, the rounds, the one-block commands
(00_scope R16, 45_tdes R401 to R413). -/
namespace Sys2Proof.Machine

/-! ## Positional sums: `perm` in base 2 (00_scope R16), the S-box layer in base 16 (R403) -/

/-- The digit of weight `B ^ (length - 1 - j)` of a sum written most significant digit first is the `j`-th one. -/
theorem foldl_digit {α : Type} (B : Nat) (f : α → Nat) (l : List α) (hf : ∀ a ∈ l, f a < B) (j : Nat)
    (hj : j < l.length) :
    l.foldl (fun y a => B * y + f a) 0 / B ^ (l.length - 1 - j) % B = f l[j] := by
  induction l using List.reverseRecOn with
  | nil => simp at hj
  | append_singleton l a ih =>
    have ha : f a < B := hf a (by simp)
    rw [List.foldl_append, List.foldl_cons, List.foldl_nil, List.length_append, List.length_singleton,
      Nat.add_sub_cancel]
    by_cases hlast : j = l.length
    · subst hlast
      simp [Nat.mod_eq_of_lt ha]
    · have hlt : j < l.length := by rw [List.length_append, List.length_singleton] at hj; omega
      rw [show l.length - j = l.length - 1 - j + 1 by omega, Nat.pow_succ', ← Nat.div_div_eq_div_mul,
        Nat.mul_add_div (by omega), Nat.div_eq_of_lt ha, Nat.add_zero, List.getElem_append_left hlt]
      exact ih (fun b hb => hf b (by simp [hb])) hlt

theorem desBit_lt {n : Nat} (x : BitVec n) (t : Nat) : desBit x t < 2 := Nat.mod_lt _ (by omega)

/-- Output bit `j` of a table permutation, from the most significant, is the input bit the table numbers (R16). -/
theorem perm_getLsbD {n : Nat} (T : List Nat) (x : BitVec n) {j : Nat} (hj : j < T.length) :
    (perm T.length T x).getLsbD (T.length - 1 - j) = x.getLsbD (n - T.getD j 0) := by
  have hdigit := foldl_digit 2 (desBit x) T (fun t _ => desBit_lt x t) j hj
  rw [perm, BitVec.getLsbD_ofNat, Nat.testBit_eq_decide_div_mod_eq, hdigit, desBit, Nat.shiftRight_eq_div_pow,
    ← Nat.testBit_eq_decide_div_mod_eq, ← BitVec.getLsbD, List.getD_eq_getElem _ _ hj]
  simp [show T.length - 1 - j < T.length by omega]

/-! ## The key schedule (R401) -/

/-- A half of the key after the first `i` rotations of a list. -/
def rotatedHalf (c : BitVec 28) (shifts : List Nat) (i : Nat) : BitVec 28 :=
  (shifts.take i).foldl BitVec.rotateLeft c

@[simp] theorem rotatedHalf_zero (c : BitVec 28) (shifts : List Nat) : rotatedHalf c shifts 0 = c := rfl

@[simp] theorem rotatedHalf_cons_succ (c : BitVec 28) (n : Nat) (shifts : List Nat) (i : Nat) :
    rotatedHalf c (n :: shifts) (i + 1) = rotatedHalf (c.rotateLeft n) shifts i := rfl

theorem rotatedHalf_succ (c : BitVec 28) {shifts : List Nat} {i : Nat} (hi : i < shifts.length) :
    rotatedHalf c shifts (i + 1) = (rotatedHalf c shifts i).rotateLeft (shifts.getD i 0) := by
  rw [rotatedHalf, List.take_succ_eq_append_getElem hi, List.foldl_append, List.getD_eq_getElem _ _ hi]
  rfl

@[simp] theorem desSchedule_length (c d : BitVec 28) (shifts : List Nat) :
    (desSchedule c d shifts).length = shifts.length := by
  induction shifts generalizing c d with
  | nil => rfl
  | cons n shifts ih => simp [desSchedule, ih]

/-- Subkey `i` is PC2 of the halves after `i + 1` rotations. -/
theorem desSchedule_getElem? (c d : BitVec 28) {shifts : List Nat} {i : Nat} (hi : i < shifts.length) :
    (desSchedule c d shifts)[i]? =
      some (perm 48 desPC2 (rotatedHalf c shifts (i + 1) ++ rotatedHalf d shifts (i + 1))) := by
  induction shifts generalizing c d i with
  | nil => simp at hi
  | cons n shifts ih =>
    cases i with
    | zero => simp [desSchedule]
    | succ i => simpa [desSchedule] using ih (c.rotateLeft n) (d.rotateLeft n) (by simpa using hi)

@[simp] theorem desSubkeys_length (k : Bytes) : (desSubkeys k).length = 16 := desSchedule_length _ _ _

/-- A word is its high bits over its low bits. -/
theorem extractLsb'_append_self {m n : Nat} (x : BitVec (m + n)) : x.extractLsb' n m ++ x.extractLsb' 0 n = x := by
  rw [BitVec.extractLsb'_append_extractLsb'_eq_extractLsb' (by simp)]
  simp

/-! ## The round function (R403) -/

theorem desSbox_eq (box : List (List Nat)) (b : BitVec 6) :
    desSbox box b = (box.getD (2 * (b.toNat / 32) + b.toNat % 2) []).getD (b.toNat / 2 % 16) 0 := by
  have hrow : ∀ b : BitVec 6, (b.toNat >>> 4 &&& 2) ||| (b.toNat &&& 1) = 2 * (b.toNat / 32) + b.toNat % 2 := by decide
  have hcol : ∀ b : BitVec 6, b.toNat >>> 1 &&& 0xf = b.toNat / 2 % 16 := by decide
  rw [desSbox, hrow, hcol]

/-- What holds of the default and of every entry holds of every lookup. -/
theorem getD_of_forall_mem {α : Type} {P : α → Prop} {l : List α} {d : α} (hd : P d) (hl : ∀ a ∈ l, P a) (i : Nat) :
    P (l.getD i d) := by
  by_cases hi : i < l.length
  · rw [List.getD_eq_getElem _ _ hi]; exact hl _ (List.getElem_mem hi)
  · rwa [List.getD_eq_default _ _ (by omega)]

/-- Every lookup in an S-box gives a 4-bit number. -/
theorem desSbox_lt (i : Nat) (b : BitVec 6) : desSbox (desS.getD i []) b < 16 := by
  have hentries : ∀ box ∈ desS, ∀ row ∈ box, ∀ v ∈ row, v < 16 := by decide
  have hrows : ∀ row ∈ desS.getD i [], ∀ v ∈ row, v < 16 :=
    getD_of_forall_mem (P := fun box => ∀ row ∈ box, ∀ v ∈ row, v < 16) (by simp) hentries i
  exact getD_of_forall_mem (by omega) (getD_of_forall_mem (P := fun row => ∀ v ∈ row, v < 16) (by simp) hrows _) _

/-- Output group `i`, from the top, is S-box `i` at input group `i` (R403). -/
theorem desSubstitute_group (x : BitVec 48) {i : Nat} (hi : i < 8) :
    ((desSubstitute x).extractLsb' (28 - 4 * i) 4).toNat = desSbox (desS.getD i []) (x.extractLsb' (42 - 6 * i) 6) := by
  have hdigit := foldl_digit 16 (fun i => desSbox (desS.getD i []) (x.extractLsb' (48 - 6 * (i + 1)) 6)) (List.range 8)
    (fun _ _ => desSbox_lt _ _) i (by simpa using hi)
  simp only [List.length_range, List.getElem_range] at hdigit
  rw [show 48 - 6 * (i + 1) = 42 - 6 * i by omega] at hdigit
  rw [← hdigit, desSubstitute, BitVec.extractLsb'_toNat, BitVec.toNat_ofNat, Nat.shiftRight_eq_div_pow]
  generalize List.foldl _ 0 (List.range 8) = y
  interval_cases i <;> omega

/-! ## The rounds (R404) -/

/-- One more round after a list of rounds. -/
theorem desRounds_concat (ks : List (BitVec 48)) (k : BitVec 48) (lr : BitVec 32 × BitVec 32) :
    desRounds (ks ++ [k]) lr = ((desRounds ks lr).2, (desRounds ks lr).1 ^^^ desF (desRounds ks lr).2 k) := by
  induction ks generalizing lr with
  | nil => rfl
  | cons k' ks ih => exact ih _

/-- The halves after `i + 1` rounds from those after `i`. -/
theorem desRounds_take_succ {ks : List (BitVec 48)} {i : Nat} (hi : i < ks.length) (lr : BitVec 32 × BitVec 32) :
    desRounds (ks.take (i + 1)) lr =
      ((desRounds (ks.take i) lr).2,
        (desRounds (ks.take i) lr).1 ^^^ desF (desRounds (ks.take i) lr).2 (ks.getD i 0)) := by
  rw [List.take_succ_eq_append_getElem hi, desRounds_concat, List.getD_eq_getElem _ _ hi]

/-- The halves of a block before and between the rounds, the first and the last tied to IP and FP. -/
theorem desBlock_eq_rounds (ks : List (BitVec 48)) (x : BitVec 64) :
    ∃ L R : Nat → BitVec 32, L 0 ++ R 0 = perm 64 desIP x ∧
      (∀ i < ks.length, L (i + 1) = R i ∧ R (i + 1) = L i ^^^ desF (R i) (ks.getD i 0)) ∧
      desBlock ks x = perm 64 desFP (R ks.length ++ L ks.length) := by
  unfold desBlock
  generalize perm 64 desIP x = y
  refine ⟨fun i => (desRounds (ks.take i) (y.extractLsb' 32 32, y.extractLsb' 0 32)).1,
    fun i => (desRounds (ks.take i) (y.extractLsb' 32 32, y.extractLsb' 0 32)).2,
    extractLsb'_append_self (m := 32) (n := 32) y, fun i hi => ?_, ?_⟩
  · simp only [desRounds_take_succ hi, and_self]
  · simp only [List.take_length]

/-! ## The one-block commands (R410 to R413) -/

section
variable (i : Instr) {klens : List Nat} (cipher : Bytes → Bytes → Bytes) {s : State}

theorem runBlockCipher_of_klen_not_mem (hk : s.klen.toNat ∉ klens) :
    runBlockCipher i klens cipher s = .next (raise (encode i) .keylen s) :=
  runCommand_of_fail (by simp [keylenCheck, hk]) _ _

theorem runBlockCipher_of_dinlen_ne (hk : s.klen.toNat ∈ klens) (hd : s.dinlen.toNat ≠ 8) :
    runBlockCipher i klens cipher s = .next (raise (encode i) .datalen s) :=
  runCommand_of_fail (by simp [keylenCheck, dinlenExactCheck, hk, hd]) _ _

theorem runBlockCipher_of_holds {k b : Bytes} (hc : (cipher k b).length = 8) (hk : s.klen.toNat ∈ klens)
    (hd : s.dinlen.toNat = 8) (hkl : k.length = s.klen.toNat) (hkey : s.holds .key k) (hbl : b.length = 8)
    (hdin : s.holds .din b) :
    runBlockCipher i klens cipher s = .next { s with
      dout := s.dout.write 0 (cipher k b), err := .ok, padok := false, errinfo := 0, doutlen := 8 } := by
  have hkread : s.keyOperand = .ok k := bufRead_of_holds hkey hkl
  have hdread : s.dinOperand = .ok b := bufRead_of_holds hdin (hbl.trans hd.symm)
  rw [runBlockCipher, runCommand_of_pass (by simp [keylenCheck, dinlenExactCheck, hk, hd]), hkread, hdread,
    reading_ok, reading_ok, finishWith, hc]
  rfl

end

/-! ## DES_ENC and DES_DEC, and what DES is -/

theorem exec_des {i : Instr} {decrypt : Bool} (hi : (i, decrypt) ∈ [(Instr.desEnc, false), (.desDec, true)]) (s : State) :
    exec i s = runBlockCipher i [8] (fun k b => des k b decrypt) s := by
  simp only [List.mem_cons, Prod.mk.injEq, List.not_mem_nil, or_false] at hi
  obtain ⟨rfl, rfl⟩ | ⟨rfl, rfl⟩ := hi <;> rfl

/-- The sixteen subkeys from the rotated halves of PC1 of the key (R401). -/
theorem desSubkeys_from_rotations (k : Bytes) :
    ∃ C D : Nat → BitVec 28, C 0 ++ D 0 = perm 56 desPC1 (BitVec.ofNat 64 (be k)) ∧
      ∀ i < 16, C (i + 1) = (C i).rotateLeft (desShifts.getD i 0) ∧ D (i + 1) = (D i).rotateLeft (desShifts.getD i 0) ∧
        (desSubkeys k)[i]? = some (perm 48 desPC2 (C (i + 1) ++ D (i + 1))) := by
  unfold desSubkeys
  generalize perm 56 desPC1 (BitVec.ofNat 64 (be k)) = cd
  exact ⟨rotatedHalf (cd.extractLsb' 28 28) desShifts, rotatedHalf (cd.extractLsb' 0 28) desShifts,
    by rw [rotatedHalf_zero, rotatedHalf_zero]; exact extractLsb'_append_self (m := 28) (n := 28) cd,
    fun i hi => ⟨rotatedHalf_succ _ hi, rotatedHalf_succ _ hi, desSchedule_getElem? _ _ hi⟩⟩

/-- Round `i` of a decryption takes the subkeys from the last. -/
theorem desSubkeys_order_getD (k : Bytes) (decrypt : Bool) {i : Nat} (hi : i < 16) :
    (if decrypt then (desSubkeys k).reverse else desSubkeys k).getD i 0 =
      (desSubkeys k).getD (if decrypt then 15 - i else i) 0 := by
  cases decrypt with
  | false => rfl
  | true =>
    have hlast : i < (desSubkeys k).length := by simpa using hi
    simp [List.getElem?_reverse hlast]

/-- A block is IP, sixteen rounds, and FP of the swapped halves (R404). -/
theorem des_eq_rounds (k b : Bytes) (decrypt : Bool) :
    ∃ L R : Nat → BitVec 32,
      L 0 ++ R 0 = perm 64 desIP (BitVec.ofNat 64 (be b)) ∧
      (∀ i < 16, L (i + 1) = R i ∧
        R (i + 1) = L i ^^^ desF (R i) ((desSubkeys k).getD (if decrypt then 15 - i else i) 0)) ∧
      des k b decrypt = toBE 8 (perm 64 desFP (R 16 ++ L 16)).toNat := by
  obtain ⟨L, R, h0, hround, hend⟩ :=
    desBlock_eq_rounds (if decrypt then (desSubkeys k).reverse else desSubkeys k) (BitVec.ofNat 64 (be b))
  have hlen : (if decrypt then (desSubkeys k).reverse else desSubkeys k).length = 16 := by split <;> simp
  rw [hlen] at hround hend
  refine ⟨L, R, h0, fun i hi => ?_, by rw [des, hend]⟩
  rw [← desSubkeys_order_getD k decrypt hi]
  exact hround i hi

/-- Settles O39: the one-block frame, bits of a table permutation, the rotations of the key schedule, the S-box groups
and the rounds, one more subkey at a time. -/
theorem desCommandsProcessOneBlock : Obligations.DesCommandsProcessOneBlock := by
  refine ⟨fun s i decrypt hi => ?_, fun n T x _ j hj => perm_getLsbD T x hj,
    fun k => ⟨desSubkeys_length k, desSubkeys_from_rotations k⟩,
    fun r k => ⟨desSubstitute (perm 48 desE r ^^^ k), rfl, fun i hi b hb => ?_⟩, des_eq_rounds⟩
  · rw [exec_des hi]
    refine ⟨fun hk => runBlockCipher_of_klen_not_mem _ _ (by simpa using hk),
      fun hk hd => runBlockCipher_of_dinlen_ne _ _ (by simpa using hk) hd,
      fun k b hk hd hkl hkey hbl hdin => runBlockCipher_of_holds i (fun k b => des k b decrypt) (des_length _ _ _)
        (by simpa using hk) hd (hkl.trans hk.symm) hkey hbl hdin⟩
  · rw [desSubstitute_group _ hi, ← hb, desSbox_eq]

end Sys2Proof.Machine
end

section
/-! PROOFS. What every step keeps: the word of a decoded command, the states a command can lead to, and the four
invariants (10_state R33, R34, R39 to R44, R50; 60_exceptions R532 to R534). -/
namespace Sys2Proof.Machine

/-! ## The word of a decoded command (30_encoding R110, R113, R114) -/

/-- A word whose reserved fields are zero is assembled from its other fields (R110). -/
theorem assemble_fields {v : Word} (h0 : rsv0Field v = 0) (h1 : rsv1Field v = 0) :
    assemble (opcField v) (dirField v) (nrfField v) (algField v) = v := by
  have hrsv0 : v.extractLsb' 9 3 = 0#3 := BitVec.eq_of_toNat_eq h0
  have hrsv1 : v.extractLsb' 20 12 = 0#12 := BitVec.eq_of_toNat_eq h1
  simp only [assemble, opcField, dirField, nrfField, algField, BitVec.ofNat_toNat, BitVec.setWidth_eq, ← hrsv0, ← hrsv1]
  rw [BitVec.extractLsb'_append_extractLsb'_eq_extractLsb' (by rfl),
    BitVec.extractLsb'_append_extractLsb'_eq_extractLsb' (by rfl),
    BitVec.extractLsb'_append_extractLsb'_eq_extractLsb' (by rfl),
    BitVec.extractLsb'_append_extractLsb'_eq_extractLsb' (by rfl),
    BitVec.extractLsb'_append_extractLsb'_eq_extractLsb' (by rfl)]
  exact BitVec.extractLsb'_eq_self

/-- The FIELD check passes exactly when every reserved field and every field the opcode does not use is zero (R114). -/
theorem fieldError_eq_false {v : Word} : fieldError v = false ↔
    rsv1Field v = 0 ∧ rsv0Field v = 0 ∧ (usesDir (opcField v) = false → dirField v = 0) ∧
      (usesNrf (opcField v) = false → nrfField v = 0) ∧ (usesAlg (opcField v) = false → algField v = 0) := by
  simp [fieldError, and_assoc]

/-- The row selected has the fields it was selected by, if those its opcode does not use are zero (R113). -/
theorem selectCommand_fields {opc dir nrf alg : Nat} {i : Instr} (hlt : dir < 2)
    (hdir : usesDir opc = false → dir = 0) (hnrf : usesNrf opc = false → nrf = 0)
    (halg : usesAlg opc = false → alg = 0) (h : selectCommand opc dir nrf alg = some i) :
    opcodeOf i = opc ∧ dirOf i = dir ∧ nrfOf i = nrf ∧ algOf i = alg := by
  unfold selectCommand at h
  split at h <;> cases h <;> simp_all [opcodeOf, dirOf, nrfOf, algOf, usesDir, usesNrf, usesAlg] <;> omega

/-- A word the decoder accepts is the word of the instruction it gives (R113, R114). -/
theorem encode_of_decode {v : Word} {i : Instr} (h : decode v = .ok i) : encode i = v := by
  unfold decode at h
  split_ifs at h with hopc hfield
  split at h
  · next j hj =>
    cases h
    obtain ⟨hrsv1, hrsv0, hdir, hnrf, halg⟩ := fieldError_eq_false.1 (Bool.eq_false_iff.2 hfield)
    obtain ⟨h1, h2, h3, h4⟩ := selectCommand_fields (BitVec.isLt _) hdir hnrf halg hj
    rw [encode, h1, h2, h3, h4, assemble_fields hrsv0 hrsv1]
  · cases h

/-! ## The states a command can lead to -/

/-- What a command that reaches a next state did: its failure write, or the success write and one of five effects on the
rest of the state. -/
inductive CommandTo (i : Instr) (s : State) : State → Prop where
  /-- A check failed, or a tag differed. -/
  | failed (r : Reason) : CommandTo i s (raise (encode i) r s)
  /-- Nothing but the report was written. -/
  | nothing : CommandTo i s (finish 0 false s)
  /-- A key schedule was loaded. -/
  | schedule {nrf : Nat} {keys : Bytes} (hn : nrf ∈ [10, 12, 14]) (hl : keys.length = 16 * (nrf + 1)) :
      CommandTo i s (finish 0 false { s.bufWrite .rk 0 keys with nr := BitVec.ofNat 32 nrf, rkv := true })
  /-- A key was drawn. -/
  | key {n : Nat} (hn : n ≤ 32) :
      CommandTo i s (finish 0 false
        { (s.afterDraw n).bufWrite .key 0 (s.drawBytes n) with klen := BitVec.ofNat 32 n })
  /-- A nonce was drawn. -/
  | nonce {n : Nat} (hn : n ≤ 16) :
      CommandTo i s (finish 0 false
        { (s.afterDraw n).bufWrite .iv 0 (s.drawBytes n) with ivlen := BitVec.ofNat 32 n })
  /-- Output was written to DOUT. -/
  | output {out : Bytes} {p : Bool} (hl : out.length ≤ 64 ∨ out.length ≤ s.params.dataMax + 16)
      (hp : p = true → i = .tdesCbcDec ∨ i = .pkcs5Unpad) : CommandTo i s (finishWith out p s)

/-- The round keys AES_EXPAND stores are `nrf + 1`, of 16 bytes each. -/
theorem expanded_length {key : Bytes} {nrf : Nat} (h : (key.length, nrf) ∈ [(16, 10), (24, 12), (32, 14)]) :
    nrf ∈ [10, 12, 14] ∧ (roundKeys key).flatten.length = 16 * (nrf + 1) := by
  have hshape : nrf ∈ [10, 12, 14] ∧ (key.length / 4, nrf) ∈ [(4, 10), (6, 12), (8, 14)] ∧
      key.length = 4 * (key.length / 4) := by
    simp only [List.mem_cons, Prod.mk.injEq, List.not_mem_nil, or_false] at h ⊢
    omega
  obtain ⟨hn, hk, hl⟩ := hshape
  exact ⟨hn, roundKeys_flatten_length hk hl⟩

theorem Succeeds.commandTo {i : Instr} {s t : State} (h : Succeeds i s t) : CommandTo i s t := by
  cases i with
  | nop => cases h; exact .nothing
  | aesExpand nrf =>
    obtain ⟨key, hn, hl, -, rfl⟩ := h
    obtain ⟨hn, hl⟩ := expanded_length (hl ▸ hn)
    exact .schedule hn hl
  | genKey alg =>
    obtain ⟨n, hn, rfl⟩ := h
    exact .key (by simp at hn; omega)
  | genNonce alg =>
    obtain ⟨n, hn, rfl⟩ := h
    exact .nonce (by simp at hn; omega)
  | _ =>
    obtain ⟨out, p, -, hl, hp, rfl⟩ := h
    exact .output hl hp

theorem exec_next {i : Instr} {s t : State} (h : exec i s = .next t) : CommandTo i s t := by
  rcases exec_ends i s with ⟨r, -, -, -, he⟩ | ⟨-, bn, -, j, -, -, he⟩ | ⟨t', -, -, hs, he⟩ <;> rw [he] at h
  · cases h; exact .failed r
  · cases h
  · cases h; exact hs.commandTo

/-! ## Cells after a write (10_state R41) -/

/-- A cell written holds a value. -/
theorem Memory.read_write_ne_none (m : Memory) {off : Nat} {x : Bytes} {j : Nat} (h1 : off ≤ j)
    (h2 : j < off + x.length) : (m.write off x).read j ≠ none := by
  have hj : j - off < x.length := by omega
  simp [Memory.read_write, h1, h2, hj]

/-- No write takes the value from a cell. -/
theorem Memory.write_keeps_value {m : Memory} {j : Nat} (h : m.read j ≠ none) (off : Nat) (x : Bytes) :
    (m.write off x).read j ≠ none := by
  by_cases hin : off ≤ j ∧ j < off + x.length
  · exact Memory.read_write_ne_none m hin.1 hin.2
  · rwa [Memory.read_write, if_neg hin]

/-! ## Invariants of a step -/

/-- What does not depend on the events to come, and reset and every other event keep, every step keeps. -/
theorem step_keeps {P : State → Prop} (pending : ∀ s q, P s → P { s with pending := q })
    (reset : ∀ s, P s → P s.resetCore) (event : ∀ s t, P s → StepTo s t → P t) {s t : State} (hs : P s)
    (h : step s = .next t) : P t := by
  rcases step_next h with ⟨-, rfl⟩ | ⟨e, rest, -, ⟨-, rfl⟩ | ⟨-, ht⟩⟩
  · exact hs
  · exact reset _ (pending _ _ hs)
  · exact event _ _ (pending _ _ hs) ht

/-! ## Buffers (10_state R40, R41) -/

/-- The canonical form and the capacity are about parameters and buffers only. -/
theorem BuffersOk.congr {s t : State} (h : BuffersOk s) (hp : t.params = s.params) (hb : ∀ b, t.buf b = s.buf b) :
    BuffersOk t := by
  simpa only [BuffersOk, hp, hb] using h

/-- A write within the capacity keeps the canonical form and the capacity. -/
theorem BuffersOk.bufWrite {s : State} (h : BuffersOk s) {b : BufId} {off : Nat} {x : Bytes}
    (hl : off + x.length ≤ b.capacity s.params) : BuffersOk (s.bufWrite b off x) := by
  obtain ⟨hlegal, hbuf⟩ := h
  refine ⟨by rwa [bufWrite_params], fun c => ?_⟩
  rw [bufWrite_buf, bufWrite_params]
  split_ifs with hc
  · subst hc
    obtain ⟨hwf, hcap⟩ := hbuf c
    refine ⟨Memory.write_wf off x hwf, fun cell hcell => ?_⟩
    rcases Memory.mem_write hcell with hold | ⟨-, hnew⟩
    · exact hcap cell hold
    · omega
  · exact hbuf c

/-- So does a draw into a buffer. -/
theorem BuffersOk.draw {s : State} (h : BuffersOk s) {b : BufId} {n : Nat} (hn : n ≤ b.capacity s.params) :
    BuffersOk ((s.afterDraw n).bufWrite b 0 (s.drawBytes n)) := by
  have hd : BuffersOk (s.afterDraw n) := h.congr rfl (afterDraw_buf n s)
  exact hd.bufWrite (by simpa using hn)

theorem BuffersOk.command {i : Instr} {s t : State} (h : BuffersOk s) (ht : CommandTo i s t) : BuffersOk t := by
  cases ht with
  | failed r => exact h.congr rfl (raise_buf _ _ _)
  | nothing => exact h.congr rfl (finish_buf _ _ _)
  | schedule hn hl =>
    refine BuffersOk.congr (s := s.bufWrite .rk 0 _) (h.bufWrite ?_) rfl fun b => by cases b <;> rfl
    simp only [List.mem_cons, List.not_mem_nil, or_false] at hn
    simp only [BufId.capacity]; omega
  | key hn => exact (h.draw (b := .key) hn).congr rfl fun b => by cases b <;> rfl
  | nonce hn => exact (h.draw (b := .iv) hn).congr rfl fun b => by cases b <;> rfl
  | @output out p hl hp =>
    obtain ⟨⟨hmin, -, -⟩, -⟩ := id h
    refine BuffersOk.congr (s := s.bufWrite .dout 0 out) (h.bufWrite ?_) rfl (finish_buf _ _ _)
    simp only [BufId.capacity]; omega

theorem BuffersOk.resetCore {s : State} (h : BuffersOk s) : BuffersOk s.resetCore :=
  ⟨h.1, fun b => by simp⟩

theorem BuffersOk.event {s t : State} (h : BuffersOk s) (ht : StepTo s t) : BuffersOk t := by
  cases ht with
  | @command v i _ hd hx => exact (h.congr (t := { s with cmd := v }) rfl fun b => by cases b <;> rfl).command (exec_next hx)
  | reject hr => exact h.congr rfl fun b => by cases b <;> rfl
  | @register r v hr => exact h.congr (by cases r <;> rfl) fun b => by cases r <;> cases b <;> rfl
  | cell hb hlt => exact h.bufWrite hlt
  | observe l => exact h.congr rfl fun b => by cases b <;> rfl

/-- Settles O22: every write of a step stays within the capacity of its buffer. -/
theorem stepKeepsBuffersWithinCapacity : Obligations.StepKeepsBuffersWithinCapacity := by
  intro s t
  exact step_keeps (P := BuffersOk) (fun s q h => h.congr rfl fun b => by cases b <;> rfl)
    (fun _ => BuffersOk.resetCore) fun _ _ => BuffersOk.event

/-! ## The key schedule (10_state R43, R44) -/

theorem ScheduleOk.congr {s t : State} (h : ScheduleOk s) (hv : t.rkv = s.rkv) (hn : t.nr = s.nr) (hk : t.rk = s.rk) :
    ScheduleOk t := by
  simpa only [ScheduleOk, State.written, buf_rk, hv, hn, hk] using h

theorem ScheduleOk.command {i : Instr} {s t : State} (h : ScheduleOk s) (ht : CommandTo i s t) : ScheduleOk t := by
  cases ht with
  | @schedule nrf keys hn hl =>
    have hnr : (BitVec.ofNat 32 nrf).toNat = nrf := by
      simp only [List.mem_cons, List.not_mem_nil, or_false] at hn
      rw [BitVec.toNat_ofNat]; omega
    refine .inr ⟨rfl, by rwa [finish_nr, hnr], fun j hj => ?_⟩
    rw [finish_nr, hnr, ← hl] at hj
    exact Memory.read_write_ne_none s.rk (Nat.zero_le j) (by omega)
  | _ => exact h.congr rfl rfl rfl

theorem ScheduleOk.event {s t : State} (h : ScheduleOk s) (ht : StepTo s t) : ScheduleOk t := by
  cases ht with
  | @command v i _ hd hx => exact (h.congr (t := { s with cmd := v }) rfl rfl rfl).command (exec_next hx)
  | @register r v hr => cases r <;> exact h.congr rfl rfl rfl
  | @cell b off x hb hlt => exact h.congr (by simp) (by simp) (setBuf_buf_of_ne s _ hb.symm)
  | _ => exact h.congr rfl rfl rfl

/-- Settles O23: only AES_EXPAND and reset change RKV, NR or the store, and the store gets as many bytes as NR says. -/
theorem stepKeepsTheScheduleValid : Obligations.StepKeepsTheScheduleValid := by
  intro s t
  exact step_keeps (fun s q h => h.congr rfl rfl rfl) (fun s _ => .inl ⟨rfl, rfl⟩) fun _ _ => ScheduleOk.event

/-! ## The report (10_state R33, R34; 60_exceptions R532 to R534) -/

theorem ReportOk.congr {s t : State} (h : ReportOk s) (hc : t.cmd = s.cmd) (he : t.err = s.err)
    (hi : t.errinfo = s.errinfo) (hp : t.padok = s.padok) (hd : t.doutlen = s.doutlen) : ReportOk t := by
  simpa only [ReportOk, hc, he, hi, hp, hd] using h

/-- The failure write reports the word in CMD. -/
theorem reportOk_raise {v : Word} {s : State} (h : s.cmd = v) (r : Reason) : ReportOk (raise v r s) :=
  .inr ⟨r, rfl, by rw [raise_cmd, h, raise_errinfo], rfl, rfl⟩

/-- A success with PADOK = 0 reports no error. -/
theorem reportOk_finish (n : Nat) (s : State) : ReportOk (finish n false s) := .inl ⟨rfl, rfl, by simp⟩

/-- A command leaves its own report, whatever the report before it, if CMD holds its word. -/
theorem CommandTo.reportOk {i : Instr} {s t : State} (hc : s.cmd = encode i) (ht : CommandTo i s t) : ReportOk t := by
  cases ht with
  | failed r => exact reportOk_raise hc r
  | output hl hp =>
    refine .inl ⟨rfl, rfl, fun h => ?_⟩
    rw [finishWith_cmd, hc]
    exact (hp h).imp (congrArg encode) (congrArg encode)
  | _ => exact reportOk_finish _ _

theorem ReportOk.event {s t : State} (h : ReportOk s) (ht : StepTo s t) : ReportOk t := by
  cases ht with
  | command hd hx => exact (exec_next hx).reportOk (encode_of_decode hd).symm
  | reject hr => exact reportOk_raise rfl _
  | @register r v hr =>
    cases r with
    | cmd => exact absurd rfl hr
    | _ => exact h.congr rfl rfl rfl rfl rfl
  | cell hb hlt => exact h.congr (by simp) (by simp) (by simp) (by simp) (by simp)
  | observe l => exact h.congr rfl rfl rfl rfl rfl

/-- Settles O24: a command word leaves its own report, since the decoder accepts no word but an instruction's own, and
nothing else but reset writes CMD or the report. -/
theorem stepKeepsTheReportOfTheLastCommand : Obligations.StepKeepsTheReportOfTheLastCommand := by
  intro s t
  exact step_keeps (fun s q h => h.congr rfl rfl rfl rfl rfl) (fun s _ => .inl ⟨rfl, rfl, by simp⟩)
    fun _ _ => ReportOk.event

/-! ## The output (10_state R39) -/

/-- DOUTLEN never names more bytes than were written, whatever the free value of log entry 3 is. -/
theorem doutlenWord_toNat_le (n : Nat) : (doutlenWord n).toNat ≤ n := by
  unfold doutlenWord
  split_ifs with h
  · rw [BitVec.toNat_ofNat]; exact Nat.mod_le _ _
  · have := (Config.doutlenBeyond n).isLt
    omega

theorem OutputOk.congr {s t : State} (h : OutputOk s) (hd : t.dout = s.dout) (hl : t.doutlen = s.doutlen) :
    OutputOk t := by
  simpa only [OutputOk, State.written, buf_dout, hd, hl] using h

theorem outputOk_of_doutlen_eq_zero {s : State} (h : s.doutlen = 0) : OutputOk s := by
  simp [OutputOk, State.written, h]

theorem outputOk_finishWith (out : Bytes) (p : Bool) (s : State) : OutputOk (finishWith out p s) := by
  intro j hj
  have hle := doutlenWord_toNat_le out.length
  rw [finishWith_doutlen] at hj
  exact Memory.read_write_ne_none s.dout (Nat.zero_le j) (by omega)

/-- A command leaves its own output, whatever DOUT and DOUTLEN were before it. -/
theorem CommandTo.outputOk {i : Instr} {s t : State} (ht : CommandTo i s t) : OutputOk t := by
  cases ht with
  | output hl hp => exact outputOk_finishWith _ _ _
  | _ => exact outputOk_of_doutlen_eq_zero rfl

theorem OutputOk.event {s t : State} (h : OutputOk s) (ht : StepTo s t) : OutputOk t := by
  cases ht with
  | command hd hx => exact (exec_next hx).outputOk
  | reject hr => exact outputOk_of_doutlen_eq_zero rfl
  | @register r v hr => cases r <;> exact h.congr rfl rfl
  | @cell b off x hb hlt =>
    intro j hj
    rw [bufWrite_doutlen] at hj
    rw [bufWrite_buf]
    split_ifs with hb
    · exact hb ▸ Memory.write_keeps_value (h j hj) off [x]
    · exact h j hj
  | observe l => exact h.congr rfl rfl

/-- Settles O25: an output leaves DOUTLEN at most its length, and no other event but reset takes a byte from DOUT. -/
theorem stepKeepsTheOutputWritten : Obligations.StepKeepsTheOutputWritten := by
  intro s t
  exact step_keeps (fun s q h => h.congr rfl rfl) (fun s _ => outputOk_of_doutlen_eq_zero rfl) fun _ _ => OutputOk.event

/-- Settles O26: the buffers are empty, no schedule is loaded, no error is reported, there is no output. -/
theorem resetMeetsTheInvariants : Obligations.ResetMeetsTheInvariants :=
  ⟨⟨by decide, fun b => by cases b <;> simp [State.reset, State.buf]⟩, .inl ⟨rfl, rfl⟩, .inl ⟨rfl, rfl, by decide⟩,
    outputOk_of_doutlen_eq_zero rfl⟩

end Sys2Proof.Machine
end

section
/-! PROOFS. The host port and the reset event: what a step does when the next event is a register access, a write to RK
or a reset (10_state R31, R32, R35 to R38, R42, R48 to R50; 20_memory R82, R86, R87; 30_encoding R115). -/
namespace Sys2Proof.Machine

/-! ## What each access does -/

/-- If the next event is a write to CMD, the step stores the word and executes it (R32, R86). -/
theorem step_write_cmd {s : State} {rest : List HostEvent} {v : Word} (h : s.pending = .regWrite 32 0x00 v :: rest) :
    step s = executeWord v { s with pending := rest, cmd := v } := step_event h

/-- A write to another register stores the value or has no effect (R48). -/
theorem perform_write_of_ne_cmd {r : Reg} (h : r ≠ .cmd) (v : Word) (s : State) :
    perform (.regWrite 32 r.offset v) s = .next (s.writeReg r v) := by
  cases r with
  | cmd => exact absurd rfl h
  | _ => rfl

/-- A register read appends the register's value to what was observed (R87). -/
theorem perform_read_register (r : Reg) (s : State) :
    perform (.regRead 32 r.offset) s = .next { s with observed := s.observed ++ [.word (s.readReg r)] } := by
  simp [perform, regRead]

/-- A write to a cell of RK has no effect (R82). -/
theorem perform_write_rk {i : Nat} (h : i < 240) (x : Byte) (s : State) :
    perform (.bufWrite 8 BufId.rk.id i x) s = .next s := by
  have hb : bufferAt s.params 8 BufId.rk.id i = some .rk := bufferAt_of_lt h
  simp only [perform, bufHostWrite, hb]

/-! ## STATUS and ERRINFO as numbers -/

/-- STATUS is the ERR code, PADOK at bit 4 and RKV at bit 5 (R49). -/
theorem statusWord_eq (err : ErrClass) (padok rkv : Bool) :
    statusWord err padok rkv = BitVec.ofNat 32 (err.code + 16 * padok.toNat + 32 * rkv.toNat) := by
  cases err <;> cases padok <;> cases rkv <;> rfl

theorem Reason.code_lt (r : Reason) : r.code < 16 := by cases r <;> decide

/-- ERRINFO is the failing word's low 20 bits and the reason's code from bit 24 (60_exceptions R534). -/
theorem errInfoWord_eq (v : Word) (r : Reason) :
    errInfoWord v r = BitVec.ofNat 32 (v.toNat % 2 ^ 20 + r.code * 2 ^ 24) := by
  have hr := r.code_lt
  have hlow : v.toNat % 2 ^ 20 < 2 ^ 24 := by omega
  have hdisjoint : v.toNat % 2 ^ 20 ||| r.code * 2 ^ 24 = v.toNat % 2 ^ 20 + r.code * 2 ^ 24 := by
    rw [Nat.or_comm, Nat.mul_comm, ← Nat.two_pow_add_eq_or_of_lt hlow, Nat.add_comm]
  apply BitVec.eq_of_toNat_eq
  have hor : (errInfoWord v r).toNat = v.toNat % 2 ^ 20 % 2 ^ 32 ||| r.code * 2 ^ 24 % 2 ^ 32 := by
    simp [errInfoWord, Nat.shiftLeft_eq]
  rw [hor, Nat.mod_eq_of_lt (a := v.toNat % 2 ^ 20) (by omega), Nat.mod_eq_of_lt (a := r.code * 2 ^ 24) (by omega),
    hdisjoint, BitVec.toNat_ofNat, Nat.mod_eq_of_lt (a := v.toNat % 2 ^ 20 + r.code * 2 ^ 24) (by omega)]

/-- The failure write in plain numbers (60_exceptions R534). -/
theorem raise_eq (v : Word) (r : Reason) (s : State) :
    raise v r s = { s with
      err := r.errClass, padok := false,
      errinfo := BitVec.ofNat 32 (v.toNat % 2 ^ 20 + r.code * 2 ^ 24), doutlen := 0 } := by
  rw [raise, errInfoWord_eq]

/-! ## The obligations -/

/-- Settles O6: the write to CMD executes the word, and executing a word that decodes runs its instruction. -/
theorem stepRunsTheCommandWrittenToCmd : Obligations.StepRunsTheCommandWrittenToCmd := by
  intro s rest v i hp hd
  rw [step_write_cmd hp, executeWord, hd]

/-- Settles O7: both rejections end in the failure write for the word. -/
theorem stepReportsReservedWords : Obligations.StepReportsReservedWords := by
  intro s rest v hp
  refine ⟨fun hd => ?_, fun hd => ?_⟩ <;> rw [step_write_cmd hp, executeWord, hd]
  · exact congrArg Host.Outcome.next (raise_eq v .opcode _)
  · exact congrArg Host.Outcome.next (raise_eq v .field _)

/-- Settles O8: the four offsets name registers a write leaves alone, and a write to RK goes on with the state as it is. -/
theorem hostWritesToReadOnlyStateHaveNoEffect : Obligations.HostWritesToReadOnlyStateHaveNoEffect := by
  intro s rest
  refine ⟨fun off v hoff hp => ?_, fun i x hi hp => (step_event hp).trans (perform_write_rk hi x _)⟩
  obtain ⟨r, hr, hoff, hsame⟩ : ∃ r : Reg, r ≠ .cmd ∧ off = r.offset ∧ ∀ t : State, t.writeReg r v = t := by
    simp only [List.mem_cons, List.not_mem_nil, or_false] at hoff
    rcases hoff with rfl | rfl | rfl | rfl
    · exact ⟨.status, by simp, rfl, fun _ => rfl⟩
    · exact ⟨.errinfo, by simp, rfl, fun _ => rfl⟩
    · exact ⟨.doutlen, by simp, rfl, fun _ => rfl⟩
    · exact ⟨.nr, by simp, rfl, fun _ => rfl⟩
  rw [step_event hp, hoff, perform_write_of_ne_cmd hr, hsame]

/-- Settles O9: each of the five offsets names a register whose write stores the value. -/
theorem writableRegistersKeepEveryValue : Obligations.WritableRegistersKeepEveryValue := by
  intro s rest v
  have hstep : ∀ r : Reg, r ≠ .cmd → s.pending = .regWrite 32 r.offset v :: rest →
      step s = .next (({ s with pending := rest } : State).writeReg r v) :=
    fun r hr hp => (step_event hp).trans (perform_write_of_ne_cmd hr v _)
  exact ⟨hstep .klen (by simp), hstep .ivlen (by simp), hstep .aadlen (by simp), hstep .dinlen (by simp),
    hstep .ctr (by simp)⟩

/-- Settles O10: each of the ten offsets names a register, and STATUS packs its three fields. -/
theorem registerReadsReturnTheHeldValue : Obligations.RegisterReadsReturnTheHeldValue := by
  intro s rest off code w hp hcode hw
  have hcode : code = s.err.code := by
    cases he : s.err <;> simpa [he, ErrClass.code] using hcode
  obtain ⟨r, rfl, rfl⟩ : ∃ r : Reg, off = r.offset ∧ w = s.readReg r := by
    rw [hcode, ← statusWord_eq] at hw
    simp only [List.mem_cons, Prod.mk.injEq, List.not_mem_nil, or_false] at hw
    rcases hw with h | h | h | h | h | h | h | h | h | h
    · exact ⟨.cmd, h⟩
    · exact ⟨.status, h⟩
    · exact ⟨.errinfo, h⟩
    · exact ⟨.klen, h⟩
    · exact ⟨.ivlen, h⟩
    · exact ⟨.aadlen, h⟩
    · exact ⟨.dinlen, h⟩
    · exact ⟨.doutlen, h⟩
    · exact ⟨.ctr, h⟩
    · exact ⟨.nr, h⟩
  rw [step_event hp, perform_read_register]
  cases r <;> rfl

/-- Settles O13: both states are written out by their definitions. -/
theorem resetGivesTheResetValues : Obligations.ResetGivesTheResetValues :=
  ⟨⟨_, _, _, _, _, rfl⟩, fun _ _ hp => step_event hp⟩

end Sys2Proof.Machine
end

section
/-! PROOFS. A command ignores every operand its rule does not name (30_encoding R112, 10_state R37, R42, R44, R46;
47_control R500). -/
namespace Sys2Proof.Machine

/-! ## Operands and their contents -/

/-- What a command may name besides DOUT and the report: the operand buffers with their lengths, CTR, the round-key store
with NR and RKV, the entropy source. -/
inductive Operand where
  | key
  | iv
  | aad
  | din
  | ctr
  | schedule
  | entropy

/-- Other contents for an operand: cells, a register, a flag, and the entropy source's two fields. Each operand takes the
ones it has. -/
structure Contents where
  cells : Memory
  word : Word
  flag : Bool
  bytes : Bytes
  count : Nat

/-- The state with other contents of one operand. -/
def State.withOperand (o : Operand) (c : Contents) (s : State) : State :=
  match o with
  | .key => { s with key := c.cells, klen := c.word }
  | .iv => { s with iv := c.cells, ivlen := c.word }
  | .aad => { s with aad := c.cells, aadlen := c.word }
  | .din => { s with din := c.cells, dinlen := c.word }
  | .ctr => { s with ctr := c.word }
  | .schedule => { s with rk := c.cells, nr := c.word, rkv := c.flag }
  | .entropy => { s with entropy := c.bytes, drawn := c.count }

/-- The operands a command's rule names, to read or to write (R112, R89). -/
def namedOperands : Instr → List Operand
  | .nop => []
  | .aesExpand _ => [.key, .schedule]
  | .aesEncBlock _ => [.schedule, .din]
  | .gcmEnc _ => [.schedule, .iv, .aad, .din]
  | .gcmDec _ => [.schedule, .iv, .aad, .din]
  | .chacha20Block => [.key, .iv, .ctr]
  | .chacha20Xor => [.key, .iv, .ctr, .din]
  | .poly1305Mac => [.key, .din]
  | .c20pEnc => [.key, .iv, .aad, .din]
  | .c20pDec => [.key, .iv, .aad, .din]
  | .desEnc => [.key, .din]
  | .desDec => [.key, .din]
  | .tdesEnc => [.key, .din]
  | .tdesDec => [.key, .din]
  | .tdesCbcEnc => [.key, .iv, .din]
  | .tdesCbcDec => [.key, .iv, .din]
  | .pkcs5Pad => [.din]
  | .pkcs5Unpad => [.din]
  | .genKey _ => [.key, .entropy]
  | .genNonce _ => [.iv, .entropy]

/-! ## What stays under other contents of an operand -/

section
variable {o : Operand} (c : Contents) (s : State)

@[simp] theorem withOperand_params : (s.withOperand o c).params = s.params := by cases o <;> rfl

theorem withOperand_key (h : o ≠ .key) :
    (s.withOperand o c).klen = s.klen ∧ (s.withOperand o c).keyOperand = s.keyOperand := by
  cases o with
  | key => exact absurd rfl h
  | _ => exact ⟨rfl, rfl⟩

theorem withOperand_iv (h : o ≠ .iv) :
    (s.withOperand o c).ivlen = s.ivlen ∧ (s.withOperand o c).ivOperand = s.ivOperand := by
  cases o with
  | iv => exact absurd rfl h
  | _ => exact ⟨rfl, rfl⟩

theorem withOperand_aad (h : o ≠ .aad) :
    (s.withOperand o c).aadlen = s.aadlen ∧ (s.withOperand o c).aadOperand = s.aadOperand := by
  cases o with
  | aad => exact absurd rfl h
  | _ => exact ⟨rfl, rfl⟩

theorem withOperand_din (h : o ≠ .din) :
    (s.withOperand o c).dinlen = s.dinlen ∧ (s.withOperand o c).dinOperand = s.dinOperand := by
  cases o with
  | din => exact absurd rfl h
  | _ => exact ⟨rfl, rfl⟩

theorem withOperand_ctr (h : o ≠ .ctr) :
    (s.withOperand o c).ctr = s.ctr := by
  cases o with
  | ctr => exact absurd rfl h
  | _ => exact rfl

theorem withOperand_schedule (h : o ≠ .schedule) :
    (s.withOperand o c).rkv = s.rkv ∧ (s.withOperand o c).nr = s.nr ∧
      ∀ nrf, (s.withOperand o c).roundKeysOperand nrf = s.roundKeysOperand nrf := by
  cases o with
  | schedule => exact absurd rfl h
  | _ => exact ⟨rfl, rfl, fun nrf => roundKeysFrom_congr (s := s.withOperand _ c) (t := s) rfl 0 (nrf + 1)⟩

theorem withOperand_raise (v : Word) (r : Reason) :
    raise v r (s.withOperand o c) = (raise v r s).withOperand o c := by cases o <;> rfl

theorem withOperand_finishWith (out : Bytes) (p : Bool) :
    finishWith out p (s.withOperand o c) = (finishWith out p s).withOperand o c := by cases o <;> rfl

end

/-! ## Each command -/

section
variable {o : Operand} (c : Contents) (s : State)

/-- Checks that read the same and an effect that ends alike make a command end alike. -/
theorem runCommand_withOperand {i : Instr} {checks checks' : List (Bool × Reason)}
    {out out' : Host.Outcome State Fault Refusal} (hc : checks' = checks) (ho : out' = onNext (.withOperand o c) out) :
    runCommand i checks' out' (s.withOperand o c) = onNext (.withOperand o c) (runCommand i checks out s) :=
  runCommand_onNext (State.withOperand o c) hc (withOperand_raise c s (encode i)) ho

theorem next_finishWith_withOperand (out : Bytes) (p : Bool) :
    .next (finishWith out p (s.withOperand o c)) = onNext (.withOperand o c) (.next (finishWith out p s)) :=
  congrArg Host.Outcome.next (withOperand_finishWith c s out p)

theorem next_raise_withOperand (v : Word) (r : Reason) :
    .next (raise v r (s.withOperand o c)) = onNext (.withOperand o c) (.next (raise v r s)) :=
  congrArg Host.Outcome.next (withOperand_raise c s v r)

theorem nop_withOperand : execNop (s.withOperand o c) = onNext (.withOperand o c) (execNop s) :=
  runCommand_withOperand c s rfl (by cases o <;> rfl)

theorem aesExpand_withOperand (nrf : Nat) (hkey : o ≠ .key) (hrk : o ≠ .schedule) :
    execAesExpand nrf (s.withOperand o c) = onNext (.withOperand o c) (execAesExpand nrf s) := by
  have ⟨hklen, hkeyop⟩ := withOperand_key c s hkey
  refine runCommand_withOperand c s (by simp [keylenCheck, hklen]) (reading_onNext _ hkeyop fun key => ?_)
  cases o with
  | schedule => exact absurd rfl hrk
  | _ => rfl

theorem aesEncBlock_withOperand (nrf : Nat) (hrk : o ≠ .schedule) (hdin : o ≠ .din) :
    execAesEncBlock nrf (s.withOperand o c) = onNext (.withOperand o c) (execAesEncBlock nrf s) := by
  have ⟨hrkv, hnr, hkeys⟩ := withOperand_schedule c s hrk
  have ⟨hdinlen, hdinop⟩ := withOperand_din c s hdin
  exact runCommand_withOperand c s (by simp [rkvCheck, roundsMatchCheck, dinlenExactCheck, hrkv, hnr, hdinlen])
    (reading_onNext _ (hkeys nrf) fun _ => reading_onNext _ hdinop fun _ => next_finishWith_withOperand c s _ _)

theorem gcmChecks_withOperand (nrf : Nat) (hrk : o ≠ .schedule) (hiv : o ≠ .iv) (haad : o ≠ .aad) :
    gcmChecks nrf (s.withOperand o c) = gcmChecks nrf s := by
  simp [gcmChecks, rkvCheck, roundsMatchCheck, ivlenCheck, aadlenCheck, withOperand_schedule c s hrk,
    withOperand_iv c s hiv, withOperand_aad c s haad]

theorem gcmEnc_withOperand (nrf : Nat) (hrk : o ≠ .schedule) (hiv : o ≠ .iv) (haad : o ≠ .aad) (hdin : o ≠ .din) :
    execGcmEnc nrf (s.withOperand o c) = onNext (.withOperand o c) (execGcmEnc nrf s) :=
  runCommand_withOperand c s
    (by simp [gcmChecks_withOperand c s nrf hrk hiv haad, dinlenMaxCheck, withOperand_din c s hdin])
    (reading_onNext _ ((withOperand_schedule c s hrk).2.2 nrf) fun _ =>
      reading_onNext _ (withOperand_iv c s hiv).2 fun _ => reading_onNext _ (withOperand_aad c s haad).2 fun _ =>
        reading_onNext _ (withOperand_din c s hdin).2 fun _ => next_finishWith_withOperand c s _ _)

theorem gcmDec_withOperand (nrf : Nat) (hrk : o ≠ .schedule) (hiv : o ≠ .iv) (haad : o ≠ .aad) (hdin : o ≠ .din) :
    execGcmDec nrf (s.withOperand o c) = onNext (.withOperand o c) (execGcmDec nrf s) := by
  refine runCommand_withOperand c s
    (by simp [gcmChecks_withOperand c s nrf hrk hiv haad, dinlenTaggedCheck, withOperand_din c s hdin])
    (reading_onNext _ ((withOperand_schedule c s hrk).2.2 nrf) fun _ =>
      reading_onNext _ (withOperand_iv c s hiv).2 fun _ => reading_onNext _ (withOperand_aad c s haad).2 fun _ =>
        reading_onNext _ (withOperand_din c s hdin).2 fun _ => ?_)
  rw [withOperand_params]
  generalize gcmOpen _ _ _ _ _ _ _ = opened
  cases opened with
  | none => exact next_raise_withOperand c s _ _
  | some p => exact next_finishWith_withOperand c s _ _

theorem chacha20Block_withOperand (hkey : o ≠ .key) (hiv : o ≠ .iv) (hctr : o ≠ .ctr) :
    execChacha20Block (s.withOperand o c) = onNext (.withOperand o c) (execChacha20Block s) := by
  refine runCommand_withOperand c s
    (by simp [keylenCheck, ivlenCheck, withOperand_key c s hkey, withOperand_iv c s hiv])
    (reading_onNext _ (withOperand_key c s hkey).2 fun _ => reading_onNext _ (withOperand_iv c s hiv).2 fun _ => ?_)
  rw [withOperand_ctr c s hctr]
  exact next_finishWith_withOperand c s _ _

theorem chacha20Xor_withOperand (hkey : o ≠ .key) (hiv : o ≠ .iv) (hctr : o ≠ .ctr) (hdin : o ≠ .din) :
    execChacha20Xor (s.withOperand o c) = onNext (.withOperand o c) (execChacha20Xor s) := by
  refine runCommand_withOperand c s
    (by simp [keylenCheck, ivlenCheck, dinlenMaxCheck, withOperand_key c s hkey, withOperand_iv c s hiv,
      withOperand_din c s hdin])
    (reading_onNext _ (withOperand_key c s hkey).2 fun _ => reading_onNext _ (withOperand_iv c s hiv).2 fun _ =>
      reading_onNext _ (withOperand_din c s hdin).2 fun _ => ?_)
  rw [withOperand_ctr c s hctr]
  exact next_finishWith_withOperand c s _ _

theorem poly1305Mac_withOperand (hkey : o ≠ .key) (hdin : o ≠ .din) :
    execPoly1305Mac (s.withOperand o c) = onNext (.withOperand o c) (execPoly1305Mac s) :=
  runCommand_withOperand c s
    (by simp [keylenCheck, dinlenMaxCheck, withOperand_key c s hkey, withOperand_din c s hdin])
    (reading_onNext _ (withOperand_key c s hkey).2 fun _ => reading_onNext _ (withOperand_din c s hdin).2 fun _ =>
      next_finishWith_withOperand c s _ _)

theorem aeadChecks_withOperand (hkey : o ≠ .key) (hiv : o ≠ .iv) (haad : o ≠ .aad) :
    aeadChecks (s.withOperand o c) = aeadChecks s := by
  simp [aeadChecks, keylenCheck, ivlenCheck, aadlenCheck, withOperand_key c s hkey, withOperand_iv c s hiv,
    withOperand_aad c s haad]

theorem c20pEnc_withOperand (hkey : o ≠ .key) (hiv : o ≠ .iv) (haad : o ≠ .aad) (hdin : o ≠ .din) :
    execC20pEnc (s.withOperand o c) = onNext (.withOperand o c) (execC20pEnc s) :=
  runCommand_withOperand c s
    (by simp [aeadChecks_withOperand c s hkey hiv haad, dinlenMaxCheck, withOperand_din c s hdin])
    (reading_onNext _ (withOperand_key c s hkey).2 fun _ => reading_onNext _ (withOperand_iv c s hiv).2 fun _ =>
      reading_onNext _ (withOperand_aad c s haad).2 fun _ => reading_onNext _ (withOperand_din c s hdin).2 fun _ =>
        next_finishWith_withOperand c s _ _)

theorem c20pDec_withOperand (hkey : o ≠ .key) (hiv : o ≠ .iv) (haad : o ≠ .aad) (hdin : o ≠ .din) :
    execC20pDec (s.withOperand o c) = onNext (.withOperand o c) (execC20pDec s) := by
  refine runCommand_withOperand c s
    (by simp [aeadChecks_withOperand c s hkey hiv haad, dinlenTaggedCheck, withOperand_din c s hdin])
    (reading_onNext _ (withOperand_din c s hdin).2 fun _ => reading_onNext _ (withOperand_key c s hkey).2 fun _ =>
      reading_onNext _ (withOperand_iv c s hiv).2 fun _ => reading_onNext _ (withOperand_aad c s haad).2 fun _ => ?_)
  generalize aeadOpen _ _ _ _ _ = opened
  cases opened with
  | none => exact next_raise_withOperand c s _ _
  | some p => exact next_finishWith_withOperand c s _ _

/-- The four one-block commands. -/
theorem runBlockCipher_withOperand (i : Instr) (klens : List Nat) (cipher : Bytes → Bytes → Bytes) (hkey : o ≠ .key)
    (hdin : o ≠ .din) :
    runBlockCipher i klens cipher (s.withOperand o c) = onNext (.withOperand o c) (runBlockCipher i klens cipher s) :=
  runCommand_withOperand c s
    (by simp [keylenCheck, dinlenExactCheck, withOperand_key c s hkey, withOperand_din c s hdin])
    (reading_onNext _ (withOperand_key c s hkey).2 fun _ => reading_onNext _ (withOperand_din c s hdin).2 fun _ =>
      next_finishWith_withOperand c s _ _)

theorem tdesCbcEnc_withOperand (hkey : o ≠ .key) (hiv : o ≠ .iv) (hdin : o ≠ .din) :
    execTdesCbcEnc (s.withOperand o c) = onNext (.withOperand o c) (execTdesCbcEnc s) :=
  runCommand_withOperand c s
    (by simp [keylenCheck, ivlenCheck, dinlenMaxCheck, withOperand_key c s hkey, withOperand_iv c s hiv,
      withOperand_din c s hdin])
    (reading_onNext _ (withOperand_key c s hkey).2 fun _ => reading_onNext _ (withOperand_iv c s hiv).2 fun _ =>
      reading_onNext _ (withOperand_din c s hdin).2 fun _ => next_finishWith_withOperand c s _ _)

theorem tdesCbcDec_withOperand (hkey : o ≠ .key) (hiv : o ≠ .iv) (hdin : o ≠ .din) :
    execTdesCbcDec (s.withOperand o c) = onNext (.withOperand o c) (execTdesCbcDec s) :=
  runCommand_withOperand c s
    (by simp [keylenCheck, ivlenCheck, dinlenBlocksCheck, withOperand_key c s hkey, withOperand_iv c s hiv,
      withOperand_din c s hdin])
    (reading_onNext _ (withOperand_key c s hkey).2 fun _ => reading_onNext _ (withOperand_iv c s hiv).2 fun _ =>
      reading_onNext _ (withOperand_din c s hdin).2 fun _ => next_finishWith_withOperand c s _ _)

theorem pkcs5Pad_withOperand (hdin : o ≠ .din) :
    execPkcs5Pad (s.withOperand o c) = onNext (.withOperand o c) (execPkcs5Pad s) :=
  runCommand_withOperand c s (by simp [dinlenMaxCheck, withOperand_din c s hdin])
    (reading_onNext _ (withOperand_din c s hdin).2 fun _ => next_finishWith_withOperand c s _ _)

theorem pkcs5Unpad_withOperand (hdin : o ≠ .din) :
    execPkcs5Unpad (s.withOperand o c) = onNext (.withOperand o c) (execPkcs5Unpad s) :=
  runCommand_withOperand c s (by simp [dinlenMaxCheck, withOperand_din c s hdin])
    (reading_onNext _ (withOperand_din c s hdin).2 fun _ => next_finishWith_withOperand c s _ _)

theorem genKey_withOperand (alg : Nat) (hkey : o ≠ .key) (hent : o ≠ .entropy) :
    execGenKey alg (s.withOperand o c) = onNext (.withOperand o c) (execGenKey alg s) := by
  unfold execGenKey
  cases keyBytes alg with
  | none => exact next_raise_withOperand c s _ _
  | some n =>
    cases o with
    | key => exact absurd rfl hkey
    | entropy => exact absurd rfl hent
    | _ => rfl

theorem genNonce_withOperand (alg : Nat) (hiv : o ≠ .iv) (hent : o ≠ .entropy) :
    execGenNonce alg (s.withOperand o c) = onNext (.withOperand o c) (execGenNonce alg s) := by
  unfold execGenNonce
  cases nonceBytes alg with
  | none => exact next_raise_withOperand c s _ _
  | some n =>
    cases o with
    | iv => exact absurd rfl hiv
    | entropy => exact absurd rfl hent
    | _ => rfl

/-- A command ignores every operand its rule does not name: with other contents there it ends alike and leaves them so. -/
theorem exec_withOperand {i : Instr} (h : o ∉ namedOperands i) :
    exec i (s.withOperand o c) = onNext (.withOperand o c) (exec i s) := by
  have named : ∀ o' ∈ namedOperands i, o ≠ o' := fun o' ho' he => h (he ▸ ho')
  cases i <;> simp only [namedOperands, List.forall_mem_cons, List.not_mem_nil, false_imp_iff, implies_true, and_true]
    at named
  case nop => exact nop_withOperand c s
  case aesExpand nrf => obtain ⟨hkey, hrk⟩ := named; exact aesExpand_withOperand c s nrf hkey hrk
  case aesEncBlock nrf => obtain ⟨hrk, hdin⟩ := named; exact aesEncBlock_withOperand c s nrf hrk hdin
  case gcmEnc nrf => obtain ⟨hrk, hiv, haad, hdin⟩ := named; exact gcmEnc_withOperand c s nrf hrk hiv haad hdin
  case gcmDec nrf => obtain ⟨hrk, hiv, haad, hdin⟩ := named; exact gcmDec_withOperand c s nrf hrk hiv haad hdin
  case chacha20Block => obtain ⟨hkey, hiv, hctr⟩ := named; exact chacha20Block_withOperand c s hkey hiv hctr
  case chacha20Xor => obtain ⟨hkey, hiv, hctr, hdin⟩ := named; exact chacha20Xor_withOperand c s hkey hiv hctr hdin
  case poly1305Mac => obtain ⟨hkey, hdin⟩ := named; exact poly1305Mac_withOperand c s hkey hdin
  case c20pEnc => obtain ⟨hkey, hiv, haad, hdin⟩ := named; exact c20pEnc_withOperand c s hkey hiv haad hdin
  case c20pDec => obtain ⟨hkey, hiv, haad, hdin⟩ := named; exact c20pDec_withOperand c s hkey hiv haad hdin
  case desEnc | desDec | tdesEnc | tdesDec =>
    obtain ⟨hkey, hdin⟩ := named; exact runBlockCipher_withOperand c s _ _ _ hkey hdin
  case tdesCbcEnc => obtain ⟨hkey, hiv, hdin⟩ := named; exact tdesCbcEnc_withOperand c s hkey hiv hdin
  case tdesCbcDec => obtain ⟨hkey, hiv, hdin⟩ := named; exact tdesCbcDec_withOperand c s hkey hiv hdin
  case pkcs5Pad => exact pkcs5Pad_withOperand c s named
  case pkcs5Unpad => exact pkcs5Unpad_withOperand c s named
  case genKey alg => obtain ⟨hkey, hent⟩ := named; exact genKey_withOperand c s alg hkey hent
  case genNonce alg => obtain ⟨hiv, hent⟩ := named; exact genNonce_withOperand c s alg hiv hent

end

/-- Settles O21: each clause changes one operand, and its commands are ones that do not name it. -/
theorem commandsIgnoreWhatTheyDoNotName : Obligations.CommandsIgnoreWhatTheyDoNotName := by
  intro n d s m w b e
  have ignores : ∀ {o : Operand} {i : Instr}, o ∉ namedOperands i →
      exec i (s.withOperand o ⟨m, w, b, e, d⟩) = onNext (.withOperand o ⟨m, w, b, e, d⟩) (exec i s) :=
    exec_withOperand ⟨m, w, b, e, d⟩ s
  refine ⟨fun i hi => ignores (o := .key) ?_, fun i hi => ignores (o := .iv) ?_,
    fun i hgcm henc hdec => ignores (o := .aad) ?_, fun i hi => ignores (o := .din) ?_,
    fun i hblock hxor => ignores (o := .ctr) ?_, fun i haes => ignores (o := .schedule) ?_,
    fun i hgen => ignores (o := .entropy) ?_⟩
  · revert i; simp [namedOperands]
  · revert i; simp [namedOperands]
  · cases i <;> simp_all [namedOperands]
  · revert i; simp [namedOperands]
  · cases i <;> simp_all [namedOperands]
  · cases i <;> simp_all [namedOperands]
  · cases i <;> simp_all [namedOperands]

end Sys2Proof.Machine
end

section
/-! PROOFS. The host's access to the buffers, the accesses the port refuses, and the write set of every command
(20_memory R80 to R89; 10_state R41, R44, R46). -/
namespace Sys2Proof.Machine

/-! ## Accesses the port admits, and all others (20_memory R80, R83, R87, R88) -/

/-- The register access the port admits. -/
theorem registerAt_some {width off : Nat} {r : Reg} (h : registerAt width off = some r) :
    width = 32 ∧ off = r.offset := by
  unfold registerAt at h
  split_ifs at h with hw
  exact ⟨hw, ofOffset_some h⟩

/-- The register map is ten words, the last one at 0x24 (R80, R88). -/
theorem Reg.offset_in_map (r : Reg) : r.offset % 4 = 0 ∧ r.offset ≤ 0x24 := by cases r <;> decide

theorem BufId.id_le_five (b : BufId) : b.id ≤ 5 := by cases b <;> decide

theorem BufId.id_injective : Function.Injective BufId.id := by
  intro b c h
  simpa using congrArg BufId.ofId h

theorem registerAt_eq_none {width off : Nat} (h : width ≠ 32 ∨ off % 4 ≠ 0 ∨ 0x24 < off) :
    registerAt width off = none := by
  refine Option.eq_none_iff_forall_ne_some.2 fun r hr => ?_
  obtain ⟨hwidth, hoff⟩ := registerAt_some hr
  have hmap := r.offset_in_map
  omega

theorem bufferAt_eq_none {p : Params} {width id off : Nat}
    (h : width ≠ 8 ∨ 5 < id ∨ ∃ b : BufId, b.id = id ∧ b.capacity p ≤ off) : bufferAt p width id off = none := by
  refine Option.eq_none_iff_forall_ne_some.2 fun c hc => ?_
  obtain ⟨hwidth, rfl, hoff⟩ := bufferAt_some hc
  rcases h with hw | hid | ⟨b, hb, hcap⟩
  · exact hw hwidth
  · exact absurd c.id_le_five (by omega)
  · rw [BufId.id_injective hb] at hcap
    omega

/-- Settles O11: the port finds no register and no buffer for such an access. -/
theorem accessesOutsideTheMapAreRefused : Obligations.AccessesOutsideTheMapAreRefused := by
  refine ⟨fun s rest width off h => ?_, fun s rest width id off h => ?_⟩
  · have hnone := registerAt_eq_none h
    exact ⟨fun v hp => by rw [step_event hp, perform, regWrite, hnone],
      fun hp => by rw [step_event hp, perform, regRead, hnone]⟩
  · have hnone := bufferAt_eq_none h
    exact ⟨fun v hp => by simp only [step_event hp, perform, bufHostWrite, hnone],
      fun hp => by simp only [step_event hp, perform, bufHostRead, hnone]⟩

/-! ## Host accesses to a cell (20_memory R82, R84) -/

/-- A host write below the capacity of another buffer than RK writes the one byte. -/
theorem perform_write_buffer {b : BufId} (hb : b ≠ .rk) {s : State} {i : Nat} (h : i < b.capacity s.params) (v : Byte) :
    perform (.bufWrite 8 b.id i v) s = .next (s.bufWrite b i [v]) := by
  simp only [perform, bufHostWrite, bufferAt_of_lt h]

/-- A host read of a cell with a value appends the value to what was observed. -/
theorem perform_read_cell {b : BufId} {s : State} {i : Nat} (h : i < b.capacity s.params) {v : Byte}
    (hv : (s.buf b).read i = some v) :
    perform (.bufRead 8 b.id i) s = .next { s with observed := s.observed ++ [.byte v] } := by
  simp only [perform, bufHostRead, bufferAt_of_lt h, hv]

/-- A host read of a cell with no value is a fault that names the cell. -/
theorem perform_read_unwritten {b : BufId} {s : State} {i : Nat} (h : i < b.capacity s.params)
    (hv : (s.buf b).read i = none) : perform (.bufRead 8 b.id i) s = .fault (.unwrittenRead b i) := by
  simp only [perform, bufHostRead, bufferAt_of_lt h, hv]

/-- The events to come are no cells. -/
@[simp] theorem pending_buf (s : State) (rest : List HostEvent) (b : BufId) :
    ({ s with pending := rest } : State).buf b = s.buf b := by cases b <;> rfl

/-- Settles O12: the step performs the access, and a write of one byte at `i` reaches cell `i` alone. -/
theorem hostBufferAccessesReachOneCell : Obligations.HostBufferAccessesReachOneCell := by
  intro s rest b i hi
  refine ⟨fun v hp hb => ?_, fun v hp hb => ?_, fun v hp hv => ?_, fun hp hv => ?_⟩ <;> rw [step_event hp]
  · refine ⟨_, perform_write_buffer hb (s := { s with pending := rest }) hi v, ?_, fun j hj => ?_, ?_⟩ <;>
      rw [bufWrite_buf_self]
    · simp [Memory.read_write]
    · rw [Memory.read_write_of_not_mem _ _ _ _ (by simp only [List.length_singleton]; omega), pending_buf]
    · rfl
  · subst hb
    exact perform_write_rk hi v _
  · exact perform_read_cell (s := { s with pending := rest }) hi (by rwa [pending_buf])
  · exact perform_read_unwritten (s := { s with pending := rest }) hi (by rwa [pending_buf])

/-! ## The write set of a command (20_memory R89) -/

/-- A command that reaches a next state failed with a report or succeeded. -/
theorem exec_next_cases {i : Instr} {s t : State} (h : exec i s = .next t) :
    (∃ r, t = raise (encode i) r s) ∨ Succeeds i s t := by
  rcases exec_ends i s with ⟨r, -, -, -, he⟩ | ⟨-, bn, -, j, -, -, he⟩ | ⟨t', -, -, hs, he⟩ <;> rw [he] at h
  · cases h; exact .inl ⟨r, rfl⟩
  · cases h
  · cases h; exact .inr hs

/-- A write from cell 0 leaves the cells at and above its length. -/
theorem Memory.read_write_zero_of_le (m : Memory) {x : Bytes} {j : Nat} (h : x.length ≤ j) :
    (m.write 0 x).read j = m.read j := m.read_write_of_not_mem 0 x j (.inr (by omega))

/-- A draw of `n` bytes leaves the cells at and above the 32-bit length register that was set to `n`. -/
theorem read_write_drawBytes (m : Memory) (s : State) {n j : Nat} (hn : n ≤ 32) (h : (BitVec.ofNat 32 n).toNat ≤ j) :
    (m.write 0 (s.drawBytes n)).read j = m.read j := by
  rw [BitVec.toNat_ofNat, Nat.mod_eq_of_lt (by omega)] at h
  exact m.read_write_zero_of_le (by rwa [drawBytes_length])

/-- Settles O15: a failed command writes the report only; a success writes the fields of its next state, and each of the
three stores beside DOUT ends where its command's bound says. -/
theorem commandsWriteOnlyTheirWriteSet : Obligations.CommandsWriteOnlyTheirWriteSet := by
  intro i s t h
  rcases exec_next_cases h with ⟨r, rfl⟩ | hs
  · simp
  cases i with
  | nop => cases hs; simp
  | aesExpand nrf =>
    obtain ⟨key, hn, hl, -, rfl⟩ := hs
    have hlen : (roundKeys key).flatten.length = 16 * (nrf + 1) := (expanded_length (hl ▸ hn)).2
    have habove : ∀ n j, nrf = n → 16 * (n + 1) ≤ j → (s.rk.write 0 (roundKeys key).flatten).read j = s.rk.read j := by
      rintro _ j rfl hj
      exact s.rk.read_write_zero_of_le (hlen ▸ hj)
    simpa using habove
  | genKey alg =>
    obtain ⟨n, hn, rfl⟩ := hs
    have hn : n ≤ 32 := by simp at hn; omega
    simpa using fun j => read_write_drawBytes s.key s (j := j) hn
  | genNonce alg =>
    obtain ⟨n, hn, rfl⟩ := hs
    have hn : n ≤ 32 := by simp at hn; omega
    simpa using fun j => read_write_drawBytes s.iv s (j := j) hn
  | _ =>
    obtain ⟨out, p, -, -, -, rfl⟩ := hs
    simp

end Sys2Proof.Machine
end

section
/-! PROOFS. Decoding and encoding are inverse to each other, which words the decoder turns away, the words of the mnemonics,
and what a command needs to complete (30_encoding R110 to R115, R118; 10_state R41; 60_exceptions R535, R539). -/
namespace Sys2Proof.Machine

/-! ## The fields of a word (30_encoding R110) -/

/-- Joining two bit strings adds the upper one, moved up by the width of the lower. -/
theorem toNat_append_eq_add {m n : Nat} (x : BitVec m) (y : BitVec n) : (x ++ y).toNat = y.toNat + x.toNat * 2 ^ n := by
  rw [BitVec.toNat_append, ← Nat.shiftLeft_add_eq_or_of_lt y.isLt, Nat.shiftLeft_eq, Nat.add_comm]

/-- A word assembled from fields that fit, as a number (R110). -/
theorem assemble_toNat {opc dir nrf alg : Nat} (hopc : opc < 256) (hdir : dir < 2) (hnrf : nrf < 16) (halg : alg < 16) :
    (assemble opc dir nrf alg).toNat = opc + dir * 2 ^ 8 + nrf * 2 ^ 12 + alg * 2 ^ 16 := by
  simp only [assemble, toNat_append_eq_add, BitVec.toNat_ofNat]
  omega

/-- The fields a word was assembled from, if they fit, are read back from it (R110). -/
theorem fields_assemble {opc dir nrf alg : Nat} (hopc : opc < 256) (hdir : dir < 2) (hnrf : nrf < 16) (halg : alg < 16) :
    opcField (assemble opc dir nrf alg) = opc ∧ dirField (assemble opc dir nrf alg) = dir ∧
      nrfField (assemble opc dir nrf alg) = nrf ∧ algField (assemble opc dir nrf alg) = alg := by
  simp only [opcField, dirField, nrfField, algField, BitVec.extractLsb'_toNat, Nat.shiftRight_eq_div_pow,
    assemble_toNat hopc hdir hnrf halg]
  omega

/-! ## The fields of an instruction (30_encoding R113, R114) -/

theorem opcodeOf_le (i : Instr) : opcodeOf i ≤ 0x11 := by cases i <;> simp [opcodeOf]

theorem dirOf_lt (i : Instr) : dirOf i < 2 := by cases i <;> simp [dirOf]

/-- An instruction is well-formed exactly when its operands fit their 4-bit fields (R111). -/
theorem wf_iff (i : Instr) : i.wf = true ↔ nrfOf i < 16 ∧ algOf i < 16 := by
  cases i <;> simp [Instr.wf, fits4, nrfOf, algOf]

/-- The fields the opcode of an instruction does not use are zero in it (R114). -/
theorem unused_fields_zero (i : Instr) : (usesDir (opcodeOf i) = false → dirOf i = 0) ∧
    (usesNrf (opcodeOf i) = false → nrfOf i = 0) ∧ (usesAlg (opcodeOf i) = false → algOf i = 0) := by
  cases i <;> simp [usesDir, usesNrf, usesAlg, opcodeOf, dirOf, nrfOf, algOf]

/-- The fields of an instruction select its own row (R113). -/
theorem selectCommand_self (i : Instr) : selectCommand (opcodeOf i) (dirOf i) (nrfOf i) (algOf i) = some i := by
  cases i <;> rfl

/-- Every assigned opcode has a row for either direction (R113). -/
theorem selectCommand_ne_none {opc : Nat} (h : opc ≤ 0x11) (dir nrf alg : Nat) : selectCommand opc dir nrf alg ≠ none := by
  interval_cases opc <;> cases dir <;> simp [selectCommand]

/-! ## What the decoder answers (30_encoding R114) -/

/-- Its three answers: an opcode above the map, else a field error, else the row the fields select. -/
theorem decode_cases (v : Word) :
    (0x11 < opcField v ∧ decode v = .error .opcode) ∨
      (opcField v ≤ 0x11 ∧ fieldError v = true ∧ decode v = .error .field) ∨
      ∃ i, opcField v ≤ 0x11 ∧ fieldError v = false ∧
        selectCommand (opcField v) (dirField v) (nrfField v) (algField v) = some i ∧ decode v = .ok i := by
  by_cases hopc : 0x11 < opcField v
  · exact .inl ⟨hopc, if_pos hopc⟩
  have hle := not_lt.1 hopc
  cases hfield : fieldError v with
  | true => exact .inr (.inl ⟨hle, rfl, by simp [decode, hopc, hfield]⟩)
  | false =>
    obtain ⟨i, hi⟩ := Option.ne_none_iff_exists'.1 (selectCommand_ne_none hle (dirField v) (nrfField v) (algField v))
    exact .inr (.inr ⟨i, hle, rfl, hi, by simp [decode, hopc, hfield, hi]⟩)

theorem decode_eq_ok {v : Word} {i : Instr} : decode v = .ok i ↔ opcField v ≤ 0x11 ∧ fieldError v = false ∧
    selectCommand (opcField v) (dirField v) (nrfField v) (algField v) = some i := by
  rcases decode_cases v with ⟨ho, hd⟩ | ⟨ho, hf, hd⟩ | ⟨j, ho, hf, hj, hd⟩ <;> rw [hd]
  · simp [ho]
  · simp [hf]
  · simp [ho, hf, hj]

theorem decode_eq_opcode {v : Word} : decode v = .error .opcode ↔ 0x11 < opcField v := by
  rcases decode_cases v with ⟨ho, hd⟩ | ⟨ho, -, hd⟩ | ⟨j, ho, -, -, hd⟩ <;> simp [hd, ho]

theorem decode_eq_field {v : Word} : decode v = .error .field ↔ opcField v ≤ 0x11 ∧ fieldError v = true := by
  rcases decode_cases v with ⟨ho, hd⟩ | ⟨ho, hf, hd⟩ | ⟨j, ho, hf, -, hd⟩
  · simp [hd, ho]
  · simp [hd, ho, hf]
  · simp [hd, hf]

/-- The FIELD check fails exactly when a reserved field or a field the opcode does not use is nonzero (R114). -/
theorem fieldError_eq_true {v : Word} : fieldError v = true ↔
    rsv1Field v ≠ 0 ∨ rsv0Field v ≠ 0 ∨ (dirField v ≠ 0 ∧ usesDir (opcField v) = false) ∨
      (nrfField v ≠ 0 ∧ usesNrf (opcField v) = false) ∨ (algField v ≠ 0 ∧ usesAlg (opcField v) = false) := by
  simp [fieldError, or_assoc, and_comm]

/-! ## Decoding and encoding -/

theorem decode_encode {i : Instr} (h : i.wf = true) : decode (encode i) = .ok i := by
  obtain ⟨hnrf, halg⟩ := (wf_iff i).1 h
  have hle := opcodeOf_le i
  obtain ⟨hopc, hdir, hnrf, halg⟩ := fields_assemble (opc := opcodeOf i) (by omega) (dirOf_lt i) hnrf halg
  obtain ⟨hrsv0, hrsv1⟩ := Laws.ReservedFieldsZero.assemble_reserved (opcodeOf i) (dirOf i) (nrfOf i) (algOf i)
  rw [decode_eq_ok, fieldError_eq_false, encode, hopc, hdir, hnrf, halg]
  exact ⟨hle, ⟨hrsv1, hrsv0, unused_fields_zero i⟩, selectCommand_self i⟩

/-- A decoded instruction is well-formed: its operands are 4-bit fields of the word (R111). -/
theorem wf_of_decode {v : Word} {i : Instr} (h : decode v = .ok i) : i.wf = true := by
  obtain ⟨-, hfield, hrow⟩ := decode_eq_ok.1 h
  obtain ⟨-, -, hdir, hnrf, halg⟩ := fieldError_eq_false.1 hfield
  obtain ⟨-, -, hn, ha⟩ := selectCommand_fields (BitVec.isLt _) hdir hnrf halg hrow
  rw [wf_iff, hn, ha]
  exact ⟨BitVec.isLt _, BitVec.isLt _⟩

/-- The word of a well-formed instruction as a number (R110, R118). -/
theorem encode_eq_ofNat {i : Instr} (h : i.wf = true) :
    encode i = BitVec.ofNat 32 (opcodeOf i + dirOf i * 2 ^ 8 + nrfOf i * 2 ^ 12 + algOf i * 2 ^ 16) := by
  obtain ⟨hnrf, halg⟩ := (wf_iff i).1 h
  have hle := opcodeOf_le i
  rw [← assemble_toNat (by omega) (dirOf_lt i) hnrf halg, BitVec.ofNat_toNat, BitVec.setWidth_eq, encode]

/-- Every reason reports an error (60_exceptions R532). -/
theorem Reason.errClass_ne_ok (r : Reason) : r.errClass ≠ .ok := by cases r <;> decide

/-! ## The obligations -/

/-- Settles O1: the word of a well-formed instruction has the instruction's fields, which pass the checks and select its
own row. -/
theorem decodeOfEncode : Obligations.DecodeOfEncode := fun _ => decode_encode

/-- Settles O2: the fields of an accepted word are those of the instruction it gives. -/
theorem encodeOfDecode : Obligations.EncodeOfDecode := fun _ _ h => ⟨wf_of_decode h, encode_of_decode h⟩

/-- Settles O5: the decoder rejects for the opcode or the FIELD check only, as every assigned opcode has a row. -/
theorem decoderRejectsExactlyTheReservedWords : Obligations.DecoderRejectsExactlyTheReservedWords := by
  rintro v _ rfl
  refine ⟨decode_eq_opcode, ?_⟩
  rw [decode_eq_field, fieldError_eq_true]
  simp [opcField, rsv1Field, rsv0Field, dirField, nrfField, algField, usesDir, usesNrf, usesAlg, and_assoc,
    ← BitVec.toNat_inj]

/-- Settles O18: of the three ways a command can end, only the fault has no next state and it names an unwritten cell; a
report is an error; a success has read every operand. -/
theorem commandsCompleteOnWrittenOperands : Obligations.CommandsCompleteOnWrittenOperands := by
  intro i s
  rcases exec_ends i s with ⟨r, -, -, -, he⟩ | ⟨-, bn, hbn, j, hj, hnone, he⟩ | ⟨t, -, hw, -, he⟩ <;> rw [he]
  · refine ⟨fun _ => ⟨_, rfl⟩, ?_⟩
    rintro _ ⟨⟩ hok
    exact absurd hok r.errClass_ne_ok
  · exact ⟨fun hw => absurd hnone (hw bn hbn j hj), nofun⟩
  · exact ⟨fun _ => ⟨t, rfl⟩, fun _ _ _ => hw⟩

/-- Settles O3: the words with an operand are sums of their fields; the others are computed. -/
theorem mnemonicsAssembleToTheirWords : Obligations.MnemonicsAssembleToTheirWords := by
  refine ⟨fun n hn => ?_, rfl, rfl, rfl, rfl, rfl, rfl, rfl, rfl, rfl, rfl, rfl, rfl, rfl, rfl,
    fun _ => rfl, fun _ => rfl⟩
  have hfits : fits4 n = true := decide_eq_true hn
  refine ⟨?_, ?_, ?_, ?_, ?_, ?_⟩ <;> rw [encode_eq_ofNat (by exact hfits)] <;> simp [opcodeOf, dirOf, nrfOf, algOf]

/-- Settles O4, by computing the fourteen words. -/
theorem wordsOfTheOpcodeMapDecode : Obligations.WordsOfTheOpcodeMapDecode := by
  unfold Obligations.WordsOfTheOpcodeMapDecode
  decide

end Sys2Proof.Machine
end

section
/-! PROOFS. The S-box against its rule, the words of the key schedule, and AES_EXPAND (40_aes_key_schedule R150 to R161). -/
namespace Sys2Proof.Machine

/-! ## The S-box (R152 to R154) -/

/-- The affine map of R153 undone: a linear map and a constant. -/
def sboxAffineInv (x : Byte) : Byte := x.rotateLeft 1 ^^^ x.rotateLeft 3 ^^^ x.rotateLeft 6 ^^^ 0x05

theorem sboxAffine_sboxAffineInv : ∀ x : Byte, sboxAffine (sboxAffineInv x) = x := by decide

theorem sboxAffineInv_sbox_zero : sboxAffineInv (sbox 0) = 0 := by decide

/-- Every entry of the table but that of 0 is the affine map of a field inverse: 255 products. -/
theorem gmul_sboxAffineInv_sbox : ∀ a : Byte, a ≠ 0 → gmul a (sboxAffineInv (sbox a)) = 1 := by decide

/-- Settles O49: the inverse of `a` is what the affine map takes to the table's entry. -/
theorem sboxIsInverseThenAffineMap : Obligations.SboxIsInverseThenAffineMap := by
  intro a
  refine ⟨sboxAffineInv (sbox a), ?_, (sboxAffine_sboxAffineInv (sbox a)).symm⟩
  by_cases ha : a = 0
  · subst ha
    exact .inl ⟨rfl, sboxAffineInv_sbox_zero⟩
  · exact .inr ⟨ha, gmul_sboxAffineInv_sbox a ha⟩

/-! ## The words of the key schedule (R156, R158) -/

/-- Piece `i` of a string, if there is one. -/
theorem chunks_getElem? {k : Nat} (hk : 0 < k) (b : Bytes) {i : Nat} (hi : k * i < b.length) :
    (chunks k b)[i]? = some (slice b (k * i) (k * i + k)) := by
  have hb : b ≠ [] := by rintro rfl; simp at hi
  rw [chunks_of_ne_nil hk hb]
  induction i generalizing b with
  | zero => simp [slice]
  | succ i ih =>
    have hrest : k * i < (b.drop k).length := by rw [List.length_drop]; rw [Nat.mul_succ] at hi; omega
    have hne : b.drop k ≠ [] := by intro h; simp [h] at hrest
    rw [List.getElem?_cons_succ, chunks_of_ne_nil hk hne, ih _ hrest hne]
    simp [slice, Nat.mul_succ, Nat.add_comm]

/-- The lengths a key may have, with their rounds (R156). -/
theorem rounds_eq_some {n nr : Nat} : rounds n = some nr ↔ (n, nr) ∈ [(16, 10), (24, 12), (32, 14)] := by
  unfold rounds
  split <;> simp_all [eq_comm]

theorem expandKey_eq_expandWords {key : Bytes} {nk nr : Nat} (h : (nk, nr) ∈ [(4, 10), (6, 12), (8, 14)])
    (hk : key.length = 4 * nk) : expandKey key = expandWords nk (4 * (nr + 1) - nk) (chunks 4 key) := by
  have hr : rounds key.length = some nr := rounds_eq_some.2 <| by
    simp only [List.mem_cons, Prod.mk.injEq, List.not_mem_nil, or_false] at h ⊢
    omega
  rw [expandKey, hr, hk, Nat.mul_div_cancel_left nk (by omega)]

/-- Further words leave those already there. -/
theorem expandWords_getElem?_of_lt (nk count : Nat) {w : List Bytes} {i : Nat} (hi : i < w.length) :
    (expandWords nk count w)[i]? = w[i]? := by
  induction count with
  | zero => rfl
  | succ count ih =>
    rw [expandWords_succ_last, List.getElem?_append_left (by rw [expandWords_length]; omega), ih]

/-- A word depends on those before it only. -/
theorem expandWord_append {nk i : Nat} (hk : 0 < nk) (h0 : 0 < i) {w : List Bytes} (hi : i ≤ w.length)
    (v : List Bytes) : expandWord nk i (w ++ v) = expandWord nk i w := by
  have hget : ∀ j < w.length, (w ++ v).getD j [] = w.getD j [] := fun j hj => List.getD_append _ _ _ _ hj
  rw [expandWord, expandWord, hget (i - 1) (by omega), hget (i - nk) (by omega)]

/-- Every word after the first ones is the recurrence's, over the whole list. -/
theorem expandWords_getElem?_of_le {nk : Nat} (hk : 0 < nk) {count : Nat} {w : List Bytes} (hw : 0 < w.length) {i : Nat}
    (hi : w.length ≤ i) (hlt : i < w.length + count) :
    (expandWords nk count w)[i]? = some (expandWord nk i (expandWords nk count w)) := by
  induction count with
  | zero => omega
  | succ count ih =>
    have hlen := expandWords_length nk count w
    rw [expandWords_succ_last, expandWord_append hk (by omega) (by omega)]
    by_cases hlast : i = w.length + count
    · subst hlast
      rw [← hlen, List.getElem?_concat_length]
    · rw [List.getElem?_append_left (by omega)]
      exact ih (by omega)

/-- The recurrence of R158 with the word before and the word `nk` back named. -/
theorem expandWord_of_getElem? {nk i : Nat} {w : List Bytes} {prev back : Bytes} (hprev : w[i - 1]? = some prev)
    (hback : w[i - nk]? = some back) :
    expandWord nk i w = xorBytes back
      (if i % nk = 0 then xorBytes (subWord (rotWord prev)) [rcon (i / nk), 0, 0, 0]
       else if nk = 8 ∧ i % nk = 4 then subWord prev else prev) := by
  simp only [expandWord, List.getD_eq_getElem?_getD, hprev, hback, Option.getD_some]

/-- Settles O50: the first words are the key's pieces and stay, each later one is appended by the recurrence. -/
theorem keyScheduleFollowsTheRecurrence : Obligations.KeyScheduleFollowsTheRecurrence := by
  intro key nk nr h hk
  have hwords := expandKey_eq_expandWords h hk
  have hchunks : (chunks 4 key).length = nk := by rw [chunks_length (by omega)]; omega
  have hpos : 0 < nk := by
    simp only [List.mem_cons, Prod.mk.injEq, List.not_mem_nil, or_false] at h
    omega
  obtain ⟨hlen, -⟩ := expandKey_shape h hk
  refine ⟨hlen, fun i hi => ?_, fun i prev back w hi hprev hback hw => ?_, roundKeys_shape h hk⟩
  · rw [hwords, expandWords_getElem?_of_lt _ _ (by omega), chunks_getElem? (by omega) key (by omega)]
  · obtain ⟨hlt, -⟩ := List.getElem?_eq_some_iff.1 hw
    have hrec : (expandKey key)[i]? = some (expandWord nk i (expandKey key)) := by
      rw [hwords] at hlt ⊢
      exact expandWords_getElem?_of_le hpos (by omega) (by omega) (by rwa [expandWords_length] at hlt)
    rw [← expandWord_of_getElem? hprev hback]
    exact Option.some.inj (hw.symm.trans hrec)

/-! ## AES_EXPAND (R161) -/

section
variable {nrf : Nat} {s : State}

theorem exec_aesExpand_of_klen_not_mem (hk : s.klen.toNat ∉ [16, 24, 32]) :
    exec (.aesExpand nrf) s = .next (raise (encode (.aesExpand nrf)) .keylen s) :=
  runCommand_of_fail (by simp [keylenCheck, hk]) _ _

theorem exec_aesExpand_of_rounds_ne (hk : s.klen.toNat ∈ [16, 24, 32])
    (hn : (s.klen.toNat, nrf) ∉ [(16, 10), (24, 12), (32, 14)]) :
    exec (.aesExpand nrf) s = .next (raise (encode (.aesExpand nrf)) .rounds s) := by
  have hr : rounds s.klen.toNat ≠ some nrf := mt rounds_eq_some.1 hn
  exact runCommand_of_fail (by simp [keylenCheck, hk, hr]) _ _

theorem exec_aesExpand_of_holds {key : Bytes} (hn : (s.klen.toNat, nrf) ∈ [(16, 10), (24, 12), (32, 14)])
    (hl : key.length = s.klen.toNat) (hkey : s.holds .key key) :
    exec (.aesExpand nrf) s = .next { s with
      rk := s.rk.write 0 (roundKeys key).flatten, nr := BitVec.ofNat 32 nrf, rkv := true,
      err := .ok, padok := false, errinfo := 0, doutlen := 0 } := by
  have hk : s.klen.toNat ∈ [16, 24, 32] := List.mem_map_of_mem (f := Prod.fst) hn
  have hr : rounds s.klen.toNat = some nrf := rounds_eq_some.2 hn
  have hread : s.keyOperand = .ok key := bufRead_of_holds hkey hl
  rw [exec, execAesExpand, runCommand_of_pass (by simp [keylenCheck, hk, hr]), hread]
  rfl

end

/-- Settles O28: the first check that fails is the one reported; past both, the key read is the one held. -/
theorem aesExpandLoadsTheKeySchedule : Obligations.AesExpandLoadsTheKeySchedule := fun _ _ =>
  ⟨exec_aesExpand_of_klen_not_mem, exec_aesExpand_of_rounds_ne, fun _ => exec_aesExpand_of_holds⟩

end Sys2Proof.Machine
end

section
/-! PROOFS. The round transformations on the state matrix, the cipher they compose, and AES_ENC_BLOCK (41_aes_block R200
to R206). -/
namespace Sys2Proof.Machine

/-! ## The round transformations, byte by byte (R200 to R204) -/

theorem subBytes_getElem? (st : Bytes) (i : Nat) : (subBytes st)[i]? = (st[i]?).map sbox := by simp [subBytes]

/-- ShiftRows takes byte `r + 4c` from column `c + r` (R202). -/
theorem shiftRows_getElem? {st : Bytes} (h : st.length = 16) {r c : Nat} (hr : r < 4) (hc : c < 4) :
    (shiftRows st)[r + 4 * c]? = st[r + 4 * ((c + r) % 4)]? := by
  have hrow : (r + 4 * c) % 4 = r := by omega
  have hcol : (r + 4 * c) / 4 = c := by omega
  have hto : r + 4 * c < 16 := by omega
  have hfrom : r + 4 * ((c + r) % 4) < st.length := by omega
  simp only [shiftRows, List.getElem?_map, List.getElem?_range hto, Option.map_some, hrow, hcol,
    List.getD_eq_getElem _ _ hfrom, List.getElem?_eq_getElem hfrom]

/-- MixColumns' byte in row `r`, column `c`: 2, 3, 1, 1 times the column's bytes from row `r` on (R203). -/
def mixedByte (st : Bytes) (r c : Nat) : Byte :=
  gmul 2 (st.getD (r + 4 * c) 0) ^^^ gmul 3 (st.getD ((r + 1) % 4 + 4 * c) 0) ^^^ st.getD ((r + 2) % 4 + 4 * c) 0 ^^^
    st.getD ((r + 3) % 4 + 4 * c) 0

/-- The model writes each row's terms in the order of the column, the rule from row `r` on. -/
theorem mixColumn_getElem? (a0 a1 a2 a3 : Byte) (rest : Bytes) {r : Nat} (hr : r < 4) :
    (mixColumn a0 a1 a2 a3)[r]? = some (mixedByte (a0 :: a1 :: a2 :: a3 :: rest) r 0) := by
  interval_cases r <;> simp [mixColumn, mixedByte] <;> ac_rfl

theorem mixedByte_next_column (a0 a1 a2 a3 : Byte) (rest : Bytes) (r c : Nat) :
    mixedByte (a0 :: a1 :: a2 :: a3 :: rest) r (c + 1) = mixedByte rest r c := by
  simp [mixedByte, Nat.mul_succ, ← Nat.add_assoc]

/-- Column by column: the first one here, a later one in the rest of the string. -/
theorem mixColumns_getElem? {r : Nat} (hr : r < 4) : ∀ {n c : Nat} {st : Bytes}, st.length = 4 * n → c < n →
    (mixColumns st)[r + 4 * c]? = some (mixedByte st r c)
  | _ + 1, 0, a0 :: a1 :: a2 :: a3 :: rest, _, _ => by
    rw [mixColumns, List.getElem?_append_left hr]
    exact mixColumn_getElem? a0 a1 a2 a3 rest hr
  | n + 1, c + 1, a0 :: a1 :: a2 :: a3 :: rest, h, hc => by
    have hrest : rest.length = 4 * n := by simp only [List.length_cons] at h; omega
    rw [mixColumns, List.getElem?_append_right (by rw [mixColumn_length]; omega), mixColumn_length,
      show r + 4 * (c + 1) - 4 = r + 4 * c by omega, mixedByte_next_column]
    exact mixColumns_getElem? hr hrest (by omega)

/-! ## The cipher (R205) -/

/-- `count` rounds of all four transformations, from round `r` on, one after the other. -/
theorem cipherRounds_eq_foldl (rk : List Bytes) (r count : Nat) (st : Bytes) :
    cipherRounds rk r count st = (List.range' r count).foldl
      (fun st r => addRoundKey (mixColumns (shiftRows (subBytes st))) (rk.getD r [])) st := by
  induction count generalizing r st with
  | zero => rfl
  | succ count ih => rw [cipherRounds, ih, List.range'_succ, List.foldl_cons]

/-- Settles O51: each transformation byte by byte, and the main loop as a fold over the round numbers. -/
theorem roundTransformationsActOnTheMatrix : Obligations.RoundTransformationsActOnTheMatrix := by
  refine ⟨fun st k hs hk r hr c hc => ⟨subBytes_getElem? st _, shiftRows_getElem? hs hr hc,
    mixColumns_getElem? (n := 4) hr hs hc, xorBytes_getElem? st k _ (by omega) (by omega)⟩, fun blk keys nr => ?_⟩
  rw [encryptBlock, cipherRounds_eq_foldl]

/-! ## The checks of the commands that use the stored round keys (R206, 42_gcm R259) -/

section
variable {nrf : Nat} {s : State}

theorem firstFailing_of_nrf_not_mem (hn : nrf ∉ [10, 12, 14]) (rest : List (Bool × Reason)) :
    firstFailing (roundsLegalCheck nrf :: rest) = some .rounds := by
  simp [roundsLegalCheck, hn]

theorem firstFailing_of_rkv_eq_false (hn : nrf ∈ [10, 12, 14]) (hv : s.rkv = false) (rest : List (Bool × Reason)) :
    firstFailing (roundsLegalCheck nrf :: rkvCheck s :: rest) = some .rkinvalid := by
  simp [roundsLegalCheck, rkvCheck, hn, hv]

theorem firstFailing_of_nr_ne (hn : nrf ∈ [10, 12, 14]) (hv : s.rkv = true) (hr : s.nr.toNat ≠ nrf)
    (rest : List (Bool × Reason)) :
    firstFailing (roundsLegalCheck nrf :: rkvCheck s :: roundsMatchCheck nrf s :: rest) = some .rounds := by
  simp [roundsLegalCheck, rkvCheck, roundsMatchCheck, hn, hv, hr.symm]

/-- With a schedule of `nrf` rounds loaded the other checks decide. -/
theorem firstFailing_of_schedule_loaded (hn : nrf ∈ [10, 12, 14]) (hv : s.rkv = true) (hr : s.nr.toNat = nrf)
    (rest : List (Bool × Reason)) :
    firstFailing (roundsLegalCheck nrf :: rkvCheck s :: roundsMatchCheck nrf s :: rest) = firstFailing rest := by
  simp [roundsLegalCheck, rkvCheck, roundsMatchCheck, hn, hv, hr]

/-! ## AES_ENC_BLOCK (R206) -/

theorem exec_aesEncBlock_of_dinlen_ne (hn : nrf ∈ [10, 12, 14]) (hv : s.rkv = true) (hr : s.nr.toNat = nrf)
    (hd : s.dinlen.toNat ≠ 16) :
    exec (.aesEncBlock nrf) s = .next (raise (encode (.aesEncBlock nrf)) .datalen s) :=
  runCommand_of_fail ((firstFailing_of_schedule_loaded hn hv hr _).trans (by simp [dinlenExactCheck, hd])) _ _

theorem exec_aesEncBlock_of_holds {keys : List Bytes} {blk : Bytes} (hn : nrf ∈ [10, 12, 14]) (hv : s.rkv = true)
    (hr : s.nr.toNat = nrf) (hd : s.dinlen.toNat = 16) (hkeys : s.holdsKeys nrf keys) (hl : blk.length = 16)
    (hblk : s.holds .din blk) :
    exec (.aesEncBlock nrf) s = .next { s with
      dout := s.dout.write 0 (encryptBlock blk keys nrf), err := .ok, padok := false, errinfo := 0,
      doutlen := 16 } := by
  have hpass : firstFailing [roundsLegalCheck nrf, rkvCheck s, roundsMatchCheck nrf s, dinlenExactCheck 16 s] = none :=
    (firstFailing_of_schedule_loaded hn hv hr _).trans (by simp [dinlenExactCheck, hd])
  have hdin : s.dinOperand = .ok blk := bufRead_of_holds hblk (hl.trans hd.symm)
  have hout : (encryptBlock blk keys nrf).length = 16 := by
    obtain ⟨hcount, hlen, -⟩ := hkeys
    exact encryptBlock_length hlen (by omega) blk
  rw [exec, execAesEncBlock, runCommand_of_pass (firstFailing_eq_none.1 hpass), roundKeysOperand_of_holds hkeys, hdin,
    reading_ok, reading_ok, finishWith, hout]
  rfl

end

/-- Settles O29: the first check that fails is the one reported; past all four, the keys and the block read are those
held. -/
theorem aesEncBlockEncryptsOneBlock : Obligations.AesEncBlockEncryptsOneBlock := by
  rintro nrf s _ rfl
  exact ⟨fun hn => runCommand_of_fail (firstFailing_of_nrf_not_mem hn _) _ _,
    fun hn hv => runCommand_of_fail (firstFailing_of_rkv_eq_false hn hv _) _ _,
    fun hn hv hr => runCommand_of_fail (firstFailing_of_nr_ne hn hv hr _) _ _,
    exec_aesEncBlock_of_dinlen_ne, fun _ _ => exec_aesEncBlock_of_holds⟩

end Sys2Proof.Machine
end

section
/-! PROOFS. GF(2^128), the counter increment and the tag comparison (42_gcm R250, R251, R254, R258). -/
namespace Sys2Proof.Machine

/-! ## GF(2^128) (R250, R251) -/

/-- The step of R251's `V`: a shift right, reduced by `E1` in the top byte when a 1 drops out. -/
def gf128TimesX (v : BitVec 128) : BitVec 128 :=
  if v.getLsbD 0 then (v >>> 1) ^^^ (0xE1#128 <<< 120) else v >>> 1

theorem gf128Loop_succ (x : BitVec 128) (c : Nat) (z v : BitVec 128) :
    gf128Loop x (c + 1) z v = gf128Loop x c (if x.getLsbD c then z ^^^ v else z) (gf128TimesX v) := rfl

/-- Adding `r` under two conditions adds it exactly when one of them holds. -/
theorem xor_if_xor (p q : Bool) (a b r : BitVec 128) :
    (if p ^^ q then a ^^^ b ^^^ r else a ^^^ b) = (if p then a ^^^ r else a) ^^^ (if q then b ^^^ r else b) := by
  cases p <;> cases q
  · rfl
  · exact BitVec.xor_assoc a b r
  · show a ^^^ b ^^^ r = a ^^^ r ^^^ b
    ac_rfl
  · calc a ^^^ b = a ^^^ b ^^^ (r ^^^ r) := by simp
      _ = (a ^^^ r) ^^^ (b ^^^ r) := by ac_rfl

theorem gf128TimesX_xor (v w : BitVec 128) : gf128TimesX (v ^^^ w) = gf128TimesX v ^^^ gf128TimesX w := by
  simp only [gf128TimesX, BitVec.getLsbD_xor, BitVec.ushiftRight_xor_distrib, xor_if_xor]

/-- The loop is additive in the factor whose bits select, together with the product so far. -/
theorem gf128Loop_xor_left (x x' : BitVec 128) (c : Nat) (z z' v : BitVec 128) :
    gf128Loop (x ^^^ x') c (z ^^^ z') v = gf128Loop x c z v ^^^ gf128Loop x' c z' v := by
  induction c generalizing z z' v with
  | zero => rfl
  | succ c ih =>
    rw [gf128Loop_succ, gf128Loop_succ, gf128Loop_succ, ← ih, BitVec.getLsbD_xor, xor_if_xor]

/-- And in the factor that is shifted. -/
theorem gf128Loop_xor_right (x : BitVec 128) (c : Nat) (z z' v v' : BitVec 128) :
    gf128Loop x c (z ^^^ z') (v ^^^ v') = gf128Loop x c z v ^^^ gf128Loop x c z' v' := by
  induction c generalizing z z' v v' with
  | zero => rfl
  | succ c ih =>
    rw [gf128Loop_succ, gf128Loop_succ, gf128Loop_succ, ← ih, gf128TimesX_xor]
    congr 1
    split
    · ac_rfl
    · rfl

/-- Bits that are zero add nothing. -/
theorem gf128Loop_of_low_bits_zero {x : BitVec 128} {c : Nat} (h : ∀ i < c, x.getLsbD i = false) (z v : BitVec 128) :
    gf128Loop x c z v = z := by
  induction c generalizing v with
  | zero => rfl
  | succ c ih =>
    rw [gf128Loop_succ, h c (by omega)]
    exact ih (fun i hi => h i (by omega)) _

/-- Bit `c` of `x >>> 1` is bit `c + 1` of `x`, so the loop over the one is the loop over the other but for bit 0. -/
theorem gf128Loop_ushiftRight {x : BitVec 128} (h : x.getLsbD 0 = false) (c : Nat) (z v : BitVec 128) :
    gf128Loop (x >>> 1) c z v = gf128Loop x (c + 1) z v := by
  induction c generalizing z v with
  | zero => rw [gf128Loop_succ, h]; rfl
  | succ c ih => rw [gf128Loop_succ, gf128Loop_succ x, ih, BitVec.getLsbD_ushiftRight, Nat.add_comm 1 c]

theorem gf128mul_xor_left (x x' y : BitVec 128) : gf128mul (x ^^^ x') y = gf128mul x y ^^^ gf128mul x' y :=
  gf128Loop_xor_left x x' 128 0 0 y

theorem gf128mul_xor_right (x y y' : BitVec 128) : gf128mul x (y ^^^ y') = gf128mul x y ^^^ gf128mul x y' :=
  gf128Loop_xor_right x 128 0 0 y y'

theorem gf128mul_zero (x : BitVec 128) : gf128mul x 0 = 0 := by
  simpa using gf128mul_xor_right x 0 0

theorem getLsbD_one_block : ∀ i < 127, (0x80#128 <<< 120).getLsbD i = false := by decide
theorem getLsbD_x_block : ∀ i < 126, (0x40#128 <<< 120).getLsbD i = false := by decide

/-- The block `80 00 .. 00` has its first bit only, so the loop adds `y` as it is. -/
theorem gf128mul_one_left (y : BitVec 128) : gf128mul (0x80#128 <<< 120) y = y := by
  rw [gf128mul, gf128Loop_succ, gf128Loop_of_low_bits_zero getLsbD_one_block]
  simp

/-- The block `40 00 .. 00` has its second bit only, so the loop adds `y` after one step. -/
theorem gf128mul_x_left (y : BitVec 128) : gf128mul (0x40#128 <<< 120) y = gf128TimesX y := by
  rw [gf128mul, gf128Loop_succ, gf128Loop_succ, gf128Loop_of_low_bits_zero getLsbD_x_block]
  simp

theorem gf128mul_ushiftRight_left {x : BitVec 128} (h : x.getLsbD 0 = false) (y : BitVec 128) :
    gf128mul (x >>> 1) y = gf128mul x (gf128TimesX y) := by
  have htop : (x >>> 1).getLsbD 127 = false := by simp
  rw [gf128mul, gf128Loop_succ, htop, gf128Loop_ushiftRight h]
  rfl

/-- Settles O52: the loop is additive in both factors, and the blocks `80 00 .. 00` and `40 00 .. 00` have one bit
each. -/
theorem gf128MulIsBilinearWithOne : Obligations.Gf128MulIsBilinearWithOne := by
  intro x x' y y'
  refine ⟨gf128mul_xor_left x x' y, gf128mul_xor_right x y y', gf128mul_one_left y, gf128mul_zero x,
    gf128mul_x_left y, fun h => ?_⟩
  rw [gf128mul_x_left, gf128mul_ushiftRight_left h]

/-! ## The counter increment (R254) -/

/-- Settles O53: `inc32` joins the first 12 bytes and the four of the number plus 1. -/
theorem inc32TouchesOnlyTheLastFourBytes : Obligations.Inc32TouchesOnlyTheLastFourBytes := by
  intro cb h
  have hhead : (slice cb 0 12).length = 12 := by simp [slice, h]
  refine ⟨inc32_length h, ?_, ?_⟩
  · rw [inc32, List.take_left' hhead]
    simp [slice]
  · have htail : slice cb 12 16 = cb.drop 12 := by simp [slice, h]
    rw [inc32, List.drop_left' hhead, be_toBE, htail]
    exact Nat.mod_mod _ _

/-! ## Comparing tags (R258) -/

/-- An OR is zero exactly when every byte is. -/
theorem orFold_eq_zero {b : Bytes} : orFold b = 0 ↔ ∀ x ∈ b, x = 0 := by
  have hacc : ∀ (b : Bytes) (v : Byte), b.foldl (· ||| ·) v = 0 ↔ v = 0 ∧ ∀ x ∈ b, x = 0 := by
    intro b
    induction b with
    | nil => simp
    | cons x b ih => intro v; rw [List.foldl_cons, ih]; simp [and_assoc]
  rw [orFold, hacc]
  exact and_iff_right rfl

/-- Strings of one length differ by zeros exactly when they are equal. -/
theorem xorBytes_eq_zero_iff {a b : Bytes} (h : a.length = b.length) : (∀ x ∈ xorBytes a b, x = 0) ↔ a = b := by
  induction a generalizing b with
  | nil => simp [List.eq_nil_of_length_eq_zero h.symm]
  | cons x a ih =>
    cases b with
    | nil => simp at h
    | cons y b =>
      rw [xorBytes_cons, List.forall_mem_cons, ih (by simpa using h), List.cons.injEq]
      exact and_congr_left' BitVec.xor_eq_zero_iff

theorem tagEqual_exact {a b : Bytes} (h : a.length = b.length) : tagEqual .exact a b = true ↔ a = b := by
  rw [tagEqual, beq_iff_eq, orFold_eq_zero, xorBytes_eq_zero_iff h]

theorem xorFold_eq_zero {b : Bytes} (h : ∀ x ∈ b, x = 0) : xorFold b = 0 := by
  induction b with
  | nil => rfl
  | cons x b ih =>
    obtain ⟨rfl, hb⟩ := List.forall_mem_cons.1 h
    exact ih hb

/-- A tag compares equal to itself under either comparison. -/
theorem tagEqual_self (mode : TagCompare) (a : Bytes) : tagEqual mode a a = true := by
  cases mode with
  | exact => exact (tagEqual_exact rfl).2 rfl
  | xorFold => exact beq_iff_eq.2 (xorFold_eq_zero ((xorBytes_eq_zero_iff rfl).2 rfl))

/-- Settles O54: an OR of differences is zero when each of them is; XOR_FOLD is the rule's own fold. -/
theorem tagComparisonModes : Obligations.TagComparisonModes :=
  fun _ _ ha hb => ⟨tagEqual_exact (ha.trans hb.symm), beq_iff_eq⟩

end Sys2Proof.Machine
end

section
/-! PROOFS. Counter mode byte by byte, GHASH block by block, and the two GCM commands (42_gcm R252 to R260). -/
namespace Sys2Proof.Machine

/-! ## Counter mode (R255) -/

section
variable {keys : List Bytes} {nr : Nat}

/-- A string of at most one block is XORed with the cipher of the next counter block. -/
theorem gctr_of_length_le {d : Bytes} (h0 : d ≠ []) (hd : d.length ≤ 16) (cb : Bytes) :
    gctr keys nr cb d = xorBytes d (encryptBlock (inc32 cb) keys nr) := by
  rw [gctr, chunks_of_le (by omega) h0 hd, gctrLoop, gctrLoop, List.append_nil]

/-- So is a whole block in front, and the rest goes on from that counter block. -/
theorem gctr_append {d : Bytes} (hd : d.length = 16) (cb rest : Bytes) :
    gctr keys nr cb (d ++ rest) = xorBytes d (encryptBlock (inc32 cb) keys nr) ++ gctr keys nr (inc32 cb) rest := by
  rw [gctr, chunks_append (by omega) hd, gctrLoop, gctr]

variable (hk : ∀ k ∈ keys, k.length = 16) (hr : nr < keys.length)
include hk hr

/-- Byte `i` of counter mode, in block `i / 16` (R255). -/
theorem gctr_getElem? (cb d : Bytes) {i : Nat} (hi : i < d.length) :
    (gctr keys nr cb d)[i]? =
      some (d.getD i 0 ^^^ (encryptBlock (inc32^[i / 16 + 1] cb) keys nr).getD (i % 16) 0) := by
  have hblock : ∀ b : Bytes, (encryptBlock b keys nr).length = 16 := encryptBlock_length hk hr
  have hbyte : ∀ {a : Bytes} (b : Bytes) {i : Nat}, i < a.length → i < 16 →
      (xorBytes a (encryptBlock b keys nr))[i]? = some (a.getD i 0 ^^^ (encryptBlock b keys nr).getD i 0) :=
    fun b i ha h16 => xorBytes_getElem? _ _ _ ha (by rwa [hblock])
  induction d using chunksInduction (k := 16) (by omega) generalizing cb i with
  | hnil => simp at hi
  | hlast a h0 ha =>
    rw [gctr_of_length_le h0 ha.le, Nat.div_eq_of_lt (by omega), Nat.mod_eq_of_lt (by omega)]
    exact hbyte _ hi (by omega)
  | hstep a b ha ih =>
    have hlen : (xorBytes a (encryptBlock (inc32 cb) keys nr)).length = 16 := by simp [ha, hblock]
    rw [gctr_append ha]
    by_cases hlt : i < 16
    · rw [List.getElem?_append_left (by omega), List.getD_append _ _ _ _ (by omega), Nat.div_eq_of_lt hlt,
        Nat.mod_eq_of_lt hlt]
      exact hbyte _ (by omega) hlt
    · obtain ⟨j, rfl⟩ : ∃ j, i = j + 16 := ⟨i - 16, by omega⟩
      rw [List.getElem?_append_right (by omega), List.getD_append_right _ _ _ _ (by omega), hlen, ha,
        Nat.add_sub_cancel, Nat.add_mod_right, Nat.add_div_right _ (by omega), Function.iterate_succ_apply]
      exact ih (inc32 cb) (by rw [List.length_append] at hi; omega)

/-- Counter mode undoes itself: each byte is XORed with the same cipher byte twice. -/
theorem gctr_gctr (cb d : Bytes) : gctr keys nr cb (gctr keys nr cb d) = d := by
  refine List.ext_getElem? fun i => ?_
  by_cases hi : i < d.length
  · rw [gctr_getElem? hk hr cb _ (by rwa [gctr_length hk hr]), List.getD_eq_getElem?_getD,
      gctr_getElem? hk hr cb d hi, Option.getD_some, BitVec.xor_assoc, BitVec.xor_self, BitVec.xor_zero,
      List.getD_eq_getElem _ _ hi, List.getElem?_eq_getElem hi]
  · rw [List.getElem?_eq_none (by rw [gctr_length hk hr, gctr_length hk hr]; omega),
      List.getElem?_eq_none (by omega)]

end

/-! ## GHASH (R252) -/

/-- The pieces of whole blocks and a rest are theirs, one after the other. -/
theorem chunks_append_of_mod_eq_zero {k : Nat} (hk : 0 < k) {u : Bytes} (hu : u.length % k = 0) (v : Bytes) :
    chunks k (u ++ v) = chunks k u ++ chunks k v := by
  induction u using chunksInduction hk with
  | hnil => rfl
  | hlast a h0 ha =>
    have := List.length_pos_iff.2 h0
    rw [Nat.mod_eq_of_lt ha] at hu
    omega
  | hstep a b ha ih =>
    rw [List.append_assoc, chunks_append hk ha, chunks_append hk ha, ih (by simpa [ha] using hu), List.cons_append]

/-- A field element is the number of its own 16 bytes (R250). -/
theorem blockNum_toBE (x : BitVec 128) : blockNum (toBE 16 x.toNat) = x := by
  have hx : x.toNat % 256 ^ 16 = x.toNat := Nat.mod_eq_of_lt x.isLt
  rw [blockNum, be_toBE, hx, BitVec.ofNat_toNat, BitVec.setWidth_eq]

theorem ghash_nil (h : Bytes) : ghash h [] = zeros 16 := by
  rw [ghash, chunks_nil, List.foldl_nil]
  decide

/-- One more block is added and multiplied by `H`. -/
theorem ghash_append_block (h : Bytes) {u b : Bytes} (hu : u.length % 16 = 0) (hb : b.length = 16) :
    ghash h (u ++ b) = toBE 16 (gf128mul (blockNum (ghash h u) ^^^ blockNum b) (blockNum h)).toNat := by
  have hne : b ≠ [] := by rintro rfl; simp at hb
  rw [ghash, chunks_append_of_mod_eq_zero (by omega) hu, chunks_of_le (by omega) hne hb.le, List.foldl_concat, ghash,
    blockNum_toBE]

/-! ## The checks of both commands (R259, R260) -/

/-- Both commands make their six checks in order; DATALEN is the last, and its condition the only difference. -/
theorem exec_gcm_eq_runCommand {nrf : Nat} {i : Instr} (hi : i ∈ [Instr.gcmEnc nrf, .gcmDec nrf]) (s : State) :
    ∃ (fails : Bool) (effect : Host.Outcome State Fault Refusal),
      exec i s = runCommand i (gcmChecks nrf s ++ [(fails, .datalen)]) effect s ∧
      (fails = true ↔ i = .gcmEnc nrf ∧ s.params.dataMax < s.dinlen.toNat ∨
        i = .gcmDec nrf ∧ (s.dinlen.toNat < 16 ∨ s.params.dataMax + 16 < s.dinlen.toNat)) := by
  simp only [List.mem_cons, List.not_mem_nil, or_false] at hi
  rcases hi with rfl | rfl
  · exact ⟨_, _, rfl, by simp⟩
  · exact ⟨_, _, rfl, by simp⟩

/-- Settles O30: the checks of the schedule come first, then those of the three lengths. -/
theorem gcmCommandsCheckInOrder : Obligations.GcmCommandsCheckInOrder := by
  intro nrf s i hi
  obtain ⟨fails, effect, he, hfails⟩ := exec_gcm_eq_runCommand hi s
  have hloaded : nrf ∈ [10, 12, 14] → s.rkv = true → s.nr.toNat = nrf →
      firstFailing (gcmChecks nrf s ++ [(fails, .datalen)]) =
        firstFailing [ivlenCheck 12 s, aadlenCheck s, (fails, .datalen)] :=
    fun hn hv hr => firstFailing_of_schedule_loaded hn hv hr _
  rw [he, ← hfails]
  refine ⟨fun hn => runCommand_of_fail (firstFailing_of_nrf_not_mem hn _) _ _,
    fun hn hv => runCommand_of_fail (firstFailing_of_rkv_eq_false hn hv _) _ _,
    fun hn hv hr => runCommand_of_fail (firstFailing_of_nr_ne hn hv hr _) _ _,
    fun hn hv hr hiv => runCommand_of_fail ((hloaded hn hv hr).trans ?_) _ _,
    fun hn hv hr hiv haad => runCommand_of_fail ((hloaded hn hv hr).trans ?_) _ _,
    fun hn hv hr hiv haad hd => runCommand_of_fail ((hloaded hn hv hr).trans ?_) _ _⟩
  · simp [ivlenCheck, hiv]
  · simp [ivlenCheck, aadlenCheck, hiv, haad]
  · simp [ivlenCheck, aadlenCheck, hiv, haad, hd]

/-- The checks before DATALEN pass exactly when a schedule of `nrf` rounds is loaded and both lengths are right. -/
theorem gcmChecks_pass_iff (nrf : Nat) (s : State) : (∀ c ∈ gcmChecks nrf s, c.1 = false) ↔
    nrf ∈ [10, 12, 14] ∧ s.rkv = true ∧ s.nr.toNat = nrf ∧ s.ivlen.toNat = 12 ∧ s.aadlen.toNat ≤ s.params.aadMax := by
  simp [gcmChecks, roundsLegalCheck, rkvCheck, roundsMatchCheck, ivlenCheck, aadlenCheck, ← or_iff_not_imp_left,
    eq_comm (a := nrf) (b := s.nr.toNat)]

/-! ## The effects -/

/-- What a GCM command reads: the round keys, the nonce, the associated data and the data (R112). -/
structure GcmReads (nrf : Nat) (s : State) (keys : List Bytes) (iv a d : Bytes) : Prop where
  keys : s.roundKeysOperand nrf = .ok keys
  iv : s.ivOperand = .ok iv
  aad : s.aadOperand = .ok a
  din : s.dinOperand = .ok d

section
variable {nrf : Nat} {s t : State} {keys : List Bytes} {iv a d : Bytes}

/-- Operands held are read as they are. -/
theorem GcmReads.of_holds (hkeys : s.holdsKeys nrf keys) (hivl : iv.length = s.ivlen.toNat) (hiv : s.holds .iv iv)
    (hal : a.length = s.aadlen.toNat) (ha : s.holds .aad a) (hdl : d.length = s.dinlen.toNat) (hd : s.holds .din d) :
    GcmReads nrf s keys iv a d :=
  ⟨roundKeysOperand_of_holds hkeys, bufRead_of_holds hiv hivl, bufRead_of_holds ha hal, bufRead_of_holds hd hdl⟩

theorem GcmReads.keys_length (h : GcmReads nrf s keys iv a d) : (∀ k ∈ keys, k.length = 16) ∧ nrf < keys.length := by
  obtain ⟨hcount, hlen⟩ := roundKeysFrom_ok h.keys
  exact ⟨hlen, by omega⟩

theorem GcmReads.din_length (h : GcmReads nrf s keys iv a d) : d.length = s.dinlen.toNat := bufRead_length h.din

theorem GcmReads.din_read (h : GcmReads nrf s keys iv a d) {i : Nat} (hi : i < s.dinlen.toNat) :
    s.din.read i = d[i]? := by
  obtain ⟨-, hcells⟩ := bufRead_ok.1 h.din
  simpa using hcells i hi

/-- The checks GCM_ENC makes pass when its rule's conditions hold (R259). -/
theorem gcmEncChecks_pass (hp : checksPass (.gcmEnc nrf) s) :
    ∀ c ∈ gcmChecks nrf s ++ [dinlenMaxCheck 0 s], c.1 = false := by
  obtain ⟨hn, hv, hr, hiv, haad, hd⟩ := hp
  exact List.forall_mem_append.2 ⟨(gcmChecks_pass_iff nrf s).2 ⟨hn, hv, hr, hiv, haad⟩, by simp [dinlenMaxCheck, hd]⟩

/-- So do GCM_DEC's (R260). -/
theorem gcmDecChecks_pass (hp : checksPass (.gcmDec nrf) s) :
    ∀ c ∈ gcmChecks nrf s ++ [dinlenTaggedCheck s], c.1 = false := by
  obtain ⟨hn, hv, hr, hiv, haad, hmin, hmax⟩ := hp
  exact List.forall_mem_append.2 ⟨(gcmChecks_pass_iff nrf s).2 ⟨hn, hv, hr, hiv, haad⟩,
    by simp [dinlenTaggedCheck, hmin, hmax]⟩

/-- GCM_ENC writes the sealed data (R259). -/
theorem exec_gcmEnc_of_reads (hp : checksPass (.gcmEnc nrf) s) (h : GcmReads nrf s keys iv a d) :
    exec (.gcmEnc nrf) s = .next (finishWith
      (gctr keys nrf (gcmJ0 iv) d ++ gcmTag keys nrf iv a (gctr keys nrf (gcmJ0 iv) d)) false s) := by
  rw [exec, execGcmEnc, runCommand_of_pass (gcmEncChecks_pass hp), h.keys, h.iv, h.aad, h.din]
  rfl

/-- GCM_DEC opens the ciphertext if its tag compares equal, and reports a tag that does not (R260). -/
theorem exec_gcmDec_of_reads {c tag : Bytes} (hp : checksPass (.gcmDec nrf) s) (h : GcmReads nrf s keys iv a (c ++ tag))
    (htag : tag.length = 16) :
    exec (.gcmDec nrf) s = .next (if tagEqual s.params.tagCompare (gcmTag keys nrf iv a c) tag
      then finishWith (gctr keys nrf (gcmJ0 iv) c) false s else raise (encode (.gcmDec nrf)) .tag s) := by
  have hc : (c ++ tag).length - 16 = c.length := by rw [List.length_append, htag, Nat.add_sub_cancel]
  rw [exec, execGcmDec, runCommand_of_pass (gcmDecChecks_pass hp), h.keys, h.iv, h.aad, h.din]
  simp only [reading_ok, hc, List.take_left, List.drop_left, gcmOpen]
  split_ifs <;> rfl

/-! ## Decryption undoes encryption (R257, 70_reset R588) -/

/-- Only a command whose checks pass ends without an error. -/
theorem checksPass_of_exec_ok {i : Instr} (h : exec i s = .next t) (hok : t.err = .ok) : checksPass i s := by
  rcases exec_ends i s with ⟨r, -, -, -, he⟩ | ⟨hp, -⟩ | ⟨_, hp, -⟩
  · rw [he] at h
    cases h
    exact absurd hok r.errClass_ne_ok
  · exact hp
  · exact hp

/-- A GCM_ENC whose checks pass goes on only if it has read its operands. -/
theorem gcmReads_of_exec_next (hp : checksPass (.gcmEnc nrf) s) (h : exec (.gcmEnc nrf) s = .next t) :
    ∃ keys iv a p, GcmReads nrf s keys iv a p := by
  rw [exec, execGcmEnc, runCommand_of_pass (gcmEncChecks_pass hp)] at h
  obtain ⟨keys, hkeys, h⟩ := reading_next h
  obtain ⟨iv, hiv, h⟩ := reading_next h
  obtain ⟨a, ha, h⟩ := reading_next h
  obtain ⟨p, hp, -⟩ := reading_next h
  exact ⟨keys, iv, a, p, hkeys, hiv, ha, hp⟩

/-- A write from cell 0 is read back below its length. -/
theorem Memory.read_write_zero_of_lt (m : Memory) {x : Bytes} {j : Nat} (h : j < x.length) :
    (m.write 0 x).read j = x[j]? := by
  simpa using m.read_write_of_mem 0 x j h

/-- The state with `DOUT[0..DOUTLEN)` copied to DIN, the rest of DOUT with it. -/
def State.outputToInput (s : State) : State := { s with din := s.dout, dinlen := s.doutlen }

theorem doutlenWord_toNat {n : Nat} (h : n < 2 ^ 32) : (doutlenWord n).toNat = n := by
  rw [doutlenWord, if_pos h, BitVec.toNat_ofNat, Nat.mod_eq_of_lt h]

/-- After an output is copied to DIN a GCM command reads it there, and the other operands as before. -/
theorem GcmReads.outputToInput (h : GcmReads nrf s keys iv a d) {out : Bytes} (hl : out.length < 2 ^ 32) (p : Bool) :
    GcmReads nrf (finishWith out p s).outputToInput keys iv a out where
  keys := (roundKeysFrom_congr (s := (finishWith out p s).outputToInput) (t := s) rfl 0 (nrf + 1)).trans h.keys
  iv := h.iv
  aad := h.aad
  din := bufRead_of_holds (fun _ => s.dout.read_write_zero_of_lt) (doutlenWord_toNat hl).symm

/-- If GCM_ENC's checks pass, so do GCM_DEC's on an output 16 bytes longer than its data. -/
theorem checksPass_outputToInput (hp : checksPass (.gcmEnc nrf) s) {out : Bytes}
    (hout : out.length = s.dinlen.toNat + 16) (hlt : s.dinlen.toNat + 16 < 2 ^ 32) (p : Bool) :
    checksPass (.gcmDec nrf) (finishWith out p s).outputToInput := by
  obtain ⟨hn, hv, hr, hiv, haad, hd⟩ := hp
  have hdin : (finishWith out p s).outputToInput.dinlen.toNat = s.dinlen.toNat + 16 :=
    (doutlenWord_toNat (hout ▸ hlt)).trans hout
  exact ⟨hn, hv, hr, hiv, haad, by omega, hdin ▸ Nat.add_le_add_right hd 16⟩

end

/-! ## The obligations -/

/-- Settles O31: the sealed data is ciphertext and tag, 16 bytes longer than the plaintext; counter mode and GHASH as
above. -/
theorem gcmEncWritesCiphertextAndTag : Obligations.GcmEncWritesCiphertextAndTag := by
  refine ⟨?_, fun keys nr j0 d hcount hk => ?_, fun h => ⟨ghash_nil h, fun u b => ghash_append_block h⟩⟩
  · rintro nrf s keys iv a p _ c _ hn hv hr hivlen haad hdin hkeys hivl hiv hal ha hpl hp rfl hc rfl
    have hreads : GcmReads nrf s keys iv a p := .of_holds hkeys (hivl.trans hivlen.symm) hiv hal ha hpl hp
    obtain ⟨hk, hlt⟩ := hreads.keys_length
    have hlen : (c ++ gcmTag keys nrf iv a c).length = p.length + 16 := by
      rw [List.length_append, gcmTag_length hk hlt, hc, gctr_length hk hlt]
    rw [exec_gcmEnc_of_reads ⟨hn, hv, hr, hivlen, haad, hdin⟩ hreads, gcmJ0, ← hc, finishWith, hlen]
    rfl
  · have hlt : nr < keys.length := by omega
    exact ⟨gctr_length hk hlt j0 d, fun i => gctr_getElem? hk hlt j0 d⟩

/-- Settles O32: the comparison of the received tag decides between the success write and the failure write. -/
theorem gcmDecOpensOnlyUnderTheTag : Obligations.GcmDecOpensOnlyUnderTheTag := by
  rintro nrf s keys iv a c t _ tag hn hv hr hivlen haad hdin hkeys hivl hiv hal ha htl hcl hct rfl htag
  have hreads : GcmReads nrf s keys iv a (c ++ t) :=
    .of_holds hkeys (hivl.trans hivlen.symm) hiv hal ha (by rw [List.length_append, htl, hcl]) hct
  obtain ⟨hk, hlt⟩ := hreads.keys_length
  have htag : gcmTag keys nrf iv a c = tag := htag.symm
  rw [exec_gcmDec_of_reads ⟨hn, hv, hr, hivlen, haad, by omega, hdin⟩ hreads htl, htag]
  refine ⟨fun heq => ?_, fun hne => ?_⟩
  · have hfit : c.length < 2 ^ 32 := by omega
    rw [if_pos heq, finishWith, gctr_length hk hlt, finish, doutlenWord, if_pos hfit]
    rfl
  · rw [if_neg (by simp [hne])]

/-- Settles O46: GCM_DEC computes the tag it reads from the same operands, and counter mode undoes itself. -/
theorem gcmDecInvertsGcmEnc : Obligations.GcmDecInvertsGcmEnc := by
  intro nrf s t hlen h hok
  have hp := checksPass_of_exec_ok h hok
  obtain ⟨keys, iv, a, p, hreads⟩ := gcmReads_of_exec_next hp h
  obtain ⟨hk, hlt⟩ := hreads.keys_length
  have hpl := hreads.din_length
  rw [exec_gcmEnc_of_reads hp hreads] at h
  generalize hc : gctr keys nrf (gcmJ0 iv) p = c at h
  have hcp : gctr keys nrf (gcmJ0 iv) c = p := by rw [← hc, gctr_gctr hk hlt]
  have hcl : c.length = s.dinlen.toNat := by rw [← hc, gctr_length hk hlt, hpl]
  have htag := gcmTag_length hk hlt iv a c
  have hout : (c ++ gcmTag keys nrf iv a c).length = s.dinlen.toNat + 16 := by rw [List.length_append, hcl, htag]
  cases h
  have hdec := exec_gcmDec_of_reads (checksPass_outputToInput hp hout hlen false)
    (hreads.outputToInput (hout ▸ hlen) false) htag
  refine ⟨_, hdec.trans (congrArg _ (if_pos (tagEqual_self _ _))), rfl, ?_, ?_⟩
  · apply BitVec.eq_of_toNat_eq
    rw [hcp, finishWith_doutlen, doutlenWord_toNat (by omega), hpl]
  · intro i hi
    rw [hcp, finishWith_dout, hreads.din_read hi]
    exact Memory.read_write_zero_of_lt _ (by omega)

end Sys2Proof.Machine
end

section
/-! PROOFS. ChaCha20: the rounds, the words of a block, the keystream byte by byte, CHACHA20_BLOCK and CHACHA20_XOR
(43_chacha20 R301 to R307). -/
namespace Sys2Proof.Machine

/-! ## The rounds (R301, R303) -/

/-- A quarter round on four different words of the state replaces these and no other. -/
theorem qrOn_getElem? {x : List Word} {i j k l : Nat} {a b c d : Word} (hdiff : [i, j, k, l].Nodup)
    (hin : ∀ m ∈ [i, j, k, l], m < x.length)
    (h : quarterRound (x.getD i 0) (x.getD j 0) (x.getD k 0) (x.getD l 0) = (a, b, c, d)) :
    (qrOn i j k l x)[i]? = some a ∧ (qrOn i j k l x)[j]? = some b ∧ (qrOn i j k l x)[k]? = some c ∧
      (qrOn i j k l x)[l]? = some d ∧ ∀ m, m ∉ [i, j, k, l] → (qrOn i j k l x)[m]? = x[m]? := by
  have hset : qrOn i j k l x = (((x.set i a).set j b).set k c).set l d := by rw [qrOn, h]
  rw [hset]
  simp only [List.nodup_cons, List.mem_cons, List.not_mem_nil, or_false, not_or] at hdiff ⊢
  obtain ⟨⟨hij, hik, hil⟩, ⟨hjk, hjl⟩, hkl, -⟩ := hdiff
  have hi : i < x.length := hin i (by simp)
  have hj : j < x.length := hin j (by simp)
  have hk : k < x.length := hin k (by simp)
  have hl : l < x.length := hin l (by simp)
  refine ⟨?_, ?_, ?_, ?_, fun m ⟨hmi, hmj, hmk, hml⟩ => ?_⟩
  · simp [hi, Ne.symm hij, Ne.symm hik, Ne.symm hil]
  · simp [hj, Ne.symm hjk, Ne.symm hjl]
  · simp [hk, Ne.symm hkl]
  · simp [hl]
  · simp [Ne.symm hmi, Ne.symm hmj, Ne.symm hmk, Ne.symm hml]

/-- A double round is the four column rounds and the four diagonal rounds, in order (R303). -/
theorem doubleRound_eq_foldl (x : List Word) : doubleRound x =
    [(0, 4, 8, 12), (1, 5, 9, 13), (2, 6, 10, 14), (3, 7, 11, 15),
      (0, 5, 10, 15), (1, 6, 11, 12), (2, 7, 8, 13), (3, 4, 9, 14)].foldl (fun y (i, j, k, l) => qrOn i j k l y) x := by
  simp only [doubleRound, List.foldl_cons, List.foldl_nil]

theorem doubleRounds_eq_iterate (n : Nat) (x : List Word) : doubleRounds n x = doubleRound^[n] x := by
  induction n generalizing x with
  | zero => rfl
  | succ n ih => exact ih _

/-! ## The words of a block (R302, R304) -/

/-- Word `i` of a whole number of words is the number of bytes `4i` to `4i + 3`. -/
theorem leWords_eq_map {b : Bytes} {n : Nat} (h : b.length = 4 * n) :
    leWords b = (List.range n).map fun i => BitVec.ofNat 32 (le (slice b (4 * i) (4 * i + 4))) := by
  have hlen : (leWords b).length = n := by rw [leWords_length]; omega
  refine List.ext_getElem? fun i => ?_
  by_cases hi : i < n
  · rw [leWords, List.getElem?_map, chunks_getElem? (by omega) b (by omega), List.getElem?_map, List.getElem?_range hi]
    rfl
  · rw [List.getElem?_eq_none (by omega), List.getElem?_eq_none (by simpa using hi)]

/-- The initial words: four constants, the key's eight, the counter, the nonce's three. -/
theorem chachaInit_eq {k nonce : Bytes} (hk : k.length = 32) (hn : nonce.length = 12) (n : Word) :
    chachaInit k n nonce = [0x61707865, 0x3320646e, 0x79622d32, 0x6b206574] ++
      (List.range 8).map (fun i => BitVec.ofNat 32 (le (slice k (4 * i) (4 * i + 4)))) ++ [n] ++
      (List.range 3).map (fun i => BitVec.ofNat 32 (le (slice nonce (4 * i) (4 * i + 4)))) := by
  rw [chachaInit, leWords_eq_map (n := 8) hk, leWords_eq_map (n := 3) hn]
  rfl

/-- Bytes `4i` to `4i + 3` of words written out are those of word `i`. -/
theorem slice_flatMap_toLE {x : List Word} {i : Nat} (hi : i < x.length) :
    slice (x.flatMap fun w => toLE 4 w.toNat) (4 * i) (4 * i + 4) = toLE 4 (x.getD i 0).toNat := by
  induction x generalizing i with
  | nil => simp at hi
  | cons w x ih =>
    have hw : (toLE 4 w.toNat).length = 4 := toLE_length _ _
    rw [List.flatMap_cons, slice, Nat.add_sub_cancel_left]
    cases i with
    | zero => exact List.take_left' hw
    | succ i =>
      rw [List.getD_cons_succ, ← ih (by simpa using hi), slice, Nat.add_sub_cancel_left, Nat.mul_succ, Nat.add_comm,
        ← List.drop_drop, List.drop_left' hw]

/-- Word `i` of a block: word `i` after ten double rounds, plus initial word `i` (R304). -/
theorem chachaBlock_word {k nonce : Bytes} (hk : k.length = 32) (hn : nonce.length = 12) (n : Word) {i : Nat}
    (hi : i < 16) :
    slice (chachaBlock k n nonce) (4 * i) (4 * i + 4) =
      toLE 4 ((doubleRound^[10] (chachaInit k n nonce)).getD i 0 + (chachaInit k n nonce).getD i 0).toNat := by
  have hinit := chachaInit_length hk hn n
  have hend : (doubleRounds 10 (chachaInit k n nonce)).length = 16 := by rw [doubleRounds_length, hinit]
  rw [← doubleRounds_eq_iterate, chachaBlock, slice_flatMap_toLE (by rw [List.length_zipWith]; omega)]
  simp [hend, hinit, hi]

/-! ## The keystream (R305) -/

/-- The first 64 bytes are XORed with the block at the counter, and the rest goes on from the next counter. -/
theorem chachaXor_of_ne_nil {d : Bytes} (hd : d ≠ []) (k : Bytes) (n : Word) (nonce : Bytes) :
    chachaXor k n nonce d =
      xorBytes (d.take 64) (chachaBlock k n nonce) ++ chachaXor k (n + 1) nonce (d.drop 64) := by
  rw [chachaXor, chunks_of_ne_nil (by omega) hd, chachaXorLoop, chachaXor]

section
variable {k nonce : Bytes} (hk : k.length = 32) (hn : nonce.length = 12)
include hk hn

/-- Byte `i` of the output, in the block at counter `n + i / 64`. -/
theorem chachaXor_getElem? (n : Word) {d : Bytes} {i : Nat} (hi : i < d.length) :
    (chachaXor k n nonce d)[i]? =
      some (d.getD i 0 ^^^ (chachaBlock k (n + BitVec.ofNat 32 (i / 64)) nonce).getD (i % 64) 0) := by
  have hblock : ∀ n, (chachaBlock k n nonce).length = 64 := chachaBlock_length hk hn
  induction i using Nat.strong_induction_on generalizing n d with
  | _ i ih =>
    have hpiece : (xorBytes (d.take 64) (chachaBlock k n nonce)).length = min 64 d.length := by simp [hblock]
    rw [chachaXor_of_ne_nil (List.ne_nil_of_length_pos (by omega))]
    by_cases hlt : i < 64
    · have htake : (d.take 64).getD i 0 = d.getD i 0 := by simp [hlt]
      rw [List.getElem?_append_left (by omega), Nat.div_eq_of_lt hlt, Nat.mod_eq_of_lt hlt,
        xorBytes_getElem? _ _ _ (by rw [List.length_take]; omega) (by rwa [hblock]), htake, BitVec.ofNat_eq_ofNat,
        BitVec.add_zero]
    · obtain ⟨j, rfl⟩ : ∃ j, i = 64 + j := ⟨i - 64, by omega⟩
      have hdrop : (d.drop 64).getD j 0 = d.getD (64 + j) 0 := by simp
      have hcounter : n + 1 + BitVec.ofNat 32 (j / 64) = n + BitVec.ofNat 32 ((64 + j) / 64) := by
        rw [Nat.add_div_left _ (by omega), Nat.add_comm (j / 64), BitVec.ofNat_add, BitVec.add_assoc]
        rfl
      rw [List.getElem?_append_right (by omega), hpiece, Nat.min_eq_left (by omega), Nat.add_sub_cancel_left,
        ih j (by omega) (n + 1) (by rw [List.length_drop]; omega), hdrop, hcounter, Nat.add_mod_left]

/-- The keystream undoes itself: each byte is XORed with the same keystream byte twice. -/
theorem chachaXor_chachaXor (n : Word) (d : Bytes) : chachaXor k n nonce (chachaXor k n nonce d) = d := by
  have hlen : ∀ d, (chachaXor k n nonce d).length = d.length := chachaXor_length hk hn n
  refine List.ext_getElem?' fun i hi => ?_
  rw [hlen, hlen, max_self] at hi
  rw [chachaXor_getElem? hk hn n (by rwa [hlen]), List.getD_eq_getElem?_getD, chachaXor_getElem? hk hn n hi,
    Option.getD_some, BitVec.xor_assoc, BitVec.xor_self, BitVec.xor_zero, List.getD_eq_getElem _ _ hi,
    List.getElem?_eq_getElem hi]

end

/-- Settles O55: the first 64 bytes take the block at the counter, the rest goes on from the next; a byte XORed twice with
the same keystream byte is itself. -/
theorem chachaXorUsesOneBlockPer64Bytes : Obligations.ChachaXorUsesOneBlockPer64Bytes :=
  fun _ _ d n0 hk hn =>
    ⟨chachaXor_length hk hn n0 d, fun _ => chachaXor_getElem? hk hn n0, chachaXor_chachaXor hk hn n0 d⟩

/-! ## The commands (R306, R307) -/

section
variable {s : State} {k n : Bytes}

theorem firstFailing_of_klen_ne (hk : s.klen.toNat ≠ 32) (rest : List (Bool × Reason)) :
    firstFailing (keylenCheck [32] s :: rest) = some .keylen := by simp [keylenCheck, hk]

theorem firstFailing_of_ivlen_ne (hk : s.klen.toNat = 32) (hiv : s.ivlen.toNat ≠ 12) (rest : List (Bool × Reason)) :
    firstFailing (keylenCheck [32] s :: ivlenCheck 12 s :: rest) = some .ivlen := by
  simp [keylenCheck, ivlenCheck, hk, hiv]

theorem exec_chacha20Block_of_holds (hkl : s.klen.toNat = 32) (hivl : s.ivlen.toNat = 12) (hk : k.length = 32)
    (hkey : s.holds .key k) (hn : n.length = 12) (hiv : s.holds .iv n) :
    exec .chacha20Block s = .next { s with
      dout := s.dout.write 0 (chachaBlock k s.ctr n), err := .ok, padok := false, errinfo := 0, doutlen := 64 } := by
  have hkread : s.keyOperand = .ok k := bufRead_of_holds hkey (hk.trans hkl.symm)
  have hnread : s.ivOperand = .ok n := bufRead_of_holds hiv (hn.trans hivl.symm)
  rw [exec, execChacha20Block, runCommand_of_pass (by simp [keylenCheck, ivlenCheck, hkl, hivl]), hkread, hnread,
    reading_ok, reading_ok, finishWith, chachaBlock_length hk hn]
  rfl

theorem exec_chacha20Xor_of_dinlen_gt (hkl : s.klen.toNat = 32) (hivl : s.ivlen.toNat = 12)
    (hd : s.params.dataMax < s.dinlen.toNat) :
    exec .chacha20Xor s = .next (raise (encode .chacha20Xor) .datalen s) :=
  runCommand_of_fail (by simp [keylenCheck, ivlenCheck, dinlenMaxCheck, hkl, hivl, hd]) _ _

theorem exec_chacha20Xor_of_holds {d : Bytes} (hkl : s.klen.toNat = 32) (hivl : s.ivlen.toNat = 12)
    (hmax : s.dinlen.toNat ≤ s.params.dataMax) (hk : k.length = 32) (hkey : s.holds .key k) (hn : n.length = 12)
    (hiv : s.holds .iv n) (hd : d.length = s.dinlen.toNat) (hdin : s.holds .din d) :
    exec .chacha20Xor s = .next { s with
      dout := s.dout.write 0 (chachaXor k s.ctr n d), err := .ok, padok := false, errinfo := 0,
      doutlen := s.dinlen } := by
  have hkread : s.keyOperand = .ok k := bufRead_of_holds hkey (hk.trans hkl.symm)
  have hnread : s.ivOperand = .ok n := bufRead_of_holds hiv (hn.trans hivl.symm)
  have hdread : s.dinOperand = .ok d := bufRead_of_holds hdin hd
  have hlen : doutlenWord s.dinlen.toNat = s.dinlen :=
    BitVec.eq_of_toNat_eq (doutlenWord_toNat s.dinlen.isLt)
  rw [exec, execChacha20Xor, runCommand_of_pass (by simp [keylenCheck, ivlenCheck, dinlenMaxCheck, hkl, hivl, hmax]),
    hkread, hnread, hdread, reading_ok, reading_ok, reading_ok, finishWith, chachaXor_length hk hn, hd, finish, hlen]
  rfl

end

/-- Settles O33: the first check that fails is the one reported; past both, the block is written. The quarter round and
the double round are their rules' own lines; the words of a block are as above. -/
theorem chacha20BlockWritesOneKeystreamBlock : Obligations.Chacha20BlockWritesOneKeystreamBlock := by
  refine ⟨fun s => ⟨fun hk => runCommand_of_fail (firstFailing_of_klen_ne hk _) _ _,
      fun hk hiv => runCommand_of_fail (firstFailing_of_ivlen_ne hk hiv _) _ _, fun _ _ => exec_chacha20Block_of_holds⟩,
    ?_, fun _ _ _ _ _ _ _ _ _ => qrOn_getElem?, doubleRound_eq_foldl, ?_⟩
  · rintro a b c d _ _ _ _ _ _ _ _ rfl rfl rfl rfl rfl rfl rfl rfl
    rfl
  · rintro k nonce n _ hk hn rfl
    rw [← chachaInit_eq hk hn]
    exact ⟨chachaBlock_length hk hn n, fun _ => chachaBlock_word hk hn n⟩

/-- Settles O34: the first check that fails is the one reported; past all three, the operands read are those held, and
the output has the input's length. -/
theorem chacha20XorEncryptsFromCtr : Obligations.Chacha20XorEncryptsFromCtr := fun _ =>
  ⟨fun hk => runCommand_of_fail (firstFailing_of_klen_ne hk _) _ _,
    fun hk hiv => runCommand_of_fail (firstFailing_of_ivlen_ne hk hiv _) _ _,
    exec_chacha20Xor_of_dinlen_gt, fun _ _ _ => exec_chacha20Xor_of_holds⟩

end Sys2Proof.Machine
end

section
/-! PROOFS. Poly1305 as a polynomial, POLY1305_MAC, and the two commands of the ChaCha20-Poly1305 AEAD
(44_poly1305_aead R350 to R358). -/
namespace Sys2Proof.Machine

/-! ## The message polynomial (R351, R352) -/

theorem le_append (a b : Bytes) : le (a ++ b) = le a + 256 ^ a.length * le b := by
  induction a with
  | nil => simp [le]
  | cons x a ih => rw [List.cons_append, le, le, ih, List.length_cons, Nat.pow_succ]; ring

/-- A piece's number has the marker's bit above its bytes (R351). -/
theorem polyBlock_eq (m : Bytes) : polyBlock m = le m + 2 ^ (8 * m.length) := by
  have hmarker : le ([1] : Bytes) = 1 := rfl
  rw [polyBlock, le_append, hmarker, Nat.mul_one, Nat.pow_mul]

/-- Adding each number and multiplying by `r`, mod `p`, evaluates a polynomial: number `j` of `q` ends with the power
`q - j`. -/
theorem foldl_add_mul_mod {α : Type} (f : α → Nat) (r p : Nat) (d : α) (l : List α) :
    l.foldl (fun acc a => (acc + f a) * r % p) 0 =
      ((List.range l.length).map fun j => f (l.getD j d) * r ^ (l.length - j)).sum % p := by
  induction l using List.reverseRecOn with
  | nil => rfl
  | append_singleton l a ih =>
    have hearlier : ∀ j ∈ List.range l.length, f ((l ++ [a]).getD j d) * r ^ (l.length + 1 - j) =
        f (l.getD j d) * r ^ (l.length - j) * r := by
      intro j hj
      have hlt : j < l.length := List.mem_range.1 hj
      rw [List.getD_append _ _ _ _ hlt, Nat.succ_sub hlt.le, Nat.pow_succ, Nat.mul_assoc]
    have hlast : f ((l ++ [a]).getD l.length d) * r ^ (l.length + 1 - l.length) = f a * r := by simp
    rw [List.foldl_concat, ih, List.length_append, List.length_singleton, List.range_succ, List.map_append,
      List.sum_append, List.map_congr_left hearlier, List.sum_map_mul_right, List.map_singleton, List.sum_singleton,
      hlast, ← Nat.add_mul, Nat.mul_mod, Nat.mod_add_mod, ← Nat.mul_mod]

/-- Settles O56: the accumulator evaluates the polynomial of the pieces' numbers at the clamped `r`. -/
theorem poly1305EvaluatesTheMessagePolynomial : Obligations.Poly1305EvaluatesTheMessagePolynomial := by
  rintro otk m _ rfl
  simp only [← polyBlock_eq]
  exact congrArg (fun acc => toLE 16 ((acc + polyS otk) % 2 ^ 128))
    (foldl_add_mul_mod polyBlock (polyR otk) polyP [] (chunks 16 m))

/-! ## POLY1305_MAC (R356) -/

section
variable {s : State} {k m : Bytes}

theorem exec_poly1305Mac_of_dinlen_gt (hkl : s.klen.toNat = 32) (hd : s.params.dataMax < s.dinlen.toNat) :
    exec .poly1305Mac s = .next (raise (encode .poly1305Mac) .datalen s) :=
  runCommand_of_fail (by simp [keylenCheck, dinlenMaxCheck, hkl, hd]) _ _

theorem exec_poly1305Mac_of_holds (hkl : s.klen.toNat = 32) (hmax : s.dinlen.toNat ≤ s.params.dataMax)
    (hk : k.length = 32) (hkey : s.holds .key k) (hm : m.length = s.dinlen.toNat) (hdin : s.holds .din m) :
    exec .poly1305Mac s = .next { s with
      dout := s.dout.write 0 (poly1305 k m), err := .ok, padok := false, errinfo := 0, doutlen := 16 } := by
  have hkread : s.keyOperand = .ok k := bufRead_of_holds hkey (hk.trans hkl.symm)
  have hdread : s.dinOperand = .ok m := bufRead_of_holds hdin hm
  rw [exec, execPoly1305Mac, runCommand_of_pass (by simp [keylenCheck, dinlenMaxCheck, hkl, hmax]), hkread, hdread,
    reading_ok, reading_ok, finishWith, poly1305_length]
  rfl

end

/-- Settles O35: the first check that fails is the one reported, and no check looks at IVLEN; a tag has 16 bytes. -/
theorem poly1305MacWritesTheTag : Obligations.Poly1305MacWritesTheTag := fun _ =>
  ⟨fun hk => runCommand_of_fail (firstFailing_of_klen_ne hk _) _ _, exec_poly1305Mac_of_dinlen_gt,
    fun _ _ => exec_poly1305Mac_of_holds⟩

/-! ## The checks of both AEAD commands (R357, R358) -/

/-- Both commands make their four checks in order; DATALEN is the last, and its condition the only difference. -/
theorem exec_aead_eq_runCommand {i : Instr} (hi : i ∈ [Instr.c20pEnc, .c20pDec]) (s : State) :
    ∃ (fails : Bool) (effect : Host.Outcome State Fault Refusal),
      exec i s = runCommand i (aeadChecks s ++ [(fails, .datalen)]) effect s ∧
      (fails = true ↔ i = .c20pEnc ∧ s.params.dataMax < s.dinlen.toNat ∨
        i = .c20pDec ∧ (s.dinlen.toNat < 16 ∨ s.params.dataMax + 16 < s.dinlen.toNat)) := by
  simp only [List.mem_cons, List.not_mem_nil, or_false] at hi
  rcases hi with rfl | rfl
  · exact ⟨_, _, rfl, by simp⟩
  · exact ⟨_, _, rfl, by simp⟩

/-- The checks before DATALEN pass exactly when the three lengths are right. -/
theorem aeadChecks_pass_iff (s : State) : (∀ c ∈ aeadChecks s, c.1 = false) ↔
    s.klen.toNat = 32 ∧ s.ivlen.toNat = 12 ∧ s.aadlen.toNat ≤ s.params.aadMax := by
  simp [aeadChecks, keylenCheck, ivlenCheck, aadlenCheck]

/-- Settles O36: a check is reached when those before it pass. -/
theorem aeadCommandsCheckInOrder : Obligations.AeadCommandsCheckInOrder := by
  intro s i hi
  obtain ⟨fails, effect, he, hfails⟩ := exec_aead_eq_runCommand hi s
  rw [he, ← hfails]
  refine ⟨fun hk => runCommand_of_fail (firstFailing_of_klen_ne hk _) _ _,
    fun hk hiv => runCommand_of_fail (firstFailing_of_ivlen_ne hk hiv _) _ _,
    fun hk hiv haad => runCommand_of_fail ?_ _ _, fun hk hiv haad hd => runCommand_of_fail ?_ _ _⟩
  · simp [aeadChecks, keylenCheck, ivlenCheck, aadlenCheck, hk, hiv, haad]
  · simp [aeadChecks, keylenCheck, ivlenCheck, aadlenCheck, hk, hiv, haad, hd]

/-! ## The tag and opening (R353 to R355) -/

/-- The one-time key is the first 32 bytes of block 0; the message is both strings padded, then their lengths. -/
theorem aeadTag_eq (k n a c : Bytes) : aeadTag k n a c = poly1305 ((chachaBlock k 0 n).take 32)
    (pad16 a ++ pad16 c ++ toLE 8 a.length ++ toLE 8 c.length) := by
  rw [aeadTag, oneTimeKey, slice, List.drop_zero, aeadMacData]

/-- A received tag opens the ciphertext exactly when it is the recomputed one. -/
theorem aeadOpen_eq {t : Bytes} (ht : t.length = 16) (k n a c : Bytes) :
    aeadOpen k n a c t = if t = aeadTag k n a c then some (chachaXor k 1 n c) else none := by
  have hdiff : orFold (xorBytes (aeadTag k n a c) t) = 0 ↔ t = aeadTag k n a c := by
    rw [orFold_eq_zero, xorBytes_eq_zero_iff (by rw [aeadTag_length, ht]), eq_comm]
  simp only [aeadOpen, hdiff]

/-! ## The effects -/

/-- What an AEAD command reads: the key, the nonce, the associated data and the data (30_encoding R112). -/
structure AeadReads (s : State) (k n a d : Bytes) : Prop where
  key : s.keyOperand = .ok k
  iv : s.ivOperand = .ok n
  aad : s.aadOperand = .ok a
  din : s.dinOperand = .ok d

section
variable {s t : State} {k n a d : Bytes}

/-- Operands held are read as they are. -/
theorem AeadReads.of_holds (hkl : k.length = s.klen.toNat) (hk : s.holds .key k) (hnl : n.length = s.ivlen.toNat)
    (hn : s.holds .iv n) (hal : a.length = s.aadlen.toNat) (ha : s.holds .aad a) (hdl : d.length = s.dinlen.toNat)
    (hd : s.holds .din d) : AeadReads s k n a d :=
  ⟨bufRead_of_holds hk hkl, bufRead_of_holds hn hnl, bufRead_of_holds ha hal, bufRead_of_holds hd hdl⟩

/-- The checks C20P_ENC makes pass when its rule's conditions hold (R357). -/
theorem c20pEncChecks_pass (hp : checksPass .c20pEnc s) : ∀ c ∈ aeadChecks s ++ [dinlenMaxCheck 0 s], c.1 = false := by
  obtain ⟨hk, hiv, haad, hd⟩ := hp
  exact List.forall_mem_append.2 ⟨(aeadChecks_pass_iff s).2 ⟨hk, hiv, haad⟩, by simp [dinlenMaxCheck, hd]⟩

/-- So do C20P_DEC's (R358). -/
theorem c20pDecChecks_pass (hp : checksPass .c20pDec s) : ∀ c ∈ aeadChecks s ++ [dinlenTaggedCheck s], c.1 = false := by
  obtain ⟨hk, hiv, haad, hmin, hmax⟩ := hp
  exact List.forall_mem_append.2 ⟨(aeadChecks_pass_iff s).2 ⟨hk, hiv, haad⟩, by simp [dinlenTaggedCheck, hmin, hmax]⟩

/-- C20P_ENC writes the sealed data (R357). -/
theorem exec_c20pEnc_of_reads (hp : checksPass .c20pEnc s) (h : AeadReads s k n a d) :
    exec .c20pEnc s = .next (finishWith (chachaXor k 1 n d ++ aeadTag k n a (chachaXor k 1 n d)) false s) := by
  rw [exec, execC20pEnc, runCommand_of_pass (c20pEncChecks_pass hp), h.key, h.iv, h.aad, h.din]
  rfl

/-- C20P_DEC opens the ciphertext if its tag is the recomputed one, and reports a tag that is not (R358). -/
theorem exec_c20pDec_of_reads {c tag : Bytes} (hp : checksPass .c20pDec s) (h : AeadReads s k n a (c ++ tag))
    (htag : tag.length = 16) :
    exec .c20pDec s = .next (if tag = aeadTag k n a c
      then finishWith (chachaXor k 1 n c) false s else raise (encode .c20pDec) .tag s) := by
  have hc : (c ++ tag).length - 16 = c.length := by rw [List.length_append, htag, Nat.add_sub_cancel]
  rw [exec, execC20pDec, runCommand_of_pass (c20pDecChecks_pass hp), h.key, h.iv, h.aad, h.din]
  simp only [reading_ok, hc, List.take_left, List.drop_left, aeadOpen_eq htag]
  split_ifs <;> rfl

/-! ## Decryption undoes encryption (R355, 70_reset R588) -/

/-- A C20P_ENC whose checks pass goes on only if it has read its operands. -/
theorem aeadReads_of_exec_next (hp : checksPass .c20pEnc s) (h : exec .c20pEnc s = .next t) :
    ∃ k n a p, AeadReads s k n a p := by
  rw [exec, execC20pEnc, runCommand_of_pass (c20pEncChecks_pass hp)] at h
  obtain ⟨k, hk, h⟩ := reading_next h
  obtain ⟨n, hn, h⟩ := reading_next h
  obtain ⟨a, ha, h⟩ := reading_next h
  obtain ⟨p, hp, -⟩ := reading_next h
  exact ⟨k, n, a, p, hk, hn, ha, hp⟩

/-- After an output is copied to DIN an AEAD command reads it there, and the other operands as before. -/
theorem AeadReads.outputToInput (h : AeadReads s k n a d) {out : Bytes} (hl : out.length < 2 ^ 32) (p : Bool) :
    AeadReads (finishWith out p s).outputToInput k n a out where
  key := h.key
  iv := h.iv
  aad := h.aad
  din := bufRead_of_holds (fun _ => s.dout.read_write_zero_of_lt) (doutlenWord_toNat hl).symm

/-- If C20P_ENC's checks pass, so do C20P_DEC's on an output 16 bytes longer than its data. -/
theorem checksPass_c20pDec_outputToInput (hp : checksPass .c20pEnc s) {out : Bytes}
    (hout : out.length = s.dinlen.toNat + 16) (hlt : s.dinlen.toNat + 16 < 2 ^ 32) (p : Bool) :
    checksPass .c20pDec (finishWith out p s).outputToInput := by
  obtain ⟨hk, hiv, haad, hd⟩ := hp
  have hdin : (finishWith out p s).outputToInput.dinlen.toNat = s.dinlen.toNat + 16 :=
    (doutlenWord_toNat (hout ▸ hlt)).trans hout
  exact ⟨hk, hiv, haad, by omega, hdin ▸ Nat.add_le_add_right hd 16⟩

end

/-! ## The AEAD obligations -/

/-- Settles O37: the sealed data is ciphertext and tag, 16 bytes longer than the plaintext. -/
theorem c20pEncWritesCiphertextAndTag : Obligations.C20pEncWritesCiphertextAndTag := by
  rintro s k n a p _ hkl hivl haad hdin hk hkey hn hiv hal ha hpl hp rfl
  have hreads : AeadReads s k n a p :=
    .of_holds (hk.trans hkl.symm) hkey (hn.trans hivl.symm) hiv hal ha hpl hp
  have hlen : (chachaXor k 1 n p ++ aeadTag k n a (chachaXor k 1 n p)).length = p.length + 16 := by
    rw [List.length_append, aeadTag_length, chachaXor_length hk hn]
  rw [exec_c20pEnc_of_reads ⟨hkl, hivl, haad, hdin⟩ hreads, finishWith, hlen, aeadTag_eq]
  rfl

/-- Settles O38: equality with the recomputed tag decides between the success write and the failure write. -/
theorem c20pDecOpensOnlyUnderTheTag : Obligations.C20pDecOpensOnlyUnderTheTag := by
  intro s k n a c t hkl hivl haad hdin hk hkey hn hiv hal ha htl hcl hct
  have hreads : AeadReads s k n a (c ++ t) :=
    .of_holds (hk.trans hkl.symm) hkey (hn.trans hivl.symm) hiv hal ha (by rw [List.length_append, htl, hcl]) hct
  rw [exec_c20pDec_of_reads ⟨hkl, hivl, haad, by omega, hdin⟩ hreads htl]
  refine ⟨fun heq => ?_, fun hne => by rw [if_neg hne]⟩
  have hfit : c.length < 2 ^ 32 := by omega
  rw [if_pos heq, finishWith, chachaXor_length hk hn, finish, doutlenWord, if_pos hfit]
  rfl

/-- Settles O47: C20P_DEC recomputes the tag from the operands it was made from, and the keystream undoes itself. -/
theorem c20pDecInvertsC20pEnc : Obligations.C20pDecInvertsC20pEnc := by
  intro s t hlen h hok
  have hp := checksPass_of_exec_ok h hok
  obtain ⟨hkl, hivl, -⟩ := id hp
  obtain ⟨k, n, a, p, hreads⟩ := aeadReads_of_exec_next hp h
  have hk : k.length = 32 := (bufRead_length hreads.key).trans hkl
  have hn : n.length = 12 := (bufRead_length hreads.iv).trans hivl
  obtain ⟨hpl, hcells⟩ := bufRead_ok.1 hreads.din
  rw [exec_c20pEnc_of_reads hp hreads] at h
  generalize hc : chachaXor k 1 n p = c at h
  have hcp : chachaXor k 1 n c = p := by rw [← hc, chachaXor_chachaXor hk hn]
  have hcl : c.length = s.dinlen.toNat := by rw [← hc, chachaXor_length hk hn, hpl]
  have hout : (c ++ aeadTag k n a c).length = s.dinlen.toNat + 16 := by rw [List.length_append, hcl, aeadTag_length]
  cases h
  have hdec := exec_c20pDec_of_reads (checksPass_c20pDec_outputToInput hp hout hlen false)
    (hreads.outputToInput (hout ▸ hlen) false) (aeadTag_length k n a c)
  refine ⟨_, hdec.trans (congrArg _ (if_pos rfl)), rfl, ?_, fun i hi => ?_⟩
  · apply BitVec.eq_of_toNat_eq
    rw [hcp, finishWith_doutlen, doutlenWord_toNat (by omega), hpl]
  · have hdin : s.din.read i = p[i]? := by simpa using hcells i hi
    rw [hcp, finishWith_dout, hdin]
    exact Memory.read_write_zero_of_lt _ (by omega)

end Sys2Proof.Machine
end

section
/-! PROOFS. What DES and Triple DES are as ciphers: decryption undoes encryption, the parity bits of a key have no effect,
Triple DES inverts and reduces, and the Triple-DES block commands (45_tdes R402 to R406, R412, R413). -/
namespace Sys2Proof.Machine

/-! ## Table permutations: the bits they read, and one that undoes another (00_scope R16) -/

/-- A table permutation reads only the bits its table names. -/
theorem perm_congr (m : Nat) {n : Nat} {T : List Nat} {x y : BitVec n} (h : ∀ t ∈ T, desBit x t = desBit y t) :
    perm m T x = perm m T y := by
  rw [perm, perm, List.foldl_ext _ _ 0 fun z t ht => by rw [h t ht]]

/-- If table `U` holds `j` at the place that entry `j` of table `T` names, then `T` after `U` is the identity. -/
theorem perm_perm_cancel {n : Nat} {T U : List Nat} (hT : T.length = n) (hU : U.length = n)
    (h : ∀ j < n, 1 ≤ T.getD j 0 ∧ T.getD j 0 ≤ n ∧ U.getD (T.getD j 0 - 1) 0 = j + 1) (x : BitVec n) :
    perm n T (perm n U x) = x := by
  apply BitVec.eq_of_getLsbD_eq
  intro i hi
  obtain ⟨hpos, hle, hinv⟩ := h (n - 1 - i) (by omega)
  have hread := perm_getLsbD T (perm n U x) (j := n - 1 - i) (by omega)
  have hsource := perm_getLsbD U x (j := T.getD (n - 1 - i) 0 - 1) (by omega)
  rw [hT] at hread
  rw [hU, hinv] at hsource
  rw [show n - 1 - (n - 1 - i) = i by omega] at hread
  rw [show n - 1 - (T.getD (n - 1 - i) 0 - 1) = n - T.getD (n - 1 - i) 0 by omega,
    show n - (n - 1 - i + 1) = i by omega] at hsource
  exact hread.trans hsource

theorem perm_desIP_desFP (x : BitVec 64) : perm 64 desIP (perm 64 desFP x) = x :=
  perm_perm_cancel (n := 64) (T := desIP) (U := desFP) rfl rfl (by decide) x

theorem perm_desFP_desIP (x : BitVec 64) : perm 64 desFP (perm 64 desIP x) = x :=
  perm_perm_cancel (n := 64) (T := desFP) (U := desIP) rfl rfl (by decide) x

/-! ## Decryption undoes encryption (R404) -/

theorem toNat_ofNat_be {b : Bytes} (hb : b.length = 8) : (BitVec.ofNat 64 (be b)).toNat = be b := by
  have hlt := be_lt b
  rw [hb] at hlt
  exact Nat.mod_eq_of_lt hlt

theorem ofNat_be_toBE (x : BitVec 64) : BitVec.ofNat 64 (be (toBE 8 x.toNat)) = x :=
  BitVec.eq_of_toNat_eq <| by
    rw [toNat_ofNat_be (toBE_length _ _), be_toBE]
    exact Nat.mod_eq_of_lt x.isLt

/-- The rounds under the subkeys from the last, started from the swapped result of the rounds, end in the swapped start. -/
theorem desRounds_reverse_swap (ks : List (BitVec 48)) (lr : BitVec 32 × BitVec 32) :
    desRounds ks.reverse (desRounds ks lr).swap = lr.swap := by
  induction ks generalizing lr with
  | nil => rfl
  | cons k ks ih =>
    obtain ⟨l, r⟩ := lr
    rw [desRounds, List.reverse_cons, desRounds_concat, ih]
    simp

/-- The block with IP and FP taken off: halves, rounds, swap. -/
theorem perm_desIP_desBlock (ks : List (BitVec 48)) {x : BitVec 64} {l r : BitVec 32} (hx : perm 64 desIP x = l ++ r) :
    perm 64 desIP (desBlock ks x) = (desRounds ks (l, r)).2 ++ (desRounds ks (l, r)).1 := by
  rw [desBlock, hx, perm_desIP_desFP, BitVec.extractLsb'_append_eq_left, BitVec.extractLsb'_append_eq_right]

theorem desBlock_reverse_desBlock (ks : List (BitVec 48)) (x : BitVec 64) : desBlock ks.reverse (desBlock ks x) = x := by
  obtain ⟨l, r, hx⟩ : ∃ l r : BitVec 32, perm 64 desIP x = l ++ r :=
    ⟨_, _, (extractLsb'_append_self (m := 32) (n := 32) _).symm⟩
  have hback : desRounds ks.reverse ((desRounds ks (l, r)).2, (desRounds ks (l, r)).1) = (r, l) :=
    desRounds_reverse_swap ks (l, r)
  have hIP := perm_desIP_desBlock ks.reverse (perm_desIP_desBlock ks hx)
  rw [hback, ← hx] at hIP
  rw [← perm_desFP_desIP (desBlock ks.reverse (desBlock ks x)), hIP, perm_desFP_desIP]

/-- `des` in one direction is undone by `des` in the other. -/
theorem des_des_not (k : Bytes) {b : Bytes} (hb : b.length = 8) (decrypt : Bool) :
    des k (des k b decrypt) (!decrypt) = b := by
  have horder : (if !decrypt then (desSubkeys k).reverse else desSubkeys k) =
      (if decrypt then (desSubkeys k).reverse else desSubkeys k).reverse := by cases decrypt <;> simp
  rw [des, des, ofNat_be_toBE, horder, desBlock_reverse_desBlock, toNat_ofNat_be hb, ← hb, toBE_be]

theorem des_decrypt_encrypt (k : Bytes) {b : Bytes} (hb : b.length = 8) : des k (des k b false) true = b :=
  des_des_not k hb false

theorem des_encrypt_decrypt (k : Bytes) {b : Bytes} (hb : b.length = 8) : des k (des k b true) false = b :=
  des_des_not k hb true

/-- Settles O57: the rounds run backwards between permutations that undo each other. -/
theorem desDecryptInvertsEncrypt : Obligations.DesDecryptInvertsEncrypt :=
  fun k _ hb => ⟨des_decrypt_encrypt k hb, des_encrypt_decrypt k hb⟩

/-! ## The parity bits of a key (R402) -/

/-- Bit `t` of eight bytes, numbered from 1 at the top, is bit `(t - 1) % 8` from the top of byte `(t - 1) / 8`. -/
theorem desBit_be {k : Bytes} (hk : k.length = 8) {t : Nat} (hpos : 1 ≤ t) (hle : t ≤ 64) :
    desBit (BitVec.ofNat 64 (be k)) t = ((k.getD ((t - 1) / 8) 0).toNat >>> (7 - (t - 1) % 8)) % 2 := by
  have hbyte := foldl_digit 256 BitVec.toNat k (fun x _ => x.isLt) ((t - 1) / 8) (by omega)
  rw [← be] at hbyte
  rw [desBit, toNat_ofNat_be hk, List.getD_eq_getElem _ _ (by omega), ← hbyte,
    show 64 - t = 8 * (k.length - 1 - (t - 1) / 8) + (7 - (t - 1) % 8) by omega, Nat.shiftRight_add,
    Nat.shiftRight_eq_div_pow _ (8 * _), Nat.pow_mul]
  generalize be k / (2 ^ 8) ^ _ = q
  have hbit : (t - 1) % 8 < 8 := Nat.mod_lt _ (by omega)
  generalize (t - 1) % 8 = r at hbit
  interval_cases r <;> omega

/-- PC1 names no bit that is the low bit of a byte. -/
theorem desPC1_skips_parity : ∀ t ∈ desPC1, 1 ≤ t ∧ t ≤ 64 ∧ t % 8 ≠ 0 := by decide

theorem desSubkeys_eq_of_upper_bits_eq {k k' : Bytes} (hk : k.length = 8) (hk' : k'.length = 8)
    (h : ∀ i < 8, k.getD i 0 >>> 1 = k'.getD i 0 >>> 1) : desSubkeys k = desSubkeys k' := by
  have hPC1 : perm 56 desPC1 (BitVec.ofNat 64 (be k)) = perm 56 desPC1 (BitVec.ofNat 64 (be k')) := by
    refine perm_congr 56 fun t ht => ?_
    obtain ⟨hpos, hle, hlow⟩ := desPC1_skips_parity t ht
    have hupper := congrArg BitVec.toNat (h ((t - 1) / 8) (by omega))
    rw [BitVec.toNat_ushiftRight, BitVec.toNat_ushiftRight] at hupper
    rw [desBit_be hk hpos hle, desBit_be hk' hpos hle, show 7 - (t - 1) % 8 = 1 + (6 - (t - 1) % 8) by omega,
      Nat.shiftRight_add, hupper, ← Nat.shiftRight_add]
  rw [desSubkeys, hPC1, ← desSubkeys]

/-- Settles O58: a key enters DES through PC1 only, which skips the low bit of every byte. -/
theorem desIgnoresKeyParity : Obligations.DesIgnoresKeyParity := by
  intro k k' b decrypt hk hk' h
  rw [des, desSubkeys_eq_of_upper_bits_eq hk hk' h, ← des]

/-! ## Triple DES (R405, R406) -/

/-- The three keys of a two-key key and of a three-key key. -/
theorem tdesKeys_eq {k1 k2 k3 key : Bytes} (h1 : k1.length = 8) (h2 : k2.length = 8) (h3 : k3.length = 8)
    (hkey : key = k1 ++ k2 ∧ k3 = k1 ∨ key = k1 ++ k2 ++ k3) :
    tdesK1 key = k1 ∧ tdesK2 key = k2 ∧ tdesK3 key = k3 := by
  have hdrop : k1.drop 16 = [] := List.drop_of_length_le (by omega)
  have htake : k3.take 8 = k3 := List.take_of_length_le h3.le
  obtain ⟨rfl, rfl⟩ | rfl := hkey
  · simp [tdesK1, tdesK2, tdesK3, slice, h1, h2]
  · simp [tdesK1, tdesK2, tdesK3, slice, List.drop_append, h1, h2, h3, hdrop, htake]

section
variable {k1 k2 k3 key : Bytes} (h1 : k1.length = 8) (h2 : k2.length = 8) (h3 : k3.length = 8)
  (hkey : key = k1 ++ k2 ∧ k3 = k1 ∨ key = k1 ++ k2 ++ k3) (b : Bytes)
include h1 h2 h3 hkey

theorem tdesEncrypt_eq : tdesEncrypt key b = des k3 (des k2 (des k1 b false) true) false := by
  obtain ⟨hk1, hk2, hk3⟩ := tdesKeys_eq h1 h2 h3 hkey
  rw [tdesEncrypt, hk1, hk2, hk3]

theorem tdesDecrypt_eq : tdesDecrypt key b = des k1 (des k2 (des k3 b true) false) true := by
  obtain ⟨hk1, hk2, hk3⟩ := tdesKeys_eq h1 h2 h3 hkey
  rw [tdesDecrypt, hk1, hk2, hk3]

end

theorem tdesDecrypt_tdesEncrypt (key : Bytes) {b : Bytes} (hb : b.length = 8) :
    tdesDecrypt key (tdesEncrypt key b) = b := by
  rw [tdesEncrypt, tdesDecrypt, des_decrypt_encrypt _ (des_length _ _ _), des_encrypt_decrypt _ (des_length _ _ _),
    des_decrypt_encrypt _ hb]

/-- Settles O59: E-D-E undone from the outside in, and a D between two E's that cancels one of them. -/
theorem tripleDesInvertsAndReduces : Obligations.TripleDesInvertsAndReduces := by
  refine ⟨fun key b hb => tdesDecrypt_tdesEncrypt key hb, fun k b hk hb => ?_,
    fun k1 k2 b h1 h2 hb => ⟨?_, ?_, ?_⟩⟩
  · rw [tdesEncrypt_eq hk hk hk (.inl ⟨rfl, rfl⟩), des_decrypt_encrypt k hb]
  · rw [tdesEncrypt_eq h1 h1 h2 (.inr rfl), des_decrypt_encrypt k1 hb]
  · rw [tdesEncrypt_eq h1 h2 h2 (.inr rfl), des_encrypt_decrypt k2 (des_length _ _ _)]
  · rw [tdesEncrypt_eq h1 h2 h1 (.inr rfl), tdesEncrypt_eq h1 h2 h1 (.inl ⟨rfl, rfl⟩)]

/-! ## TDES_ENC and TDES_DEC (R412, R413) -/

theorem exec_tdes {i : Instr} {decrypt : Bool} (hi : (i, decrypt) ∈ [(Instr.tdesEnc, false), (.tdesDec, true)])
    (s : State) : exec i s = runBlockCipher i [16, 24] (if decrypt then tdesDecrypt else tdesEncrypt) s := by
  simp only [List.mem_cons, Prod.mk.injEq, List.not_mem_nil, or_false] at hi
  obtain ⟨rfl, rfl⟩ | ⟨rfl, rfl⟩ := hi <;> rfl

/-- Settles O40: the one-block frame with E-D-E of the key's parts. -/
theorem tdesCommandsProcessOneBlock : Obligations.TdesCommandsProcessOneBlock := by
  intro s i decrypt hi
  rw [exec_tdes hi]
  refine ⟨fun hk => runBlockCipher_of_klen_not_mem _ _ hk, fun hk hd => runBlockCipher_of_dinlen_ne _ _ hk hd,
    fun k1 k2 k3 key b h1 h2 h3 hkey hk hd hkh hbl hbh => ?_⟩
  have hklen : s.klen.toNat ∈ [16, 24] := by
    obtain ⟨rfl, rfl⟩ | rfl := hkey <;> simp [hk, h1, h2, h3]
  have hcipher : (if decrypt then tdesDecrypt else tdesEncrypt) key b =
      if decrypt then des k1 (des k2 (des k3 b true) false) true else des k3 (des k2 (des k1 b false) true) false := by
    cases decrypt
    · exact tdesEncrypt_eq h1 h2 h3 hkey b
    · exact tdesDecrypt_eq h1 h2 h3 hkey b
  have hlen : ((if decrypt then tdesDecrypt else tdesEncrypt) key b).length = 8 := by cases decrypt <;> simp
  rw [runBlockCipher_of_holds i _ hlen hklen hd hk.symm hkh hbl hbh, hcipher]

end Sys2Proof.Machine
end

section
/-! PROOFS. PKCS#5 padding and its validator, CBC over Triple DES block by block, and the four commands
(46_cbc_padding R450 to R459). -/
namespace Sys2Proof.Machine

/-! ## Padding and unpadding (R450 to R452) -/

/-- The string `pkcs5Pad` and its validator speak of: `n` bytes of value `n`. -/
def padBytes (n : Nat) : Bytes := List.replicate n (BitVec.ofNat 8 n)

theorem padPkcs5_eq (d : Bytes) : padPkcs5 d = d ++ padBytes (8 - d.length % 8) := rfl

theorem padPkcs5_length_mod (d : Bytes) : (padPkcs5 d).length % 8 = 0 := by rw [padPkcs5_length]; omega

theorem padByte_toNat {n : Nat} (h8 : n ≤ 8) : (BitVec.ofNat 8 n).toNat = n := by
  rw [BitVec.toNat_ofNat, Nat.mod_eq_of_lt (by omega)]

theorem getLast?_append_padBytes {n : Nat} (h1 : 1 ≤ n) (u : Bytes) :
    (u ++ padBytes n).getLast? = some (BitVec.ofNat 8 n) := by
  rw [padBytes, List.getLast?_append, List.getLast?_replicate, if_neg (by omega), Option.some_or]

theorem padValid_append_padBytes {n : Nat} (h1 : 1 ≤ n) (h8 : n ≤ 8) (u : Bytes) :
    padValid (u ++ padBytes n) = true := by
  rw [padValid, getLast?_append_padBytes h1]
  simp [padByte_toNat h8, h1, h8, padBytes]

theorem unpadPkcs5_append_padBytes {n : Nat} (h1 : 1 ≤ n) (h8 : n ≤ 8) (u : Bytes) :
    unpadPkcs5 (u ++ padBytes n) = (u, true) := by
  rw [unpadPkcs5, if_pos (padValid_append_padBytes h1 h8 u), getLast?_append_padBytes h1]
  simp [padByte_toNat h8, padBytes]

/-- A valid string is its part in front of the pad, then the pad (R451). -/
theorem exists_eq_append_of_padValid {d : Bytes} (h : padValid d = true) :
    ∃ (u : Bytes) (n : Nat), 1 ≤ n ∧ n ≤ 8 ∧ d = u ++ padBytes n := by
  unfold padValid at h
  split at h
  case h_1 => cases h
  case h_2 b _ =>
    simp only [Bool.and_eq_true, decide_eq_true_eq, List.all_eq_true, beq_iff_eq] at h
    obtain ⟨⟨⟨h1, h8⟩, hle⟩, hall⟩ := h
    have hpad : d.drop (d.length - b.toNat) = padBytes b.toNat := by
      rw [padBytes, BitVec.ofNat_toNat, BitVec.setWidth_eq]
      exact List.eq_replicate_iff.2 ⟨by rw [List.length_drop]; omega, hall⟩
    exact ⟨d.take (d.length - b.toNat), b.toNat, h1, h8, by rw [← hpad, List.take_append_drop]⟩

theorem padValid_iff {d : Bytes} :
    padValid d = true ↔ ∃ (u : Bytes) (n : Nat), 1 ≤ n ∧ n ≤ 8 ∧ d = u ++ padBytes n := by
  refine ⟨exists_eq_append_of_padValid, ?_⟩
  rintro ⟨u, n, h1, h8, rfl⟩
  exact padValid_append_padBytes h1 h8 u

theorem unpadPkcs5_of_not_padValid {d : Bytes} (h : padValid d = false) : unpadPkcs5 d = (d, false) := by
  rw [unpadPkcs5, h]
  rfl

theorem unpadPkcs5_padPkcs5 (d : Bytes) : unpadPkcs5 (padPkcs5 d) = (d, true) :=
  unpadPkcs5_append_padBytes (by omega) (by omega) d

/-- Settles O60: the last byte of a string is the length of its pad, if it ends in one. -/
theorem paddingIsRecognisedAndStripped : Obligations.PaddingIsRecognisedAndStripped := fun d =>
  ⟨padPkcs5_eq d, padPkcs5_length_mod d, by rw [padPkcs5_length]; omega, padValid_iff,
    fun _ h1 h8 => unpadPkcs5_append_padBytes h1 h8 d, unpadPkcs5_of_not_padValid, unpadPkcs5_padPkcs5 d⟩

/-! ## The blocks of a string -/

/-- Block `j` of a string, 8 bytes (00_scope R11). -/
def blockAt (b : Bytes) (j : Nat) : Bytes := slice b (8 * j) (8 * j + 8)

/-- The ciphertext block in front of block `j`: the IV in front of the first (R453, R454). -/
def previousBlock (iv c : Bytes) (j : Nat) : Bytes := if j = 0 then iv else slice c (8 * j - 8) (8 * j)

section
variable {a : Bytes} (ha : a.length = 8) (b : Bytes)
include ha

theorem blockAt_append_zero : blockAt (a ++ b) 0 = a := by simp [blockAt, slice, ← ha]

theorem blockAt_append_succ (j : Nat) : blockAt (a ++ b) (j + 1) = blockAt b j := by
  have hdrop : (a ++ b).drop (8 * (j + 1)) = b.drop (8 * j) := by
    rw [Nat.mul_succ, Nat.add_comm, ← ha, List.drop_length_add_append]
  rw [blockAt, blockAt, slice, slice, hdrop, Nat.add_sub_cancel_left, Nat.add_sub_cancel_left]

theorem previousBlock_append_succ (iv : Bytes) (j : Nat) :
    previousBlock iv (a ++ b) (j + 1) = previousBlock a b j := by
  cases j with
  | zero => exact blockAt_append_zero ha b
  | succ j => exact blockAt_append_succ ha b j

end

/-! ## CBC, one block more (R453, R454) -/

section
variable (key iv : Bytes) {b : Bytes} (hb : b.length = 8) (rest : Bytes)
include hb

theorem cbcEncrypt_append : cbcEncrypt key iv (b ++ rest) =
    tdesEncrypt key (xorBytes b iv) ++ cbcEncrypt key (tdesEncrypt key (xorBytes b iv)) rest := by
  rw [cbcEncrypt, chunks_append (by omega) hb]
  rfl

theorem cbcDecrypt_append : cbcDecrypt key iv (b ++ rest) =
    xorBytes (tdesDecrypt key b) iv ++ cbcDecrypt key b rest := by
  rw [cbcDecrypt, chunks_append (by omega) hb]
  rfl

end

/-- Ciphertext block `j` comes from plaintext block `j` and the ciphertext block before it (R453). -/
theorem cbcEncrypt_block (key iv p : Bytes) {j : Nat} (hj : j < p.length / 8) :
    blockAt (cbcEncrypt key iv p) j =
      tdesEncrypt key (xorBytes (blockAt p j) (previousBlock iv (cbcEncrypt key iv p) j)) := by
  induction p using chunksInduction (k := 8) (by omega) generalizing iv j with
  | hnil => simp at hj
  | hlast a _ ha => omega
  | hstep b rest hb ih =>
    have hlen := tdesEncrypt_length key (xorBytes b iv)
    rw [cbcEncrypt_append key iv hb]
    cases j with
    | zero => rw [blockAt_append_zero hlen, blockAt_append_zero hb]; rfl
    | succ j =>
      rw [blockAt_append_succ hlen, blockAt_append_succ hb, previousBlock_append_succ hlen]
      exact ih _ (by rw [List.length_append] at hj; omega)

/-- Plaintext block `j` comes from ciphertext block `j` and the ciphertext block before it (R454). -/
theorem cbcDecrypt_block (key : Bytes) {iv : Bytes} (hiv : iv.length = 8) (c : Bytes) {j : Nat} (hj : j < c.length / 8) :
    blockAt (cbcDecrypt key iv c) j = xorBytes (tdesDecrypt key (blockAt c j)) (previousBlock iv c j) := by
  induction c using chunksInduction (k := 8) (by omega) generalizing iv j with
  | hnil => simp at hj
  | hlast a _ ha => omega
  | hstep b rest hb ih =>
    have hlen : (xorBytes (tdesDecrypt key b) iv).length = 8 := by simp [hiv]
    rw [cbcDecrypt_append key iv hb]
    cases j with
    | zero => rw [blockAt_append_zero hlen, blockAt_append_zero hb]; rfl
    | succ j =>
      rw [blockAt_append_succ hlen, blockAt_append_succ hb, previousBlock_append_succ hb]
      exact ih hb (by rw [List.length_append] at hj; omega)

/-- On whole blocks decryption undoes encryption. -/
theorem cbcDecrypt_cbcEncrypt (key : Bytes) {iv p : Bytes} (hiv : iv.length = 8) (hp : p.length % 8 = 0) :
    cbcDecrypt key iv (cbcEncrypt key iv p) = p := by
  induction p using chunksInduction (k := 8) (by omega) generalizing iv with
  | hnil => rfl
  | hlast a h0 ha =>
    have := List.length_pos_iff.2 h0
    omega
  | hstep b rest hb ih =>
    have hblock : tdesDecrypt key (tdesEncrypt key (xorBytes b iv)) = xorBytes b iv :=
      tdesDecrypt_tdesEncrypt key (by simp [hb, hiv])
    have hrest : rest.length % 8 = 0 := by rw [List.length_append] at hp; omega
    rw [cbcEncrypt_append key iv hb, cbcDecrypt_append key iv (tdesEncrypt_length _ _), hblock,
      xorBytes_cancel (by omega), ih (tdesEncrypt_length _ _) hrest]

theorem cbcEncrypt_padPkcs5_length (key iv d : Bytes) :
    (cbcEncrypt key iv (padPkcs5 d)).length = d.length + (8 - d.length % 8) := by
  rw [cbcEncrypt_length _ _ _ (padPkcs5_length_mod d), padPkcs5_length]

/-- Decrypting and unpadding what was padded and encrypted gives the data back, with its padding valid. -/
theorem unpadPkcs5_cbcDecrypt_cbcEncrypt_padPkcs5 (key : Bytes) {iv : Bytes} (hiv : iv.length = 8) (d : Bytes) :
    unpadPkcs5 (cbcDecrypt key iv (cbcEncrypt key iv (padPkcs5 d))) = (d, true) := by
  rw [cbcDecrypt_cbcEncrypt key hiv (padPkcs5_length_mod d), unpadPkcs5_padPkcs5]

/-! ## The checks of the two CBC commands (R456, R457) -/

section
variable {s t : State} {key iv d : Bytes}

theorem firstFailing_of_tdes_klen_not_mem (hk : s.klen.toNat ∉ [16, 24]) (rest : List (Bool × Reason)) :
    firstFailing (keylenCheck [16, 24] s :: rest) = some .keylen := by simp [keylenCheck, hk]

theorem firstFailing_of_cbc_ivlen_ne (hk : s.klen.toNat ∈ [16, 24]) (hiv : s.ivlen.toNat ≠ 8)
    (rest : List (Bool × Reason)) :
    firstFailing (keylenCheck [16, 24] s :: ivlenCheck 8 s :: rest) = some .ivlen := by
  simp [keylenCheck, ivlenCheck, hk, hiv]

/-- Past the first two checks the third one decides. -/
theorem firstFailing_of_cbc_lengths (hk : s.klen.toNat ∈ [16, 24]) (hiv : s.ivlen.toNat = 8)
    (rest : List (Bool × Reason)) :
    firstFailing (keylenCheck [16, 24] s :: ivlenCheck 8 s :: rest) = firstFailing rest := by
  simp [keylenCheck, ivlenCheck, hk, hiv]

theorem firstFailing_of_dinlen_gt {extra : Nat} (h : s.params.dataMax + extra < s.dinlen.toNat)
    (rest : List (Bool × Reason)) : firstFailing (dinlenMaxCheck extra s :: rest) = some .datalen := by
  simp [dinlenMaxCheck, h]

theorem firstFailing_of_dinlen_not_blocks (h : s.params.dataMax + 8 < s.dinlen.toNat ∨ s.dinlen.toNat % 8 ≠ 0)
    (rest : List (Bool × Reason)) : firstFailing (dinlenBlocksCheck s :: rest) = some .datalen := by
  simp [dinlenBlocksCheck, h]

/-! ## The effects of the two CBC commands -/

/-- What a CBC command reads: the key, the IV and the data (30_encoding R112). -/
structure CbcReads (s : State) (key iv d : Bytes) : Prop where
  key : s.keyOperand = .ok key
  iv : s.ivOperand = .ok iv
  din : s.dinOperand = .ok d

/-- Operands held are read as they are. -/
theorem CbcReads.of_holds (hkl : key.length = s.klen.toNat) (hk : s.holds .key key) (hil : iv.length = s.ivlen.toNat)
    (hi : s.holds .iv iv) (hdl : d.length = s.dinlen.toNat) (hd : s.holds .din d) : CbcReads s key iv d :=
  ⟨bufRead_of_holds hk hkl, bufRead_of_holds hi hil, bufRead_of_holds hd hdl⟩

theorem tdesCbcEncChecks_pass (hp : checksPass .tdesCbcEnc s) :
    ∀ c ∈ [keylenCheck [16, 24] s, ivlenCheck 8 s, dinlenMaxCheck 0 s], c.1 = false := by
  obtain ⟨hk, hiv, hd⟩ := hp
  rw [← firstFailing_eq_none, firstFailing_of_cbc_lengths hk hiv]
  simp [dinlenMaxCheck, hd]

/-- TDES_CBC_ENC writes the encryption of the padded data (R456). -/
theorem exec_tdesCbcEnc_of_reads (hp : checksPass .tdesCbcEnc s) (h : CbcReads s key iv d) :
    exec .tdesCbcEnc s = .next (finishWith (cbcEncrypt key iv (padPkcs5 d)) false s) := by
  rw [exec, execTdesCbcEnc, runCommand_of_pass (tdesCbcEncChecks_pass hp), h.key, h.iv, h.din]
  rfl

/-- TDES_CBC_DEC writes the unpadded decryption and says in PADOK whether the padding was valid (R457, R455). -/
theorem exec_tdesCbcDec_of_reads (hp : checksPass .tdesCbcDec s) (h : CbcReads s key iv d) :
    exec .tdesCbcDec s = .next (finishWith (unpadPkcs5 (cbcDecrypt key iv d)).1
      (unpadPkcs5 (cbcDecrypt key iv d)).2 s) := by
  have hpass : ∀ c ∈ [keylenCheck [16, 24] s, ivlenCheck 8 s, dinlenBlocksCheck s], c.1 = false := by
    obtain ⟨hk, hiv, hmax, hmod⟩ := hp
    rw [← firstFailing_eq_none, firstFailing_of_cbc_lengths hk hiv]
    simp [dinlenBlocksCheck, hmax, hmod]
  rw [exec, execTdesCbcDec, runCommand_of_pass hpass, h.key, h.iv, h.din]
  rfl

/-- An output whose length DOUTLEN can hold, field by field (60_exceptions R533). -/
theorem finishWith_of_length_lt {out : Bytes} (h : out.length < 2 ^ 32) (p : Bool) (s : State) :
    finishWith out p s = { s with
      dout := s.dout.write 0 out, err := .ok, padok := p, errinfo := 0, doutlen := BitVec.ofNat 32 out.length } := by
  rw [finishWith, finish, doutlenWord, if_pos h]
  rfl

/-! ## PKCS5_PAD and PKCS5_UNPAD (R458, R459) -/

theorem exec_pkcs5Pad_of_holds (hmax : s.dinlen.toNat ≤ s.params.dataMax) (hl : d.length = s.dinlen.toNat)
    (hd : s.holds .din d) : exec .pkcs5Pad s = .next (finishWith (padPkcs5 d) false s) := by
  have hread : s.dinOperand = .ok d := bufRead_of_holds hd hl
  rw [exec, execPkcs5Pad, runCommand_of_pass (by simp [dinlenMaxCheck, hmax]), hread]
  rfl

/-- Unpadding lengthens nothing, so DOUTLEN holds the length. -/
theorem exec_pkcs5Unpad_of_holds (hmax : s.dinlen.toNat ≤ s.params.dataMax + 16) (hl : d.length = s.dinlen.toNat)
    (hd : s.holds .din d) {u : Bytes} {p : Bool} (hu : unpadPkcs5 d = (u, p)) :
    exec .pkcs5Unpad s = .next { s with
      dout := s.dout.write 0 u, err := .ok, padok := p, errinfo := 0, doutlen := BitVec.ofNat 32 u.length } := by
  have hread : s.dinOperand = .ok d := bufRead_of_holds hd hl
  have hfit : u.length < 2 ^ 32 := by
    have hle := unpadPkcs5_length_le d
    rw [hu, hl] at hle
    exact hle.trans_lt s.dinlen.isLt
  rw [← finishWith_of_length_lt hfit, exec, execPkcs5Unpad, runCommand_of_pass (by simp [dinlenMaxCheck, hmax]), hread,
    reading_ok, hu]

/-! ## Decryption undoes encryption (R454, R456, R457) -/

/-- A TDES_CBC_ENC whose checks pass goes on only if it has read its operands. -/
theorem cbcReads_of_exec_next (hp : checksPass .tdesCbcEnc s) (h : exec .tdesCbcEnc s = .next t) :
    ∃ key iv d, CbcReads s key iv d := by
  rw [exec, execTdesCbcEnc, runCommand_of_pass (tdesCbcEncChecks_pass hp)] at h
  obtain ⟨key, hkey, h⟩ := reading_next h
  obtain ⟨iv, hiv, h⟩ := reading_next h
  obtain ⟨d, hd, -⟩ := reading_next h
  exact ⟨key, iv, d, hkey, hiv, hd⟩

/-- After an output is copied to DIN a CBC command reads it there, and the other operands as before. -/
theorem CbcReads.outputToInput (h : CbcReads s key iv d) {out : Bytes} (hl : out.length < 2 ^ 32) (p : Bool) :
    CbcReads (finishWith out p s).outputToInput key iv out where
  key := h.key
  iv := h.iv
  din := bufRead_of_holds (fun _ => s.dout.read_write_zero_of_lt) (doutlenWord_toNat hl).symm

/-- If TDES_CBC_ENC's checks pass, so do TDES_CBC_DEC's on an output of whole blocks, at most one block longer than the
data. -/
theorem checksPass_tdesCbcDec_outputToInput (hp : checksPass .tdesCbcEnc s) {out : Bytes} (hmod : out.length % 8 = 0)
    (hle : out.length ≤ s.dinlen.toNat + 8) (hlt : out.length < 2 ^ 32) (p : Bool) :
    checksPass .tdesCbcDec (finishWith out p s).outputToInput := by
  obtain ⟨hk, hiv, hd⟩ := hp
  have hdin : (finishWith out p s).outputToInput.dinlen.toNat = out.length := doutlenWord_toNat hlt
  exact ⟨hk, hiv, hdin ▸ hle.trans (Nat.add_le_add_right hd 8), hdin ▸ hmod⟩

end

/-! ## The obligations -/

/-- Settles O41: the padded data has `n` bytes; the chaining one block at a time. -/
theorem tdesCbcEncPadsAndChains : Obligations.TdesCbcEncPadsAndChains := by
  refine ⟨fun s => ⟨fun hk => runCommand_of_fail (firstFailing_of_tdes_klen_not_mem hk _) _ _,
    fun hk hiv => runCommand_of_fail (firstFailing_of_cbc_ivlen_ne hk hiv _) _ _,
    fun hk hiv hd => runCommand_of_fail
      ((firstFailing_of_cbc_lengths hk hiv _).trans (firstFailing_of_dinlen_gt hd _)) _ _, ?_⟩, ?_⟩
  · intro key iv d n hk hiv hd hkl hkey hil hivh hdl hdin hn
    have hlen : (cbcEncrypt key iv (padPkcs5 d)).length = n := by rw [cbcEncrypt_padPkcs5_length]; omega
    rw [exec_tdesCbcEnc_of_reads ⟨hk, hiv, hd⟩ (.of_holds hkl hkey (hil.trans hiv.symm) hivh hdl hdin), finishWith, hlen]
    rfl
  · rintro key iv p _ - hp rfl
    exact ⟨cbcEncrypt_length key iv p hp, fun j => cbcEncrypt_block key iv p⟩

/-- Settles O42: unpadding lengthens nothing, so DOUTLEN holds the length; the chaining one block at a time. -/
theorem tdesCbcDecChainsAndUnpads : Obligations.TdesCbcDecChainsAndUnpads := by
  refine ⟨fun s => ⟨fun hk => runCommand_of_fail (firstFailing_of_tdes_klen_not_mem hk _) _ _,
    fun hk hiv => runCommand_of_fail (firstFailing_of_cbc_ivlen_ne hk hiv _) _ _,
    fun hk hiv hd => runCommand_of_fail
      ((firstFailing_of_cbc_lengths hk hiv _).trans (firstFailing_of_dinlen_not_blocks hd _)) _ _, ?_⟩, ?_⟩
  · intro key iv c hk hiv hmax hmod hkl hkey hil hivh hcl hdin
    have hfit : (unpadPkcs5 (cbcDecrypt key iv c)).1.length < 2 ^ 32 := by
      have hle := unpadPkcs5_length_le (cbcDecrypt key iv c)
      rw [cbcDecrypt_length key hil (hcl ▸ hmod)] at hle
      omega
    rw [exec_tdesCbcDec_of_reads ⟨hk, hiv, hmax, hmod⟩ (.of_holds hkl hkey (hil.trans hiv.symm) hivh hcl hdin),
      finishWith_of_length_lt hfit]
  · rintro key iv c _ hiv hc rfl
    exact ⟨cbcDecrypt_length key hiv hc, fun j => cbcDecrypt_block key hiv c⟩

/-- Settles O43: the input and its pad, whose length is the sum of theirs. -/
theorem pkcs5PadAppendsThePad : Obligations.Pkcs5PadAppendsThePad := by
  refine fun s => ⟨fun hd => runCommand_of_fail (firstFailing_of_dinlen_gt hd _) _ _, ?_⟩
  rintro d _ hmax hl hd rfl
  rw [exec_pkcs5Pad_of_holds hmax hl hd, finishWith, padPkcs5_length]
  rfl

/-- Settles O44: a string is stripped of the pad it ends in; one that ends in none is invalid and comes back whole. -/
theorem pkcs5UnpadStripsOnlyValidPadding : Obligations.Pkcs5UnpadStripsOnlyValidPadding := by
  refine fun s => ⟨fun hd => runCommand_of_fail (firstFailing_of_dinlen_gt hd _) _ _, ?_, ?_⟩
  · intro u n hmax h1 h8 hl hd
    exact exec_pkcs5Unpad_of_holds hmax (by simpa using hl) hd (unpadPkcs5_append_padBytes h1 h8 u)
  · intro d hmax hl hd hne
    have hinvalid : padValid d = false := by
      rw [← Bool.not_eq_true, padValid_iff]
      rintro ⟨u, n, h1, h8, hu⟩
      exact hne u n h1 h8 hu
    have hdinlen : BitVec.ofNat 32 d.length = s.dinlen := by rw [hl, BitVec.ofNat_toNat, BitVec.setWidth_eq]
    rw [exec_pkcs5Unpad_of_holds hmax hl hd (unpadPkcs5_of_not_padValid hinvalid), hdinlen]

/-- Settles O48: CBC and padding undo themselves under the operands TDES_CBC_DEC reads again. -/
theorem tdesCbcDecInvertsTdesCbcEnc : Obligations.TdesCbcDecInvertsTdesCbcEnc := by
  intro s t hlen h hok
  have hp := checksPass_of_exec_ok h hok
  obtain ⟨-, hivl, -⟩ := id hp
  obtain ⟨key, iv, d, hreads⟩ := cbcReads_of_exec_next hp h
  have hiv : iv.length = 8 := (bufRead_length hreads.iv).trans hivl
  obtain ⟨hdl, hcells⟩ := bufRead_ok.1 hreads.din
  rw [exec_tdesCbcEnc_of_reads hp hreads] at h
  generalize hc : cbcEncrypt key iv (padPkcs5 d) = c at h
  have hcl : c.length = d.length + (8 - d.length % 8) := by rw [← hc, cbcEncrypt_padPkcs5_length]
  have hundo : unpadPkcs5 (cbcDecrypt key iv c) = (d, true) := by
    rw [← hc, unpadPkcs5_cbcDecrypt_cbcEncrypt_padPkcs5 key hiv]
  have hlt : c.length < 2 ^ 32 := by omega
  cases h
  have hdec := exec_tdesCbcDec_of_reads (checksPass_tdesCbcDec_outputToInput hp (by omega) (by omega) hlt false)
    (hreads.outputToInput hlt false)
  rw [hundo] at hdec
  refine ⟨_, hdec, rfl, rfl, ?_, fun i hi => ?_⟩
  · apply BitVec.eq_of_toNat_eq
    rw [finishWith_doutlen, doutlenWord_toNat (n := d.length) (by omega), hdl]
  · have hdin : s.din.read i = d[i]? := by simpa using hcells i hi
    rw [finishWith_dout, hdin]
    exact Memory.read_write_zero_of_lt (x := d) _ (by omega)

end Sys2Proof.Machine
end

section
/-! PROOFS. The control commands, what a failed command and an output leave alone, when a command faults, what only reset
clears, and that no command reads the output or the report before it (47_control R500 to R504; 60_exceptions R534, R535,
R539; 70_reset R581, R584, R590; 10_state R41, R44, R46). -/
namespace Sys2Proof.Machine

/-! ## The codes of the GEN commands (47_control R501) -/

theorem keyBytes_eq_some {alg n : Nat} (h : (alg, n) ∈ [(1, 16), (2, 24), (3, 32), (4, 32), (5, 16), (6, 24)]) :
    keyBytes alg = some n := by
  fin_cases h <;> rfl

theorem nonceBytes_eq_some {alg n : Nat} (h : (alg, n) ∈ [(1, 12), (2, 12), (3, 12), (4, 12), (5, 8), (6, 8)]) :
    nonceBytes alg = some n := by
  fin_cases h <;> rfl

theorem keyBytes_eq_none {alg : Nat} (h : alg ∉ [1, 2, 3, 4, 5, 6]) : keyBytes alg = none := by
  rcases keyBytes_spec alg with ⟨hnone, -⟩ | ⟨n, -, hn⟩
  · exact hnone
  · exact absurd (List.mem_map_of_mem (f := Prod.fst) hn) h

theorem nonceBytes_eq_none {alg : Nat} (h : alg ∉ [1, 2, 3, 4, 5, 6]) : nonceBytes alg = none := by
  rcases nonceBytes_spec alg with ⟨hnone, -⟩ | ⟨n, -, hn⟩
  · exact hnone
  · exact absurd (List.mem_map_of_mem (f := Prod.fst) hn) h

/-- Settles O45: the table's entry for the code decides how many bytes are drawn and stored, or that there are none. -/
theorem genCommandsStoreTheDrawnBytes : Obligations.GenCommandsStoreTheDrawnBytes := by
  refine ⟨drawBytes_length, fun s alg n h => ?_, fun s alg n h => ?_, fun s alg h => ⟨?_, ?_⟩⟩
  · rw [exec, execGenKey, keyBytes_eq_some h]; rfl
  · rw [exec, execGenNonce, nonceBytes_eq_some h]; rfl
  · rw [exec, execGenKey, keyBytes_eq_none h]
  · rw [exec, execGenNonce, nonceBytes_eq_none h]

/-! ## NOP (47_control R502) -/

/-- A word with opcode 0, which uses no field, passes the FIELD check only if it is zero (30_encoding R114). -/
theorem eq_zero_of_fieldError_eq_false {v : Word} (hopc : opcField v = 0) (h : fieldError v = false) : v = 0 := by
  obtain ⟨hrsv1, hrsv0, hdir, hnrf, halg⟩ := fieldError_eq_false.1 h
  rw [hopc] at hdir hnrf halg
  rw [← assemble_fields hrsv0 hrsv1, hopc, hdir rfl, hnrf rfl, halg rfl]
  rfl

/-- Settles O27: NOP has no check to fail and its effect is the success write; the FIELD check reads every other bit. -/
theorem nopDoesOnlyTheSuccessWrite : Obligations.NopDoesOnlyTheSuccessWrite := by
  refine ⟨fun _ => rfl, rfl, fun v hopc hv => decode_eq_field.2 ?_⟩
  have hzero : opcField v = 0 := by rw [opcField, hopc]; rfl
  exact ⟨by omega, Bool.eq_true_of_not_eq_false fun h => hv (eq_zero_of_fieldError_eq_false hzero h)⟩

/-! ## A failed command (60_exceptions R534) -/

/-- A command that reports an error did its failure write. -/
theorem exec_failed {i : Instr} {s t : State} (h : exec i s = .next t) (herr : t.err ≠ .ok) :
    ∃ r, t = raise (encode i) r s := by
  cases exec_next h with
  | failed r => exact ⟨r, rfl⟩
  | _ => exact absurd rfl herr

/-- So did a word, turned away by the decoder or not, and the word reported is its own. -/
theorem executeWord_failed {v : Word} {s t : State} (h : executeWord v s = .next t) (herr : t.err ≠ .ok) :
    ∃ r, t = raise v r s := by
  unfold executeWord at h
  split at h
  · cases h; exact ⟨.opcode, rfl⟩
  · cases h; exact ⟨.field, rfl⟩
  · next i hd => exact encode_of_decode hd ▸ exec_failed h herr

/-- The codes of the reasons and the classes they fix (60_exceptions R532). -/
theorem Reason.code_errClass_mem (r : Reason) : (r.code, r.errClass) ∈
    [(1, .unsupported), (2, .unsupported), (3, .precondition), (4, .precondition), (5, .precondition),
      (6, .precondition), (7, .precondition), (8, .precondition), (9, .precondition), (10, .auth)] := by
  cases r <;> decide

/-- Settles O14: an error comes from the failure write, which is four fields. -/
theorem failedCommandWritesOnlyTheReport : Obligations.FailedCommandWritesOnlyTheReport := by
  intro v s t h herr
  obtain ⟨r, rfl⟩ := executeWord_failed h herr
  exact ⟨r.code, r.errClass, r.code_errClass_mem, raise_eq v r s⟩

/-! ## Faults (60_exceptions R535, R539) -/

/-- Settles O17: of the three ways a command can end the fault is the only one that is no next state; past its checks, a
command that ends in one of the other two has read every operand cell. -/
theorem commandsFaultOnlyOnUnwrittenOperands : Obligations.CommandsFaultOnlyOnUnwrittenOperands := by
  intro i s
  rcases exec_ends i s with ⟨r, -, -, hlate, he⟩ | ⟨hp, bn, hbn, j, hj, hnone, he⟩ | ⟨t, -, hw, -, he⟩ <;> rw [he]
  · exact ⟨by simp, by simp, fun hp hnw => absurd (hlate hp).2 hnw⟩
  · refine ⟨by simp, fun f hf => ?_, fun _ _ => ⟨bn, hbn, j, hj, rfl, hnone⟩⟩
    cases hf
    exact ⟨hp, bn, hbn, j, hj, rfl, hnone⟩
  · exact ⟨by simp, by simp, fun _ hnw => absurd hw hnw⟩

/-! ## DOUT above DOUTLEN (70_reset R584) -/

/-- A success leaves DOUT alone or writes an output of bounded length from cell 0. -/
theorem Succeeds.dout {i : Instr} {s t : State} (h : Succeeds i s t) :
    t.dout = s.dout ∨ ∃ out p, (out.length ≤ 64 ∨ out.length ≤ s.dinlen.toNat + 16) ∧ t = finishWith out p s := by
  cases i with
  | nop => cases h; exact .inl rfl
  | aesExpand nrf => obtain ⟨key, -, -, -, rfl⟩ := h; exact .inl rfl
  | genKey alg => obtain ⟨n, -, rfl⟩ := h; exact .inl rfl
  | genNonce alg => obtain ⟨n, -, rfl⟩ := h; exact .inl rfl
  | _ => obtain ⟨out, p, hl, -, -, rfl⟩ := h; exact .inr ⟨out, p, hl, rfl⟩

/-- Settles O16: a failed command writes no cell of DOUT, and an output is as long as DOUTLEN says. -/
theorem doutKeepsOlderBytesAboveDoutlen : Obligations.DoutKeepsOlderBytesAboveDoutlen := by
  intro i s t hdin h
  refine ⟨fun j hj => ?_, fun herr j => ?_⟩
  · rcases exec_next_cases h with ⟨r, rfl⟩ | hs
    · rfl
    rcases hs.dout with hd | ⟨out, p, hl, rfl⟩
    · rw [hd]
    · rw [finishWith_doutlen, doutlenWord_toNat (by omega)] at hj
      exact s.dout.read_write_zero_of_le hj
  · obtain ⟨r, rfl⟩ := exec_failed h herr
    rfl

/-! ## What only reset clears (70_reset R581) -/

/-- RKV, a nonzero NR and the presence of a value in a cell survive from `s` to `t`. -/
structure Retains (s t : State) : Prop where
  rkv : s.rkv = true → t.rkv = true
  nr : s.nr ≠ 0 → t.nr ≠ 0
  cells : ∀ (b : BufId) (j : Nat), (s.buf b).read j ≠ none → (t.buf b).read j ≠ none

theorem Retains.of_eq {s t : State} (hrkv : t.rkv = s.rkv) (hnr : t.nr = s.nr) (hbuf : ∀ b, t.buf b = s.buf b) :
    Retains s t := ⟨by simp [hrkv], by simp [hnr], by simp [hbuf]⟩

theorem Retains.trans {s t u : State} (h : Retains s t) (h' : Retains t u) : Retains s u :=
  ⟨h'.rkv ∘ h.rkv, h'.nr ∘ h.nr, fun b j => h'.cells b j ∘ h.cells b j⟩

theorem Retains.bufWrite (s : State) (b : BufId) (off : Nat) (x : Bytes) : Retains s (s.bufWrite b off x) := by
  refine ⟨by simp, by simp, fun c j hj => ?_⟩
  rw [bufWrite_buf]
  split_ifs with hc
  · exact Memory.write_keeps_value (hc ▸ hj) off x
  · exact hj

theorem Retains.draw (s : State) (b : BufId) (n : Nat) : Retains s ((s.afterDraw n).bufWrite b 0 (s.drawBytes n)) :=
  .trans (t := s.afterDraw n) (.of_eq rfl rfl (afterDraw_buf n s)) (.bufWrite _ b 0 _)

theorem Retains.command {i : Instr} {s t : State} (h : CommandTo i s t) : Retains s t := by
  cases h with
  | failed r => exact .of_eq rfl rfl (raise_buf _ _ _)
  | nothing => exact .of_eq rfl rfl (finish_buf _ _ _)
  | @schedule nrf keys hn hl =>
    have hnr : BitVec.ofNat 32 nrf ≠ 0 := by fin_cases hn <;> decide
    refine ⟨fun _ => rfl, fun _ => hnr, fun b => ?_⟩
    cases b <;> exact (Retains.bufWrite s .rk 0 keys).cells _
  | @key n hn => exact (Retains.draw s .key n).trans (.of_eq rfl rfl fun b => by cases b <;> rfl)
  | @nonce n hn => exact (Retains.draw s .iv n).trans (.of_eq rfl rfl fun b => by cases b <;> rfl)
  | @output out p hl hp => exact (Retains.bufWrite s .dout 0 out).trans (.of_eq rfl rfl (finish_buf _ _ _))

theorem Retains.event {s t : State} (h : StepTo s t) : Retains s t := by
  cases h with
  | @command v i _ hd hx =>
    have hcmd : Retains s { s with cmd := v } := .of_eq rfl rfl fun b => by cases b <;> rfl
    exact hcmd.trans (.command (exec_next hx))
  | reject hr => exact .of_eq rfl rfl fun b => by cases b <;> rfl
  | @register r v hr => exact .of_eq (by cases r <;> rfl) (by cases r <;> rfl) fun b => by cases r <;> cases b <;> rfl
  | cell hb hlt => exact .bufWrite s _ _ _
  | observe l => exact .of_eq rfl rfl fun b => by cases b <;> rfl

/-- Settles O19: every event but reset retains them, and so does taking it off the list of events to come. -/
theorem onlyResetClearsScheduleAndCells : Obligations.OnlyResetClearsScheduleAndCells := by
  intro s t h hhead
  suffices hkeep : Retains s t from ⟨hkeep.rkv, hkeep.nr, hkeep.cells⟩
  rcases step_next h with ⟨-, rfl⟩ | ⟨e, rest, hp, ⟨rfl, -⟩ | ⟨-, ht⟩⟩
  · exact .of_eq rfl rfl fun _ => rfl
  · exact absurd (by rw [hp]; rfl) hhead
  · have hpending : Retains s { s with pending := rest } := .of_eq rfl rfl (pending_buf s rest)
    exact hpending.trans (.event ht)

/-! ## Two runs that differ in the output and the report before (70_reset R590) -/

/-- The state with another DOUT and another report of the command before. -/
def State.withResult (s : State) (m : Memory) (e : ErrClass) (p : Bool) (w n : Word) : State :=
  { s with dout := m, err := e, padok := p, errinfo := w, doutlen := n }

/-- If `o` is a next state, `o'` is one too, equal to it but for DOUT, and with the same DOUT below DOUTLEN. -/
def EndsAlike (o o' : Host.Outcome State Fault Refusal) : Prop :=
  ∀ t, o = .next t → ∃ t', o' = .next t' ∧ { t' with dout := t.dout } = t ∧
    ∀ j < t.doutlen.toNat, t'.dout.read j = t.dout.read j

/-- Two next states with no output. -/
theorem EndsAlike.noOutput {t t' : State} (h : { t' with dout := t.dout } = t) (hlen : t.doutlen = 0) :
    EndsAlike (.next t) (.next t') := by
  intro u hu
  cases hu
  exact ⟨t', rfl, h, fun j hj => by simp [hlen] at hj⟩

section
variable {s : State} {m : Memory} {e : ErrClass} {p : Bool} {w n : Word}

theorem EndsAlike.failure (v : Word) (r : Reason) :
    EndsAlike (.next (raise v r s)) (.next (raise v r (s.withResult m e p w n))) := .noOutput rfl rfl

/-- The same output leaves the same bytes below DOUTLEN, whatever DOUT held. -/
theorem EndsAlike.output (out : Bytes) (q : Bool) :
    EndsAlike (.next (finishWith out q s)) (.next (finishWith out q (s.withResult m e p w n))) := by
  intro t ht
  cases ht
  refine ⟨_, rfl, rfl, fun j hj => ?_⟩
  have hlt : j < out.length := lt_of_lt_of_le hj (doutlenWord_toNat_le out.length)
  rw [finishWith_dout, finishWith_dout, Memory.read_write_zero_of_lt _ hlt, Memory.read_write_zero_of_lt _ hlt]

theorem EndsAlike.run {i : Instr} {checks : List (Bool × Reason)} {o o' : Host.Outcome State Fault Refusal}
    (h : EndsAlike o o') : EndsAlike (runCommand i checks o s) (runCommand i checks o' (s.withResult m e p w n)) := by
  unfold runCommand
  cases firstFailing checks with
  | none => exact h
  | some r => exact .failure _ r

theorem EndsAlike.read {α : Type} {r : Except Fault α} {k k' : α → Host.Outcome State Fault Refusal}
    (h : ∀ a, EndsAlike (k a) (k' a)) : EndsAlike (reading r k) (reading r k') := by
  cases r with
  | error f => intro t ht; cases ht
  | ok a => exact h a

theorem EndsAlike.readRoundKeys {nrf : Nat} {k k' : List Bytes → Host.Outcome State Fault Refusal}
    (h : ∀ keys, EndsAlike (k keys) (k' keys)) :
    EndsAlike (reading (s.roundKeysOperand nrf) k) (reading ((s.withResult m e p w n).roundKeysOperand nrf) k') := by
  have hkeys : (s.withResult m e p w n).roundKeysOperand nrf = s.roundKeysOperand nrf :=
    roundKeysFrom_congr (s := s.withResult m e p w n) (t := s) rfl 0 (nrf + 1)
  rw [hkeys]
  exact .read h

/-- What a decryption ends in: the failure write for a tag that differs, or the plaintext. -/
theorem EndsAlike.opened (v : Word) (opened : Option Bytes) :
    EndsAlike
      (match opened with
        | none => .next (raise v .tag s)
        | some out => .next (finishWith out false s))
      (match opened with
        | none => .next (raise v .tag (s.withResult m e p w n))
        | some out => .next (finishWith out false (s.withResult m e p w n))) := by
  cases opened with
  | none => exact .failure v .tag
  | some out => exact .output out false

/-- No command reads DOUT or the report: its checks and operands are the same, so it ends alike. -/
theorem exec_withResult (i : Instr) : EndsAlike (exec i s) (exec i (s.withResult m e p w n)) := by
  cases i with
  | nop => exact .noOutput rfl rfl
  | aesExpand nrf => exact .run (.read fun _ => .noOutput rfl rfl)
  | aesEncBlock nrf => exact .run (.readRoundKeys fun _ => .read fun _ => .output _ _)
  | gcmEnc nrf => exact .run (.readRoundKeys fun _ => .read fun _ => .read fun _ => .read fun _ => .output _ _)
  | gcmDec nrf => exact .run (.readRoundKeys fun _ => .read fun _ => .read fun _ => .read fun _ => .opened _ _)
  | chacha20Block => exact .run (.read fun _ => .read fun _ => .output _ _)
  | chacha20Xor => exact .run (.read fun _ => .read fun _ => .read fun _ => .output _ _)
  | poly1305Mac => exact .run (.read fun _ => .read fun _ => .output _ _)
  | c20pEnc => exact .run (.read fun _ => .read fun _ => .read fun _ => .read fun _ => .output _ _)
  | c20pDec => exact .run (.read fun _ => .read fun _ => .read fun _ => .read fun _ => .opened _ _)
  | desEnc | desDec | tdesEnc | tdesDec => exact .run (.read fun _ => .read fun _ => .output _ _)
  | tdesCbcEnc | tdesCbcDec => exact .run (.read fun _ => .read fun _ => .read fun _ => .output _ _)
  | pkcs5Pad | pkcs5Unpad => exact .run (.read fun _ => .output _ _)
  | genKey alg =>
    simp only [exec, execGenKey]
    cases keyBytes alg with
    | none => exact .failure _ _
    | some k => exact .noOutput rfl rfl
  | genNonce alg =>
    simp only [exec, execGenNonce]
    cases nonceBytes alg with
    | none => exact .failure _ _
    | some k => exact .noOutput rfl rfl

end

/-- Settles O20: both runs make the same checks and read the same operands, and write the same output. -/
theorem commandsReadNeitherDoutNorTheReport : Obligations.CommandsReadNeitherDoutNorTheReport :=
  fun i _ t _ _ _ _ _ h => exec_withResult i t h

end Sys2Proof.Machine
end
